-- ==== Sys2Proof/Word.lean ====
section
/-! DEFINITION. The two word types of the machine: the byte of a register or memory cell and
the 16-bit word of the pc and of a bus address (00_scope.md R8, R9). -/

namespace Sys2Proof

/-- A `u8` (R9): a register, a memory cell, an operand byte. -/
abbrev Byte := BitVec 8

/-- A `u16` (R9): the pc, a bus address, a 16-bit device register. -/
abbrev Word := BitVec 16

end Sys2Proof
end

