-- ==== Sys2Proof/Machine/Bits.lean ====
section
/-! DEFINITION. Bit fields, widening and byte order (00_scope.md R9, 20_memory.md R62,
30_encoding.md R94), used by the decoder and by the machine. -/

namespace Sys2Proof

/-- `zext_16(v)` (R9). -/
def zext16 (v : Byte) : Word := v.zeroExtend 16

/-- `sext_16(v)` (R9): `v` read as two's complement and widened. -/
def sext16 (v : Byte) : Word := v.signExtend 16

/-- `{hi, lo}` (R9): the 16-bit value with the given halves. -/
def mkWord (hi lo : Byte) : Word := hi ++ lo

/-- `v[15:8]` (R9). -/
def hiByte (v : Word) : Byte := v.extractLsb' 8 8

/-- `v[7:0]` (R9). -/
def loByte (v : Word) : Byte := v.extractLsb' 0 8

/-- The bit of a flag as a byte: 1 or 0. -/
def bitByte (b : Bool) : Byte := if b then 1 else 0

end Sys2Proof
end

