-- ==== Sys2Proof/Syntax.lean ====
section
/-! DEFINITION. The instruction set as syntax: addressing modes with their operand bytes and
one constructor per mnemonic of spec/opcode_table.json (30_encoding.md R91, R97). A row of the
table is a constructor at one addressing mode (log 1). -/

namespace Sys2Proof

/-- The registers a register reference can name (40_addressing.md R120, R122). -/
inductive Reg where
  | a | x | y | sp
  deriving DecidableEq, Repr

/-- The names of the addressing modes, as 30_encoding.md R92 lists them. -/
inductive ModeKind where
  | implicit | accumulator | register | immediate
  | zeroPage | zeroPageX | zeroPageY | relative
  | indexedIndirect | indirectIndexed
  | absolute | absoluteX | absoluteY | indirect
  deriving DecidableEq, Repr

/-- An addressing mode carrying its embedded operand: `b1` as one byte, or the 16-bit value
`b2·256 + b1` (R91, R94). -/
inductive Mode where
  | implicit
  | register (r : Reg)
  | immediate (imm : Byte)
  | zeroPage (zp : Byte)
  | zeroPageX (zp : Byte)
  | zeroPageY (zp : Byte)
  | relative (off : Byte)
  | indexedIndirect (zp : Byte)
  | indirectIndexed (zp : Byte)
  | absolute (addr : Word)
  | absoluteX (addr : Word)
  | absoluteY (addr : Word)
  | indirect (ptr : Word)
  deriving DecidableEq, Repr

/-- The name of a mode. The accumulator mode is the register mode with register A (R99). -/
def Mode.kind : Mode → ModeKind
  | .implicit => .implicit
  | .register .a => .accumulator
  | .register _ => .register
  | .immediate _ => .immediate
  | .zeroPage _ => .zeroPage
  | .zeroPageX _ => .zeroPageX
  | .zeroPageY _ => .zeroPageY
  | .relative _ => .relative
  | .indexedIndirect _ => .indexedIndirect
  | .indirectIndexed _ => .indirectIndexed
  | .absolute _ => .absolute
  | .absoluteX _ => .absoluteX
  | .absoluteY _ => .absoluteY
  | .indirect _ => .indirect

/-- The instructions. A constructor whose rows use several modes carries the mode; one whose
row has a single mode with an operand carries the operand; `unmapped` carries its byte. -/
inductive Instr where
  -- loads, stores, transfers (41_load_store_transfer.md)
  | lda (m : Mode)
  | ldx (m : Mode)
  | ldy (m : Mode)
  | sta (m : Mode)
  | stx (m : Mode)
  | sty (m : Mode)
  | tax
  | tay
  | txa
  | tya
  | tsx
  | txs
  -- arithmetic, logic, compare, increment (42_arithmetic_logic.md)
  | adc (m : Mode)
  | sbc (m : Mode)
  | and (m : Mode)
  | ora (m : Mode)
  | eor (m : Mode)
  | cmp (m : Mode)
  | cpx (m : Mode)
  | cpy (m : Mode)
  | bit (m : Mode)
  | inc (m : Mode)
  | dec (m : Mode)
  | inx
  | iny
  | dex
  | dey
  -- shifts and rotates (43_shift_rotate.md)
  | asl (m : Mode)
  | lsr (m : Mode)
  | rol (m : Mode)
  | ror (m : Mode)
  -- control flow (44_control_flow.md)
  | jmp (m : Mode)
  | jsr (target : Word)
  | rts
  | bcc (off : Byte)
  | bcs (off : Byte)
  | beq (off : Byte)
  | bne (off : Byte)
  | bmi (off : Byte)
  | bpl (off : Byte)
  | bvc (off : Byte)
  | bvs (off : Byte)
  -- stack and flags (45_stack_flags.md)
  | pha
  | php
  | pla
  | plp
  | clc
  | sec
  | cli
  | sei
  | cld
  | sed
  | clv
  -- system (46_system.md)
  | brk
  | rti
  | nop
  | unmapped (op : Byte)
  -- undocumented (47_unofficial.md)
  | lax (m : Mode)
  | sax (m : Mode)
  | axs (imm : Byte)
  deriving DecidableEq, Repr

/-- The mode of an instruction; an unmapped byte has none (R92, R95). -/
def Instr.mode : Instr → Option Mode
  | .lda m | .ldx m | .ldy m | .sta m | .stx m | .sty m => some m
  | .adc m | .sbc m | .and m | .ora m | .eor m => some m
  | .cmp m | .cpx m | .cpy m | .bit m | .inc m | .dec m => some m
  | .asl m | .lsr m | .rol m | .ror m => some m
  | .jmp m | .lax m | .sax m => some m
  | .jsr t => some (.absolute t)
  | .axs i => some (.immediate i)
  | .bcc o | .bcs o | .beq o | .bne o | .bmi o | .bpl o | .bvc o | .bvs o => some (.relative o)
  | .tax | .tay | .txa | .tya | .tsx | .txs => some .implicit
  | .inx | .iny | .dex | .dey => some .implicit
  | .rts | .pha | .php | .pla | .plp => some .implicit
  | .clc | .sec | .cli | .sei | .cld | .sed | .clv => some .implicit
  | .brk | .rti | .nop => some .implicit
  | .unmapped _ => none

/-- A decode table, as what it changes of the table of 30_encoding.md R97: a listed byte is unmapped
(`none`), or selects the instruction given, whose operand bytes are then those fetched (R8
`DECODE_TABLE`; log 23). A byte not listed is as R97 says. -/
abbrev TableChanges := List (Byte × Option Instr)

/-- Why a slice gives no instruction (30_encoding.md R96). -/
inductive DecodeError where
  /-- The slice is empty. -/
  | emptySlice
  /-- The slice holds `have_` bytes and the instruction needs `need`. -/
  | truncated (need have_ : Nat)
  deriving DecidableEq, Repr

end Sys2Proof
end

