-- ==== Sys2Proof/WellFormed.lean ====
section
/-! DEFINITION. Which instruction terms stand for a row of the decode table: the mode is one the
table gives the mnemonic (30_encoding.md R97, the filled cells of each row), and an unmapped byte
is one of the 94 that R95 lists. -/

namespace Sys2Proof

/-- The eight modes of ADC, AND, CMP, EOR, LDA, ORA, SBC (R97). -/
def aluModes : List ModeKind :=
  [.immediate, .zeroPage, .zeroPageX, .absolute, .absoluteX, .absoluteY, .indexedIndirect,
    .indirectIndexed]

/-- The five modes of ASL, LSR, ROL, ROR (R97). -/
def shiftModes : List ModeKind := [.accumulator, .zeroPage, .zeroPageX, .absolute, .absoluteX]

/-- The 94 unmapped byte values, in the order R95 prints them. -/
def unmappedBytes : List Byte :=
  [0x02, 0x03, 0x04, 0x07, 0x0B, 0x0C, 0x0F, 0x12, 0x13, 0x14, 0x17, 0x1A, 0x1B, 0x1C, 0x1F, 0x22,
    0x23, 0x27, 0x2B, 0x2F, 0x32, 0x33, 0x34, 0x37, 0x3A, 0x3B, 0x3C, 0x3F] ++
  [0x42, 0x43, 0x44, 0x47, 0x4B, 0x4F, 0x52, 0x53, 0x54, 0x57, 0x5A, 0x5B, 0x5C, 0x5F, 0x62, 0x63,
    0x64, 0x67, 0x6B, 0x6F, 0x72, 0x73, 0x74, 0x77, 0x7A, 0x7B, 0x7C, 0x7F] ++
  [0x80, 0x82, 0x89, 0x8B, 0x92, 0x93, 0x9B, 0x9C, 0x9E, 0x9F, 0xAB, 0xB2, 0xBB, 0xC2, 0xC3, 0xC7,
    0xCF, 0xD2, 0xD3, 0xD4, 0xD7, 0xDA, 0xDB, 0xDC, 0xDF, 0xE2, 0xE3, 0xE7] ++
  [0xEB, 0xEF, 0xF2, 0xF3, 0xF4, 0xF7, 0xFA, 0xFB, 0xFC, 0xFF]

/-- The instruction is a row of the decode table (R97), or an unmapped byte of R95. -/
def Instr.wellFormed : Instr → Bool
  | .lda m | .adc m | .sbc m | .and m | .ora m | .eor m | .cmp m => m.kind ∈ aluModes
  | .sta m => m.kind ∈ aluModes.filter (· ≠ .immediate)
  | .ldx m => m.kind ∈ [ModeKind.immediate, .zeroPage, .zeroPageY, .absolute, .absoluteY]
  | .ldy m => m.kind ∈ [ModeKind.immediate, .zeroPage, .zeroPageX, .absolute, .absoluteX]
  | .stx m => m.kind ∈ [ModeKind.zeroPage, .zeroPageY, .absolute]
  | .sty m => m.kind ∈ [ModeKind.zeroPage, .zeroPageX, .absolute]
  | .cpx m | .cpy m => m.kind ∈ [ModeKind.immediate, .zeroPage, .absolute]
  | .bit m => m.kind ∈ [ModeKind.zeroPage, .absolute]
  | .inc m | .dec m => m.kind ∈ [ModeKind.zeroPage, .zeroPageX, .absolute, .absoluteX]
  | .asl m | .lsr m | .rol m | .ror m => m.kind ∈ shiftModes
  | .jmp m => m.kind ∈ [ModeKind.absolute, .indirect]
  | .lax m =>
    m.kind ∈ [ModeKind.zeroPage, .zeroPageY, .absolute, .absoluteY, .indexedIndirect,
      .indirectIndexed]
  | .sax m => m.kind ∈ [ModeKind.zeroPage, .zeroPageY, .absolute, .indexedIndirect]
  | .unmapped op => op ∈ unmappedBytes
  | .tax | .tay | .txa | .tya | .tsx | .txs | .inx | .iny | .dex | .dey => true
  | .jsr _ | .rts | .bcc _ | .bcs _ | .beq _ | .bne _ | .bmi _ | .bpl _ | .bvc _ | .bvs _ => true
  | .pha | .php | .pla | .plp | .clc | .sec | .cli | .sei | .cld | .sed | .clv => true
  | .brk | .rti | .nop | .axs _ => true

end Sys2Proof
end

