-- ==== Sys2Proof/Decode.lean ====
section
/-! DEFINITION. The decoder, from the matrix of 30_encoding.md R98, and after it the encoder, from
the table by mnemonic of R97: two transcriptions of two tables of the spec, so that their
agreement says something. Decoding is total: a byte string gives an instruction, or is
rejected by name when it is too short (R96). -/

namespace Sys2Proof

/-! ### Lengths -/

/-- `byte_size(mode)` (R92). -/
def ModeKind.byteSize : ModeKind → Nat
  | .implicit | .accumulator | .register => 1
  | .zeroPage | .zeroPageX | .zeroPageY | .relative | .immediate => 2
  | .indexedIndirect | .indirectIndexed => 2
  | .absolute | .absoluteX | .absoluteY | .indirect => 3

/-- The length of an instruction in bytes: that of its mode, and 1 for an unmapped byte
(R92, R95). -/
def Instr.length (i : Instr) : Nat :=
  match i.mode with
  | some m => m.kind.byteSize
  | none => 1

/-! ### The decode table, row by row (R98); `lo` is the low nibble of the opcode -/

/-- Row 0x of the matrix of R98. -/
def decodeRow0 (lo : Nat) (b1 b2 : Byte) : Option Instr :=
  match lo with
  | 0x0 => some .brk
  | 0x1 => some (.ora (.indexedIndirect b1))
  | 0x5 => some (.ora (.zeroPage b1))
  | 0x6 => some (.asl (.zeroPage b1))
  | 0x8 => some .php
  | 0x9 => some (.ora (.immediate b1))
  | 0xA => some (.asl (.register .a))
  | 0xD => some (.ora (.absolute (mkWord b2 b1)))
  | 0xE => some (.asl (.absolute (mkWord b2 b1)))
  | _ => none

/-- Row 1x of the matrix of R98. -/
def decodeRow1 (lo : Nat) (b1 b2 : Byte) : Option Instr :=
  match lo with
  | 0x0 => some (.bpl b1)
  | 0x1 => some (.ora (.indirectIndexed b1))
  | 0x5 => some (.ora (.zeroPageX b1))
  | 0x6 => some (.asl (.zeroPageX b1))
  | 0x8 => some .clc
  | 0x9 => some (.ora (.absoluteY (mkWord b2 b1)))
  | 0xD => some (.ora (.absoluteX (mkWord b2 b1)))
  | 0xE => some (.asl (.absoluteX (mkWord b2 b1)))
  | _ => none

/-- Row 2x of the matrix of R98. -/
def decodeRow2 (lo : Nat) (b1 b2 : Byte) : Option Instr :=
  match lo with
  | 0x0 => some (.jsr (mkWord b2 b1))
  | 0x1 => some (.and (.indexedIndirect b1))
  | 0x4 => some (.bit (.zeroPage b1))
  | 0x5 => some (.and (.zeroPage b1))
  | 0x6 => some (.rol (.zeroPage b1))
  | 0x8 => some .plp
  | 0x9 => some (.and (.immediate b1))
  | 0xA => some (.rol (.register .a))
  | 0xC => some (.bit (.absolute (mkWord b2 b1)))
  | 0xD => some (.and (.absolute (mkWord b2 b1)))
  | 0xE => some (.rol (.absolute (mkWord b2 b1)))
  | _ => none

/-- Row 3x of the matrix of R98. -/
def decodeRow3 (lo : Nat) (b1 b2 : Byte) : Option Instr :=
  match lo with
  | 0x0 => some (.bmi b1)
  | 0x1 => some (.and (.indirectIndexed b1))
  | 0x5 => some (.and (.zeroPageX b1))
  | 0x6 => some (.rol (.zeroPageX b1))
  | 0x8 => some .sec
  | 0x9 => some (.and (.absoluteY (mkWord b2 b1)))
  | 0xD => some (.and (.absoluteX (mkWord b2 b1)))
  | 0xE => some (.rol (.absoluteX (mkWord b2 b1)))
  | _ => none

/-- Row 4x of the matrix of R98. -/
def decodeRow4 (lo : Nat) (b1 b2 : Byte) : Option Instr :=
  match lo with
  | 0x0 => some .rti
  | 0x1 => some (.eor (.indexedIndirect b1))
  | 0x5 => some (.eor (.zeroPage b1))
  | 0x6 => some (.lsr (.zeroPage b1))
  | 0x8 => some .pha
  | 0x9 => some (.eor (.immediate b1))
  | 0xA => some (.lsr (.register .a))
  | 0xC => some (.jmp (.absolute (mkWord b2 b1)))
  | 0xD => some (.eor (.absolute (mkWord b2 b1)))
  | 0xE => some (.lsr (.absolute (mkWord b2 b1)))
  | _ => none

/-- Row 5x of the matrix of R98. -/
def decodeRow5 (lo : Nat) (b1 b2 : Byte) : Option Instr :=
  match lo with
  | 0x0 => some (.bvc b1)
  | 0x1 => some (.eor (.indirectIndexed b1))
  | 0x5 => some (.eor (.zeroPageX b1))
  | 0x6 => some (.lsr (.zeroPageX b1))
  | 0x8 => some .cli
  | 0x9 => some (.eor (.absoluteY (mkWord b2 b1)))
  | 0xD => some (.eor (.absoluteX (mkWord b2 b1)))
  | 0xE => some (.lsr (.absoluteX (mkWord b2 b1)))
  | _ => none

/-- Row 6x of the matrix of R98. -/
def decodeRow6 (lo : Nat) (b1 b2 : Byte) : Option Instr :=
  match lo with
  | 0x0 => some .rts
  | 0x1 => some (.adc (.indexedIndirect b1))
  | 0x5 => some (.adc (.zeroPage b1))
  | 0x6 => some (.ror (.zeroPage b1))
  | 0x8 => some .pla
  | 0x9 => some (.adc (.immediate b1))
  | 0xA => some (.ror (.register .a))
  | 0xC => some (.jmp (.indirect (mkWord b2 b1)))
  | 0xD => some (.adc (.absolute (mkWord b2 b1)))
  | 0xE => some (.ror (.absolute (mkWord b2 b1)))
  | _ => none

/-- Row 7x of the matrix of R98. -/
def decodeRow7 (lo : Nat) (b1 b2 : Byte) : Option Instr :=
  match lo with
  | 0x0 => some (.bvs b1)
  | 0x1 => some (.adc (.indirectIndexed b1))
  | 0x5 => some (.adc (.zeroPageX b1))
  | 0x6 => some (.ror (.zeroPageX b1))
  | 0x8 => some .sei
  | 0x9 => some (.adc (.absoluteY (mkWord b2 b1)))
  | 0xD => some (.adc (.absoluteX (mkWord b2 b1)))
  | 0xE => some (.ror (.absoluteX (mkWord b2 b1)))
  | _ => none

/-- Row 8x of the matrix of R98. -/
def decodeRow8 (lo : Nat) (b1 b2 : Byte) : Option Instr :=
  match lo with
  | 0x1 => some (.sta (.indexedIndirect b1))
  | 0x3 => some (.sax (.indexedIndirect b1))
  | 0x4 => some (.sty (.zeroPage b1))
  | 0x5 => some (.sta (.zeroPage b1))
  | 0x6 => some (.stx (.zeroPage b1))
  | 0x7 => some (.sax (.zeroPage b1))
  | 0x8 => some .dey
  | 0xA => some .txa
  | 0xC => some (.sty (.absolute (mkWord b2 b1)))
  | 0xD => some (.sta (.absolute (mkWord b2 b1)))
  | 0xE => some (.stx (.absolute (mkWord b2 b1)))
  | 0xF => some (.sax (.absolute (mkWord b2 b1)))
  | _ => none

/-- Row 9x of the matrix of R98. -/
def decodeRow9 (lo : Nat) (b1 b2 : Byte) : Option Instr :=
  match lo with
  | 0x0 => some (.bcc b1)
  | 0x1 => some (.sta (.indirectIndexed b1))
  | 0x4 => some (.sty (.zeroPageX b1))
  | 0x5 => some (.sta (.zeroPageX b1))
  | 0x6 => some (.stx (.zeroPageY b1))
  | 0x7 => some (.sax (.zeroPageY b1))
  | 0x8 => some .tya
  | 0x9 => some (.sta (.absoluteY (mkWord b2 b1)))
  | 0xA => some .txs
  | 0xD => some (.sta (.absoluteX (mkWord b2 b1)))
  | _ => none

/-- Row Ax of the matrix of R98. -/
def decodeRowA (lo : Nat) (b1 b2 : Byte) : Option Instr :=
  match lo with
  | 0x0 => some (.ldy (.immediate b1))
  | 0x1 => some (.lda (.indexedIndirect b1))
  | 0x2 => some (.ldx (.immediate b1))
  | 0x3 => some (.lax (.indexedIndirect b1))
  | 0x4 => some (.ldy (.zeroPage b1))
  | 0x5 => some (.lda (.zeroPage b1))
  | 0x6 => some (.ldx (.zeroPage b1))
  | 0x7 => some (.lax (.zeroPage b1))
  | 0x8 => some .tay
  | 0x9 => some (.lda (.immediate b1))
  | 0xA => some .tax
  | 0xC => some (.ldy (.absolute (mkWord b2 b1)))
  | 0xD => some (.lda (.absolute (mkWord b2 b1)))
  | 0xE => some (.ldx (.absolute (mkWord b2 b1)))
  | 0xF => some (.lax (.absolute (mkWord b2 b1)))
  | _ => none

/-- Row Bx of the matrix of R98. -/
def decodeRowB (lo : Nat) (b1 b2 : Byte) : Option Instr :=
  match lo with
  | 0x0 => some (.bcs b1)
  | 0x1 => some (.lda (.indirectIndexed b1))
  | 0x3 => some (.lax (.indirectIndexed b1))
  | 0x4 => some (.ldy (.zeroPageX b1))
  | 0x5 => some (.lda (.zeroPageX b1))
  | 0x6 => some (.ldx (.zeroPageY b1))
  | 0x7 => some (.lax (.zeroPageY b1))
  | 0x8 => some .clv
  | 0x9 => some (.lda (.absoluteY (mkWord b2 b1)))
  | 0xA => some .tsx
  | 0xC => some (.ldy (.absoluteX (mkWord b2 b1)))
  | 0xD => some (.lda (.absoluteX (mkWord b2 b1)))
  | 0xE => some (.ldx (.absoluteY (mkWord b2 b1)))
  | 0xF => some (.lax (.absoluteY (mkWord b2 b1)))
  | _ => none

/-- Row Cx of the matrix of R98. -/
def decodeRowC (lo : Nat) (b1 b2 : Byte) : Option Instr :=
  match lo with
  | 0x0 => some (.cpy (.immediate b1))
  | 0x1 => some (.cmp (.indexedIndirect b1))
  | 0x4 => some (.cpy (.zeroPage b1))
  | 0x5 => some (.cmp (.zeroPage b1))
  | 0x6 => some (.dec (.zeroPage b1))
  | 0x8 => some .iny
  | 0x9 => some (.cmp (.immediate b1))
  | 0xA => some .dex
  | 0xB => some (.axs b1)
  | 0xC => some (.cpy (.absolute (mkWord b2 b1)))
  | 0xD => some (.cmp (.absolute (mkWord b2 b1)))
  | 0xE => some (.dec (.absolute (mkWord b2 b1)))
  | _ => none

/-- Row Dx of the matrix of R98. -/
def decodeRowD (lo : Nat) (b1 b2 : Byte) : Option Instr :=
  match lo with
  | 0x0 => some (.bne b1)
  | 0x1 => some (.cmp (.indirectIndexed b1))
  | 0x5 => some (.cmp (.zeroPageX b1))
  | 0x6 => some (.dec (.zeroPageX b1))
  | 0x8 => some .cld
  | 0x9 => some (.cmp (.absoluteY (mkWord b2 b1)))
  | 0xD => some (.cmp (.absoluteX (mkWord b2 b1)))
  | 0xE => some (.dec (.absoluteX (mkWord b2 b1)))
  | _ => none

/-- Row Ex of the matrix of R98. -/
def decodeRowE (lo : Nat) (b1 b2 : Byte) : Option Instr :=
  match lo with
  | 0x0 => some (.cpx (.immediate b1))
  | 0x1 => some (.sbc (.indexedIndirect b1))
  | 0x4 => some (.cpx (.zeroPage b1))
  | 0x5 => some (.sbc (.zeroPage b1))
  | 0x6 => some (.inc (.zeroPage b1))
  | 0x8 => some .inx
  | 0x9 => some (.sbc (.immediate b1))
  | 0xA => some .nop
  | 0xC => some (.cpx (.absolute (mkWord b2 b1)))
  | 0xD => some (.sbc (.absolute (mkWord b2 b1)))
  | 0xE => some (.inc (.absolute (mkWord b2 b1)))
  | _ => none

/-- Row Fx of the matrix of R98. -/
def decodeRowF (lo : Nat) (b1 b2 : Byte) : Option Instr :=
  match lo with
  | 0x0 => some (.beq b1)
  | 0x1 => some (.sbc (.indirectIndexed b1))
  | 0x5 => some (.sbc (.zeroPageX b1))
  | 0x6 => some (.inc (.zeroPageX b1))
  | 0x8 => some .sed
  | 0x9 => some (.sbc (.absoluteY (mkWord b2 b1)))
  | 0xD => some (.sbc (.absoluteX (mkWord b2 b1)))
  | 0xE => some (.inc (.absoluteX (mkWord b2 b1)))
  | _ => none

/-- `DECODE_TABLE[op]` with the operand bytes assembled (R94, R98): nothing for an unmapped
byte. -/
def decodeMapped (op b1 b2 : Byte) : Option Instr :=
  match op.toNat / 16 with
  | 0x0 => decodeRow0 (op.toNat % 16) b1 b2
  | 0x1 => decodeRow1 (op.toNat % 16) b1 b2
  | 0x2 => decodeRow2 (op.toNat % 16) b1 b2
  | 0x3 => decodeRow3 (op.toNat % 16) b1 b2
  | 0x4 => decodeRow4 (op.toNat % 16) b1 b2
  | 0x5 => decodeRow5 (op.toNat % 16) b1 b2
  | 0x6 => decodeRow6 (op.toNat % 16) b1 b2
  | 0x7 => decodeRow7 (op.toNat % 16) b1 b2
  | 0x8 => decodeRow8 (op.toNat % 16) b1 b2
  | 0x9 => decodeRow9 (op.toNat % 16) b1 b2
  | 0xA => decodeRowA (op.toNat % 16) b1 b2
  | 0xB => decodeRowB (op.toNat % 16) b1 b2
  | 0xC => decodeRowC (op.toNat % 16) b1 b2
  | 0xD => decodeRowD (op.toNat % 16) b1 b2
  | 0xE => decodeRowE (op.toNat % 16) b1 b2
  | 0xF => decodeRowF (op.toNat % 16) b1 b2
  | _ => none

/-! ### A decode table other than R97's (R8, U11; log 23) -/

/-- The mode with its operand bytes replaced (R91, R94). -/
def Mode.withOperands (b1 b2 : Byte) : Mode → Mode
  | .implicit => .implicit
  | .register r => .register r
  | .immediate _ => .immediate b1
  | .zeroPage _ => .zeroPage b1
  | .zeroPageX _ => .zeroPageX b1
  | .zeroPageY _ => .zeroPageY b1
  | .relative _ => .relative b1
  | .indexedIndirect _ => .indexedIndirect b1
  | .indirectIndexed _ => .indirectIndexed b1
  | .absolute _ => .absolute (mkWord b2 b1)
  | .absoluteX _ => .absoluteX (mkWord b2 b1)
  | .absoluteY _ => .absoluteY (mkWord b2 b1)
  | .indirect _ => .indirect (mkWord b2 b1)

/-- The instruction with its operand bytes replaced: the row of a decode table as R90 fills it in. -/
def Instr.withOperands (b1 b2 : Byte) : Instr → Instr
  | .lda m => .lda (m.withOperands b1 b2)
  | .ldx m => .ldx (m.withOperands b1 b2)
  | .ldy m => .ldy (m.withOperands b1 b2)
  | .sta m => .sta (m.withOperands b1 b2)
  | .stx m => .stx (m.withOperands b1 b2)
  | .sty m => .sty (m.withOperands b1 b2)
  | .adc m => .adc (m.withOperands b1 b2)
  | .sbc m => .sbc (m.withOperands b1 b2)
  | .and m => .and (m.withOperands b1 b2)
  | .ora m => .ora (m.withOperands b1 b2)
  | .eor m => .eor (m.withOperands b1 b2)
  | .cmp m => .cmp (m.withOperands b1 b2)
  | .cpx m => .cpx (m.withOperands b1 b2)
  | .cpy m => .cpy (m.withOperands b1 b2)
  | .bit m => .bit (m.withOperands b1 b2)
  | .inc m => .inc (m.withOperands b1 b2)
  | .dec m => .dec (m.withOperands b1 b2)
  | .asl m => .asl (m.withOperands b1 b2)
  | .lsr m => .lsr (m.withOperands b1 b2)
  | .rol m => .rol (m.withOperands b1 b2)
  | .ror m => .ror (m.withOperands b1 b2)
  | .jmp m => .jmp (m.withOperands b1 b2)
  | .lax m => .lax (m.withOperands b1 b2)
  | .sax m => .sax (m.withOperands b1 b2)
  | .bcc _ => .bcc b1
  | .bcs _ => .bcs b1
  | .beq _ => .beq b1
  | .bne _ => .bne b1
  | .bmi _ => .bmi b1
  | .bpl _ => .bpl b1
  | .bvc _ => .bvc b1
  | .bvs _ => .bvs b1
  | .jsr _ => .jsr (mkWord b2 b1)
  | .axs _ => .axs b1
  | .tax => .tax
  | .tay => .tay
  | .txa => .txa
  | .tya => .tya
  | .tsx => .tsx
  | .txs => .txs
  | .inx => .inx
  | .iny => .iny
  | .dex => .dex
  | .dey => .dey
  | .rts => .rts
  | .pha => .pha
  | .php => .php
  | .pla => .pla
  | .plp => .plp
  | .clc => .clc
  | .sec => .sec
  | .cli => .cli
  | .sei => .sei
  | .cld => .cld
  | .sed => .sed
  | .clv => .clv
  | .brk => .brk
  | .rti => .rti
  | .nop => .nop
  | .unmapped op => .unmapped op

/-- `DECODE_TABLE[op]` filled in with the operand bytes; nothing for an unmapped byte (R90, R95). -/
def tableRow (changes : TableChanges) (op b1 b2 : Byte) : Option Instr :=
  match changes.lookup op with
  | some row => row.map (·.withOperands b1 b2)
  | none => decodeMapped op b1 b2

/-! ### The decoder -/

/-- The instruction an opcode byte and two operand bytes stand for; bytes the instruction does
not have are ignored (R90, R95). -/
def decodeOpcode (changes : TableChanges) (op b1 b2 : Byte) : Instr :=
  (tableRow changes op b1 b2).getD (.unmapped op)

/-- Decodes the slice fetched at the pc (R90): the first byte selects the row, and a slice that is
empty or shorter than the instruction is rejected (R96). -/
def decodeWith (changes : TableChanges) : List Byte → Except DecodeError Instr
  | [] => .error .emptySlice
  | op :: rest =>
    let i := decodeOpcode changes op (rest.getD 0 0) (rest.getD 1 0)
    if rest.length + 1 < i.length then .error (.truncated i.length (rest.length + 1)) else .ok i

/-- Decodes by the table of R97. -/
def decode (bytes : List Byte) : Except DecodeError Instr := decodeWith [] bytes

/-! ### The encoder (R91, R97) -/

/-- The opcode a row of R97's table gives a mode. -/
def Mode.opcodeIn (m : Mode) (row : List (ModeKind × Byte)) : Option Byte := row.lookup m.kind

/-- Byte 0 of a well-formed instruction, from the table by mnemonic of R97; nothing for a mode
that the mnemonic's row leaves blank. -/
def Instr.opcode : Instr → Option Byte
  | .adc m => m.opcodeIn [(.immediate, 0x69), (.zeroPage, 0x65), (.zeroPageX, 0x75),
      (.absolute, 0x6D), (.absoluteX, 0x7D), (.absoluteY, 0x79), (.indexedIndirect, 0x61),
      (.indirectIndexed, 0x71)]
  | .and m => m.opcodeIn [(.immediate, 0x29), (.zeroPage, 0x25), (.zeroPageX, 0x35),
      (.absolute, 0x2D), (.absoluteX, 0x3D), (.absoluteY, 0x39), (.indexedIndirect, 0x21),
      (.indirectIndexed, 0x31)]
  | .asl m => m.opcodeIn [(.zeroPage, 0x06), (.zeroPageX, 0x16), (.absolute, 0x0E),
      (.absoluteX, 0x1E), (.accumulator, 0x0A)]
  | .bcc _ => some 0x90
  | .bcs _ => some 0xB0
  | .beq _ => some 0xF0
  | .bit m => m.opcodeIn [(.zeroPage, 0x24), (.absolute, 0x2C)]
  | .bmi _ => some 0x30
  | .bne _ => some 0xD0
  | .bpl _ => some 0x10
  | .brk => some 0x00
  | .bvc _ => some 0x50
  | .bvs _ => some 0x70
  | .clc => some 0x18
  | .cld => some 0xD8
  | .cli => some 0x58
  | .clv => some 0xB8
  | .cmp m => m.opcodeIn [(.immediate, 0xC9), (.zeroPage, 0xC5), (.zeroPageX, 0xD5),
      (.absolute, 0xCD), (.absoluteX, 0xDD), (.absoluteY, 0xD9), (.indexedIndirect, 0xC1),
      (.indirectIndexed, 0xD1)]
  | .cpx m => m.opcodeIn [(.immediate, 0xE0), (.zeroPage, 0xE4), (.absolute, 0xEC)]
  | .cpy m => m.opcodeIn [(.immediate, 0xC0), (.zeroPage, 0xC4), (.absolute, 0xCC)]
  | .dec m => m.opcodeIn [(.zeroPage, 0xC6), (.zeroPageX, 0xD6), (.absolute, 0xCE),
      (.absoluteX, 0xDE)]
  | .dex => some 0xCA
  | .dey => some 0x88
  | .eor m => m.opcodeIn [(.immediate, 0x49), (.zeroPage, 0x45), (.zeroPageX, 0x55),
      (.absolute, 0x4D), (.absoluteX, 0x5D), (.absoluteY, 0x59), (.indexedIndirect, 0x41),
      (.indirectIndexed, 0x51)]
  | .inc m => m.opcodeIn [(.zeroPage, 0xE6), (.zeroPageX, 0xF6), (.absolute, 0xEE),
      (.absoluteX, 0xFE)]
  | .inx => some 0xE8
  | .iny => some 0xC8
  | .jmp m => m.opcodeIn [(.absolute, 0x4C), (.indirect, 0x6C)]
  | .jsr _ => some 0x20
  | .lda m => m.opcodeIn [(.immediate, 0xA9), (.zeroPage, 0xA5), (.zeroPageX, 0xB5),
      (.absolute, 0xAD), (.absoluteX, 0xBD), (.absoluteY, 0xB9), (.indexedIndirect, 0xA1),
      (.indirectIndexed, 0xB1)]
  | .ldx m => m.opcodeIn [(.immediate, 0xA2), (.zeroPage, 0xA6), (.zeroPageY, 0xB6),
      (.absolute, 0xAE), (.absoluteY, 0xBE)]
  | .ldy m => m.opcodeIn [(.immediate, 0xA0), (.zeroPage, 0xA4), (.zeroPageX, 0xB4),
      (.absolute, 0xAC), (.absoluteX, 0xBC)]
  | .lsr m => m.opcodeIn [(.zeroPage, 0x46), (.zeroPageX, 0x56), (.absolute, 0x4E),
      (.absoluteX, 0x5E), (.accumulator, 0x4A)]
  | .nop => some 0xEA
  | .ora m => m.opcodeIn [(.immediate, 0x09), (.zeroPage, 0x05), (.zeroPageX, 0x15),
      (.absolute, 0x0D), (.absoluteX, 0x1D), (.absoluteY, 0x19), (.indexedIndirect, 0x01),
      (.indirectIndexed, 0x11)]
  | .pha => some 0x48
  | .php => some 0x08
  | .pla => some 0x68
  | .plp => some 0x28
  | .rol m => m.opcodeIn [(.zeroPage, 0x26), (.zeroPageX, 0x36), (.absolute, 0x2E),
      (.absoluteX, 0x3E), (.accumulator, 0x2A)]
  | .ror m => m.opcodeIn [(.zeroPage, 0x66), (.zeroPageX, 0x76), (.absolute, 0x6E),
      (.absoluteX, 0x7E), (.accumulator, 0x6A)]
  | .rti => some 0x40
  | .rts => some 0x60
  | .sbc m => m.opcodeIn [(.immediate, 0xE9), (.zeroPage, 0xE5), (.zeroPageX, 0xF5),
      (.absolute, 0xED), (.absoluteX, 0xFD), (.absoluteY, 0xF9), (.indexedIndirect, 0xE1),
      (.indirectIndexed, 0xF1)]
  | .sec => some 0x38
  | .sed => some 0xF8
  | .sei => some 0x78
  | .sta m => m.opcodeIn [(.zeroPage, 0x85), (.zeroPageX, 0x95), (.absolute, 0x8D),
      (.absoluteX, 0x9D), (.absoluteY, 0x99), (.indexedIndirect, 0x81), (.indirectIndexed, 0x91)]
  | .stx m => m.opcodeIn [(.zeroPage, 0x86), (.zeroPageY, 0x96), (.absolute, 0x8E)]
  | .sty m => m.opcodeIn [(.zeroPage, 0x84), (.zeroPageX, 0x94), (.absolute, 0x8C)]
  | .tax => some 0xAA
  | .tay => some 0xA8
  | .tsx => some 0xBA
  | .txa => some 0x8A
  | .txs => some 0x9A
  | .tya => some 0x98
  | .lax m => m.opcodeIn [(.zeroPage, 0xA7), (.zeroPageY, 0xB7), (.absolute, 0xAF),
      (.absoluteY, 0xBF), (.indexedIndirect, 0xA3), (.indirectIndexed, 0xB3)]
  | .sax m => m.opcodeIn [(.zeroPage, 0x87), (.zeroPageY, 0x97), (.absolute, 0x8F),
      (.indexedIndirect, 0x83)]
  | .axs _ => some 0xCB
  | .unmapped op => if op ∈ unmappedBytes then some op else none

/-- The operand bytes of a mode, in memory order: low byte first (R91, R94). -/
def Mode.operandBytes : Mode → List Byte
  | .implicit | .register _ => []
  | .immediate b | .zeroPage b | .zeroPageX b | .zeroPageY b => [b]
  | .relative b | .indexedIndirect b | .indirectIndexed b => [b]
  | .absolute w | .absoluteX w | .absoluteY w | .indirect w => [loByte w, hiByte w]

/-- The bytes of a well-formed instruction, the opcode at the lowest address (R91); no bytes for an
ill-formed term. -/
def encode (i : Instr) : List Byte :=
  match i.opcode with
  | none => []
  | some op => op :: ((i.mode.map Mode.operandBytes).getD [])

/-! ### The host's view of the table -/

/-- The three bytes of a table word: byte 0 in bits 7..0, byte 1 in bits 15..8, byte 2 in bits
23..16, every bit at or above `nbits` zero. -/
def tableWordBytes (nbits w : Nat) : List Byte :=
  let v := w % 2 ^ nbits
  [BitVec.ofNat 8 v, BitVec.ofNat 8 (v / 256), BitVec.ofNat 8 (v / 65536)]

/-- The instruction the decoder reads from a word of spec/opcode_table.json, its bits numbered as
the table numbers them. -/
def decodeTableWord (nbits w : Nat) : Option Instr := (decode (tableWordBytes nbits w)).toOption

end Sys2Proof
end

