-- ==== Sys2Proof/Config.lean ====
section
/-! DEFINITION. What is fixed when the machine is built (10_state.md R39): the mount list and
the devices on it, the parameters the spec keeps open, and the one free value the spec leaves
to no one. The values the spec gives these parameters are in Machine/Params.lean. -/

namespace Sys2Proof.Machine

/-- The three device kinds (20_memory.md R59, R60, R61). A memory's backing bytes are State's
`mem`; the kind holds the backing's length in bytes. -/
inductive Device where
  | ram (size : Nat)
  | rom (size : Nat)
  | registers
  deriving DecidableEq, Repr

/-- One mount: the device answers the addresses `a` with `start ≤ a < stop` (R52). DESIGN CHOICE:
a RAM or ROM mount is a device of its own, and every register mount is the one timing device
(log 24). -/
structure Mount where
  start : Nat
  stop  : Nat
  dev   : Device
  deriving DecidableEq, Repr

/-- The geometry constants of the timing device, kept as parameters (00_scope.md R8,
93_implementation_defined.md U17). -/
structure Geometry where
  cycleMax    : Nat
  scanlineMax : Int
  prerender   : Int
  vblankLine  : Int
  eventCycle  : Nat
  deriving DecidableEq, Repr

/-- Everything fixed at build time that a claim may range over: `MAP`, `JMP_INDIRECT_PAGE_WRAP`,
`STACK_BASE`, `SP_INIT`, `DECODE_TABLE` and the geometry (R8, R39). -/
structure Config where
  map                 : List Mount
  jmpIndirectPageWrap : Bool
  stackBase           : Word
  spInit              : Byte
  tableChanges        : TableChanges
  geometry            : Geometry
  deriving DecidableEq, Repr

/-- Why a mount list cannot be built (60_exceptions.md R264): the offending range. -/
inductive BuildError where
  | configurationError (start stop : Nat)
  deriving DecidableEq, Repr

/-- FREE VALUE. The `k`-th unspecified byte the machine draws: what a read of a register-file
port other than status returns (R287; 93_implementation_defined.md U6). It has no body, so
nothing about it can be proved. DESIGN CHOICE in form only (log 6). -/
opaque Config.freeByte : Nat → Byte

end Sys2Proof.Machine
end

