-- ==== Sys2Proof/Machine/Params.lean ====
section
/-! DEFINITION. The values the spec gives the parameters of 00_scope.md R8. -/

namespace Sys2Proof.Machine

/-- `VEC_NMI` (R8, 20_memory.md R65). -/
def vecNmi : Word := 0xFFFA

/-- `VEC_RESET` (R8, R65). -/
def vecReset : Word := 0xFFFC

/-- `VEC_IRQ` (R8, R65): shared by IRQ and BRK. -/
def vecIrq : Word := 0xFFFE

/-- `CTRL_NMI_BIT` (R8): the bit of `control` that enables NMI generation. -/
def ctrlNmiBit : Nat := 7

/-- `STATUS_VBLANK_BIT` (R8): the bit of `status` that is the VBlank bit. -/
def statusVblankBit : Nat := 7

/-- `REG_WINDOW` (R8): the number of register ports before the device mirrors. -/
def regWindow : Nat := 8

/-- The geometry literals of the source (R8). -/
def sourceGeometry : Geometry :=
  { cycleMax := 340, scanlineMax := 261, prerender := -1, vblankLine := 241, eventCycle := 1 }

/-- The default mount list of 20_memory.md R60, with a 32 KiB ROM. -/
def defaultMap : List Mount :=
  [⟨0x0000, 0x2000, .ram 2048⟩, ⟨0x2000, 0x4000, .registers⟩, ⟨0x8000, 0x10000, .rom 32768⟩]

/-- The configuration of State.reset: the default map (log 2), and of the other parameters the
spec's values (R8): the page-wrap defect reproduced (40_addressing.md R131), the stack at
`0x0100 + sp`, SP 0xFF at construction and after a reset event, the decode table of R97, and the
source's geometry. -/
def defaultConfig : Config :=
  { map := defaultMap, jmpIndirectPageWrap := true, stackBase := 0x0100, spInit := 0xFF,
    tableChanges := [], geometry := sourceGeometry }

/-- What a byte of a backing reads as while no entry of the memory lists it. DESIGN CHOICE: the
spec leaves RAM at construction and the ROM image open (N20; log 3). -/
def unlistedByte : Byte := 0x00

end Sys2Proof.Machine
end

