-- ==== Sys2Proof/Machine/State.lean ====
section
/-! DEFINITION. The machine's state as plain data, the reasons a step can stop, the state at
construction and the state right after reset (10_state.md R20 to R40). -/

namespace Sys2Proof.Machine

/-- The backing bytes of every RAM and ROM: address and byte pairs in canonical form, addresses
rising and no byte equal to what an unlisted address reads as (Memory.wf). An entry's address is
the lowest bus address of the cell, its mirrors reading the same entry (Mount.key). -/
abbrev Memory := List Host.Cell

/-- The seven flags, each one bit (R27). -/
structure Flags where
  c : Bool
  z : Bool
  i : Bool
  d : Bool
  b : Bool
  v : Bool
  n : Bool
  deriving DecidableEq, Repr

/-- The timing device: its eight registers, the write toggle `w` and the counters (R37). -/
structure Timing where
  control  : Byte
  mask     : Byte
  status   : Byte
  oamaddr  : Byte
  oamdata  : Byte
  scroll   : Word
  address  : Word
  data     : Byte
  w        : Bool
  scanline : Int
  cycle    : Nat
  deriving DecidableEq, Repr

/-- The events presented at one boundary (60_exceptions.md R275). -/
structure Events where
  reset : Bool
  nmi   : Bool
  irq   : Bool
  deriving DecidableEq, Repr

/-- What the driver does next (00_scope.md R5, R6; 70_reset_and_hazards.md R335). -/
inductive DriverAction where
  /-- Step the CPU. -/
  | cpu
  /-- Tick the timing device; `forward` says whether an NMI result is passed on as an NMI event
  at this boundary (R295, R296). -/
  | tick (forward : Bool)
  /-- Present events at this boundary (R269, R275). -/
  | present (e : Events)
  /-- Inject a start address (R320). -/
  | inject (start : Word)
  deriving DecidableEq, Repr

/-- The whole machine. `cfg` is fixed at build time and no step writes it (R39). `driver` is what
the driver does before the CPU is next stepped of itself, oldest first (log 7); `started` says
that a reset event or an injection has happened (R320; log 8); `draws` counts the unspecified
bytes drawn (R287; log 6). -/
structure State where
  cfg     : Config
  a       : Byte
  x       : Byte
  y       : Byte
  sp      : Byte
  pc      : Word
  flags   : Flags
  mem     : Memory
  dev     : Timing
  driver  : List DriverAction
  started : Bool
  draws   : Nat
  deriving DecidableEq, Repr

/-- The fatal faults of a running machine (60_exceptions.md R260). Each ends the run; a model
claims nothing of the state behind it (R72, R266), so none is carried: safe (log 9). -/
inductive Fault where
  /-- Raised by the bus for a read, write or slice at an address no mount covers (R58, R261).
  Safe: the hardware stops too. -/
  | outOfRangeAccess (a : Word)
  /-- Raised by the register file for a write to the status port (R262, R291); it carries the
  bus address. Safe: the hardware stops too. -/
  | illegalStatusWrite (a : Word)
  /-- Raised by instruction fetch when the slice at the pc is empty or too short (R96, R263).
  Safe: the hardware stops too. -/
  | addressSpaceExhaustion (pc : Word)
  deriving DecidableEq, Repr

/-- Why the model gives a step no meaning. -/
inductive Refusal where
  /-- Raised by exec's arm of an instruction that has no meaning yet. Safe. No arm answers it. -/
  | notModelled (mnemonic : String)
  /-- Raised by a CPU step before any reset event or start-address injection (R320, U15: a model
  refuses it). Safe. -/
  | notStarted
  /-- Raised by a term that is no instruction: a load, store or jump through a reference that R134
  says "never occurs". No well-formed instruction raises it. Safe (log 12). -/
  | noSuchOperandForm
  deriving DecidableEq, Repr

/-- Why an operation inside a step stops it. -/
inductive Stop where
  | fault (f : Fault)
  | refusal (r : Refusal)
  deriving DecidableEq, Repr

/-- The result of an operation inside a step. -/
abbrev Result (α : Type) := Except Stop α

/-- The timing device as built: every register 0, the toggle 0, the counters (0, 0) (R285). -/
def Timing.constructed : Timing :=
  { control := 0, mask := 0, status := 0, oamaddr := 0, oamdata := 0, scroll := 0, address := 0,
    data := 0, w := false, scanline := 0, cycle := 0 }

/-- The machine as built (R40, R320): SP is `SP_INIT`, the timing device as R285, and everything the
spec leaves unspecified an argument: `INIT_A`, `INIT_X`, `INIT_Y`, `INIT_P`, `INIT_PC`, the bytes
of RAM and the loader's ROM. No CPU step has a meaning yet. -/
def State.constructed (cfg : Config) (mem : Memory) (a x y : Byte) (p : Flags) (pc : Word) :
    State :=
  { cfg := cfg, a := a, x := x, y := y, sp := cfg.spInit, pc := pc, flags := p, mem := mem,
    dev := Timing.constructed, driver := [], started := false, draws := 0 }

/-- The flags after a reset event: I is 1, all others 0 (R270). -/
def resetFlags : Flags :=
  { c := false, z := false, i := true, d := false, b := false, v := false, n := false }

/-- The machine right after a reset event on a machine just built (R40, R270), in the default map
with nothing in memory. A, X and Y are DESIGN CHOICE 0 (log 4); the pc is what the reset vector
reads as in that memory (log 5). -/
def State.reset : State :=
  { cfg := defaultConfig, a := 0, x := 0, y := 0, sp := defaultConfig.spInit, pc := 0x0000,
    flags := resetFlags, mem := [], dev := Timing.constructed, driver := [], started := true, draws := 0 }

end Sys2Proof.Machine
end

