-- ==== Sys2Proof/Machine/Memory.lean ====
section
/-! DEFINITION. The backing bytes as a list in canonical form: reading, writing, and the form
itself. Every change of memory in the machine goes through `Memory.set`. -/

namespace Sys2Proof.Machine

/-- The byte at key `a`: its entry's, or `unlistedByte`. -/
def Memory.get : Memory → Nat → Byte
  | [], _ => unlistedByte
  | (k, v) :: rest, a => if k = a then v else Memory.get rest a

/-- Writes `v` at key `a`, keeping the canonical form: writing `unlistedByte` removes the entry. -/
def Memory.set : Memory → Nat → Byte → Memory
  | [], a, v => if v = unlistedByte then [] else [(a, v)]
  | (k, w) :: rest, a, v =>
    if k < a then (k, w) :: Memory.set rest a v
    else
      let tail := if k = a then rest else (k, w) :: rest
      if v = unlistedByte then tail else (a, v) :: tail

/-- The canonical form: addresses strictly rising, and no entry that an unlisted address would
read as anyway. Equal memories are then equal lists. -/
abbrev Memory.wf (m : Memory) : Prop :=
  m.Pairwise (fun p q => p.1 < q.1) ∧ ∀ p ∈ m, p.2 ≠ unlistedByte

end Sys2Proof.Machine
end

