-- ==== Sys2Proof/Machine/TimingDevice.lean ====
section
/-! DEFINITION. The timing device: its ports as the bus sees them (60_exceptions.md R286 to R291,
R299) and its tick (R292 to R294). -/

namespace Sys2Proof.Machine

/-- The eight ports (R286). -/
inductive Port where
  | control | mask | status | oamaddr | oamdata | scroll | address | data
  deriving DecidableEq, Repr

/-- The port that answers a device offset: `off mod 8`, in the order of R286 (R299). -/
def portAt (off : Nat) : Port :=
  match off % regWindow with
  | 0 => .control
  | 1 => .mask
  | 2 => .status
  | 3 => .oamaddr
  | 4 => .oamdata
  | 5 => .scroll
  | 6 => .address
  | _ => .data

/-- The register behind a port, the 8-bit ones widened to 16 bits (R286). -/
def Timing.register (t : Timing) : Port → Word
  | .control => zext16 t.control
  | .mask => zext16 t.mask
  | .status => zext16 t.status
  | .oamaddr => zext16 t.oamaddr
  | .oamdata => zext16 t.oamdata
  | .scroll => t.scroll
  | .address => t.address
  | .data => zext16 t.data

/-- The device after a read of a port: a status read resets the write toggle and changes nothing
else (R290); a read of any other port changes nothing (R287). -/
def Timing.afterRead (t : Timing) : Port → Timing
  | .status => { t with w := false }
  | _ => t

/-- The half of a 16-bit register a two-phase write fills (R289): high when `w` is 0. -/
def twoPhase (w : Bool) (r : Word) (v : Byte) : Word :=
  if w then mkWord (hiByte r) v else mkWord v (loByte r)

/-- The device after a write of `v` to a port (R288, R289). A write to status never arrives here:
the bus faults first (R291). -/
def Timing.afterWrite (t : Timing) (v : Byte) : Port → Timing
  | .control => { t with control := v }
  | .mask => { t with mask := v }
  | .status => t
  | .oamaddr => { t with oamaddr := v }
  | .oamdata => { t with oamdata := v }
  | .scroll => { t with scroll := twoPhase t.w t.scroll v, w := !t.w }
  | .address => { t with address := twoPhase t.w t.address v, w := !t.w }
  | .data => { t with data := v }

/-- What a tick returns (R292). -/
inductive TickResult where
  | normal | nmi
  deriving DecidableEq, Repr

/-- The VBlank bit as a mask of `status`. -/
def vblankMask : Byte := 1 <<< statusVblankBit

/-- Whether `control` enables NMI generation (R286, R294). -/
def Timing.nmiEnabled (t : Timing) : Bool := t.control.getLsbD ctrlNmiBit

/-- The counters after a tick: the cycle counts up to its limit, then the scanline moves on, from
its maximum to the pre-render value (R292). -/
def Timing.advance (g : Geometry) (t : Timing) : Timing :=
  if t.cycle + 1 > g.cycleMax then
    { t with cycle := 0, scanline := if t.scanline = g.scanlineMax then g.prerender
                                     else t.scanline + 1 }
  else { t with cycle := t.cycle + 1 }

/-- One tick (R292): the counters advance, and the two events are evaluated on the new values:
VBlank cleared on the pre-render line (R293), set on the VBlank line, where an enabled device
returns `NMI` (R294). -/
def Timing.tick (g : Geometry) (t : Timing) : Timing × TickResult :=
  let t := t.advance g
  let t :=
    if t.scanline = g.prerender ∧ t.cycle = g.eventCycle then
      { t with status := t.status &&& ~~~vblankMask }
    else t
  if t.scanline = g.vblankLine ∧ t.cycle = g.eventCycle then
    ({ t with status := t.status ||| vblankMask }, if t.nmiEnabled then .nmi else .normal)
  else (t, .normal)

end Sys2Proof.Machine
end

