-- ==== Sys2Proof/Machine/Ops.lean ====
section
/-! DEFINITION. The named operations over registers, the bus and the stack, and on top of them
taking an interrupt, returning from one, and the reset event. -/

namespace Sys2Proof.Machine

/-! ### Register and field updates -/

/-- `A <- v` (R21). -/
def State.setA (s : State) (v : Byte) : State := { s with a := v }

/-- `X <- v` (R22). -/
def State.setX (s : State) (v : Byte) : State := { s with x := v }

/-- `Y <- v` (R22). -/
def State.setY (s : State) (v : Byte) : State := { s with y := v }

/-- `SP <- v` (R23). -/
def State.setSP (s : State) (v : Byte) : State := { s with sp := v }

/-- `PC <- v` (R24). -/
def State.setPC (s : State) (v : Word) : State := { s with pc := v }

/-- Replaces the flags (R27). -/
def State.setFlags (s : State) (f : Flags) : State := { s with flags := f }

/-- Replaces the backing bytes. -/
def State.setMem (s : State) (m : Memory) : State := { s with mem := m }

/-- Replaces the timing device. -/
def State.setDev (s : State) (t : Timing) : State := { s with dev := t }

/-- Replaces the driver's coming actions. -/
def State.setDriver (s : State) (d : List DriverAction) : State := { s with driver := d }

/-- Counts one more unspecified byte drawn (log 6). -/
def State.drawn (s : State) : State := { s with draws := s.draws + 1 }

/-- A reset event or an injection has happened (R320). -/
def State.start (s : State) : State := { s with started := true }

/-- `PC <- PC +16 n` (R25, R26). -/
def State.advance (s : State) (n : Nat) : State := s.setPC (s.pc + BitVec.ofNat 16 n)

/-! ### The bus: lookup and translation (20_memory.md R52 to R54, R59 to R61) -/

/-- The mount covers the address (R52: the range is half-open). -/
def Mount.covers (m : Mount) (a : Word) : Bool := m.start ≤ a.toNat && a.toNat < m.stop

/-- `Lookup(a)` (R53). -/
def lookup (map : List Mount) (a : Word) : Option Mount := map.find? (·.covers a)

/-- The memory key of byte `off` of a mount's backing: the bus address at which it is seen first.
A backing byte past the mount's window has no bus address; it gets a key above them all
(log 10). DESIGN CHOICE: the key depends on the mount, so each memory mount has a backing of its own
and no two share one (log 24). -/
def Mount.key (m : Mount) (off : Nat) : Nat :=
  if off < m.stop - m.start then m.start + off else 0x10000 * off + m.start

/-- What the bus reaches at a mounted address. -/
inductive Target where
  /-- A RAM byte. -/
  | ram (key : Nat)
  /-- A ROM byte. -/
  | rom (key : Nat)
  /-- A port of the timing device. -/
  | port (p : Port)
  deriving DecidableEq, Repr

/-- What a mount's device answers with at address `a`: the offset is `a − start` (R54), RAM and
ROM reduce it modulo their length (R59, R60), the register file modulo 8 (R61). -/
def Mount.target (m : Mount) (a : Word) : Target :=
  match m.dev with
  | .ram n => .ram (m.key ((a.toNat - m.start) % n))
  | .rom n => .rom (m.key ((a.toNat - m.start) % n))
  | .registers => .port (portAt (a.toNat - m.start))

/-- What the bus reaches at address `a`; nothing if no mount covers it (R53, R54). -/
def State.target (s : State) (a : Word) : Option Target :=
  (lookup s.cfg.map a).map (·.target a)

/-- Some mount covers the address. -/
def State.mounted (s : State) (a : Word) : Bool := (s.target a).isSome

/-! ### The bus: read, write, slice (R55 to R58) -/

/-- The byte a bus read of `a` returns: the cell, the status register (R290), or for any other
port an unspecified byte (R287; log 6). -/
def State.valueAt (s : State) (a : Word) : Byte :=
  match s.target a with
  | some (.ram k) | some (.rom k) => Memory.get s.mem k
  | some (.port .status) => s.dev.status
  | some (.port _) => Config.freeByte s.draws
  | none => unlistedByte

/-- The state after a bus read of `a`: a port read acts on the device (R287, R290), and a read of
a port other than status draws its byte. -/
def State.afterRead (s : State) (a : Word) : State :=
  match s.target a with
  | some (.port .status) => s.setDev (s.dev.afterRead .status)
  | some (.port p) => (s.setDev (s.dev.afterRead p)).drawn
  | some (.ram _) | some (.rom _) | none => s

/-- The state after a bus write of `v` to `a` that faults on nothing: a RAM byte or a port is
written, a ROM byte keeps its value (R59, R60, R61). -/
def State.afterWrite (s : State) (a : Word) (v : Byte) : State :=
  match s.target a with
  | some (.ram k) => s.setMem (Memory.set s.mem k v)
  | some (.port p) => s.setDev (s.dev.afterWrite v p)
  | some (.rom _) | none => s

/-- `MemRead(a, 1)` (R55). -/
def busRead (a : Word) (s : State) : Result (Byte × State) :=
  if s.mounted a then .ok (s.valueAt a, s.afterRead a)
  else .error (.fault (.outOfRangeAccess a))

/-- `MemWrite(a, 1, v)` (R56, R291). The byte the device returns is discarded (log 17). -/
def busWrite (a : Word) (v : Byte) (s : State) : Result State :=
  if s.mounted a then
    if s.target a = some (.port .status) then .error (.fault (.illegalStatusWrite a))
    else .ok (s.afterWrite a v)
  else .error (.fault (.outOfRangeAccess a))

/-- The first `k` bytes of `slice(off)` of a device (R59, R60, R61, R300): the rest of the backing
from the reduced offset, and nothing for the register file. -/
def Mount.slice (m : Mount) (mem : Memory) (off k : Nat) : List Byte :=
  match m.dev with
  | .ram n | .rom n =>
    (List.range (min k (n - off % n))).map fun j => Memory.get mem (m.key (off % n + j))
  | .registers => []

/-- The first `k` bytes of `Slice(a)` (R57). It has no side effect. -/
def busSlice (a : Word) (k : Nat) (s : State) : Result (List Byte) :=
  match lookup s.cfg.map a with
  | none => .error (.fault (.outOfRangeAccess a))
  | some m => .ok (m.slice s.mem (a.toNat - m.start) k)

/-! ### The stack (10_state.md R23, R32, R33) -/

/-- The stack cell SP designates: `0x0100 + zext_16(SP)` (R23), the base being `STACK_BASE` (R8). -/
def Config.stackAddr (c : Config) (sp : Byte) : Word := c.stackBase + zext16 sp

/-- `Push(v)` (R32). -/
def push (v : Byte) (s : State) : Result State := do
  let s ← busWrite (s.cfg.stackAddr s.sp) v s
  .ok (s.setSP (s.sp - 1))

/-- `Pull()` (R33). -/
def pull (s : State) : Result (Byte × State) :=
  let s := s.setSP (s.sp + 1)
  busRead (s.cfg.stackAddr s.sp) s

/-- Two pushes, high byte first (20_memory.md R62). -/
def pushWord (w : Word) (s : State) : Result State := do
  let s ← push (hiByte w) s
  push (loByte w) s

/-- Two pulls, low byte first. -/
def pullWord (s : State) : Result (Word × State) := do
  let (lo, s) ← pull s
  let (hi, s) ← pull s
  .ok (mkWord hi lo, s)

/-- Two bus reads, the byte at `lo` and then the byte at `hi`, as a 16-bit value: a vector or a
pointer (R62, 40_addressing.md R131 to R133). -/
def readPair (lo hi : Word) (s : State) : Result (Word × State) := do
  let (l, s) ← busRead lo s
  let (h, s) ← busRead hi s
  .ok (mkWord h l, s)

/-! ### The flag byte (R31) -/

/-- `FlagByte(b)`: `{N, V, 1, b, D, I, Z, C}` (R31). -/
def Flags.toByte (f : Flags) (b : Bool) : Byte :=
  bitByte f.n <<< 7 ||| bitByte f.v <<< 6 ||| 0x20 ||| bitByte b <<< 4 ||| bitByte f.d <<< 3 |||
    bitByte f.i <<< 2 ||| bitByte f.z <<< 1 ||| bitByte f.c

/-- Loads the six flags from a pulled byte; bits 5 and 4 are ignored and B stays (R31). -/
def Flags.load (f : Flags) (p : Byte) : Flags :=
  { c := p.getLsbD 0, z := p.getLsbD 1, i := p.getLsbD 2, d := p.getLsbD 3, b := f.b,
    v := p.getLsbD 6, n := p.getLsbD 7 }

/-- The processor status as a debugger displays it, `FlagByte(B)` (R35): the one place the stored
B shows (R34). -/
def Flags.display (f : Flags) : Byte := f.toByte f.b

/-! ### Taking an interrupt, returning from one, reset (60_exceptions.md R270, R271, R277) -/

/-- `Enter(vec, b)` (R271), the one entry sequence of NMI, IRQ and BRK: push the pc, high byte
first, push the flag byte, set I, and go where the vector points. -/
def enter (vec : Word) (b : Bool) (s : State) : Result State := do
  let s ← pushWord s.pc s
  let s ← push (s.flags.toByte b) s
  let s := s.setFlags { s.flags with i := true }
  let (target, s) ← readPair vec (vec + 1) s
  .ok (s.setPC target)

/-- The return from an entry (R277, 46_system.md R241): the flags, then the pc, low byte first,
with no adjustment. -/
def leave (s : State) : Result State := do
  let (p, s) ← pull s
  let s := s.setFlags (s.flags.load p)
  let (target, s) ← pullWord s
  .ok (s.setPC target)

/-- The reset event (R270). A, X, Y, memory and the timing device are untouched. -/
def resetEvent (s : State) : Result State := do
  let s := (s.setSP s.cfg.spInit).setFlags resetFlags
  let (target, s) ← readPair vecReset (vecReset + 1) s
  .ok (s.setPC target).start

/-- The outcome of a step whose operations end in `r`. -/
def finish (r : Result State) : Host.Outcome State Fault Refusal :=
  match r with
  | .ok s => .next s
  | .error (.fault f) => .fault f
  | .error (.refusal r) => .refused r

end Sys2Proof.Machine
end

