-- ==== Sys2Proof/Machine/Flags.lean ====
section
/-! DEFINITION. Every flag computation and the arithmetic behind it: 10_state.md R29,
42_arithmetic_logic.md R160 to R171, 43_shift_rotate.md R190 to R193. Sums are exact over the
naturals or integers and then reduced. -/

namespace Sys2Proof.Machine

/-- `SetZN(v)` (R29). -/
def Flags.setZN (f : Flags) (v : Byte) : Flags := { f with z := v == 0, n := v.getLsbD 7 }

/-- SetZN on the machine's flags. -/
def State.setZN (s : State) (v : Byte) : State := s.setFlags (s.flags.setZN v)

/-- What an addition or subtraction gives: the byte, C and V. -/
structure Sum where
  r : Byte
  c : Bool
  v : Bool
  deriving DecidableEq, Repr

/-- `A + M + C` over the integers (R161). -/
def binarySum (a m : Byte) (c : Bool) : Nat := a.toNat + m.toNat + c.toNat

/-- `DecAdd(a, m, c)` (R162): per-nibble correction, low digit first, and the decimal carry. -/
def decAdd (a m : Byte) (c : Bool) : Byte × Bool :=
  let al := a.toNat % 16 + m.toNat % 16 + c.toNat
  let al := if al ≥ 0x0A then (al + 0x06) % 16 + 0x10 else al
  let t := a.toNat / 16 * 16 + m.toNat / 16 * 16 + al
  let t := if t ≥ 0xA0 then t + 0x60 else t
  (BitVec.ofNat 8 t, t ≥ 0x100)

/-- The addition of ADC (R161): V always from the binary sum, the byte and C from it or, with D
set, from DecAdd. -/
def addWith (d : Bool) (a m : Byte) (c : Bool) : Sum :=
  let sum := binarySum a m c
  let v := a.getLsbD 7 == m.getLsbD 7 && a.getLsbD 7 != sum.testBit 7
  if d then
    let (r, c') := decAdd a m c
    { r := r, c := c', v := v }
  else { r := BitVec.ofNat 8 sum, c := sum.testBit 8, v := v }

/-- `DecSub(a, m, c)` (R164); `%` on Int is the non-negative remainder. -/
def decSub (a m : Byte) (c : Bool) : Byte :=
  let al : Int := (a.toNat % 16 : Nat) - (m.toNat % 16 : Nat) + (c.toNat : Nat) - 1
  let al := if al < 0 then (al - 0x06) % 16 - 0x10 else al
  let t : Int := (a.toNat / 16 * 16 : Nat) - (m.toNat / 16 * 16 : Nat) + al
  let t := if t < 0 then t - 0x60 else t
  BitVec.ofInt 8 t

/-- `A + (M xor 0xFF) + C` over the integers (R163): bit 8 is 1 iff there is no borrow. -/
def binaryDiff (a m : Byte) (c : Bool) : Nat := a.toNat + (m ^^^ 0xFF).toNat + c.toNat

/-- The subtraction of SBC (R163): C and V always from the binary difference, the byte from it or,
with D set, from DecSub. -/
def subWith (d : Bool) (a m : Byte) (c : Bool) : Sum :=
  let diff := binaryDiff a m c
  { r := if d then decSub a m c else BitVec.ofNat 8 diff
    c := diff.testBit 8
    v := a.getLsbD 7 != m.getLsbD 7 && a.getLsbD 7 != diff.testBit 7 }

/-- The flags after ADC or SBC gave `r` (R161, R163): C and V from the sum, Z and N from its
byte. -/
def Flags.afterSum (f : Flags) (r : Sum) : Flags := { f with c := r.c, v := r.v }.setZN r.r

/-- The flags after comparing `r` with `m` (R168): C iff `r ≥ m` unsigned, Z and N from the 8-bit
difference. -/
def Flags.afterCompare (f : Flags) (r m : Byte) : Flags :=
  { f with c := m.toNat ≤ r.toNat }.setZN (r - m)

/-- The flags after BIT (R171): Z from `A and M`, N and V from M. -/
def Flags.afterBit (f : Flags) (a m : Byte) : Flags :=
  { f with z := a &&& m == 0, n := m.getLsbD 7, v := m.getLsbD 6 }

/-- `{v[6:0], c}`: a shift left by one with `c` entering (R190, R192). -/
def shiftLeft (v : Byte) (c : Bool) : Byte := v <<< 1 ||| bitByte c

/-- `{c, v[7:1]}`: a shift right by one with `c` entering (R191, R193). -/
def shiftRight (v : Byte) (c : Bool) : Byte := v >>> 1 ||| bitByte c <<< 7

/-- The flags after a shift gave `r` and moved `c` out (R190 to R193). -/
def Flags.afterShift (f : Flags) (c : Bool) (r : Byte) : Flags := { f with c := c }.setZN r

end Sys2Proof.Machine
end

