-- ==== Sys2Proof/Machine/Operands.lean ====
section
/-! DEFINITION. The addressing-mode resolver: every operand form of 40_addressing.md, and loading
and storing through the reference it gives (R120 to R136). -/

namespace Sys2Proof.Machine

/-- What a mode resolves to (R120). -/
inductive Ref where
  | none
  | reg (r : Reg)
  | imm (v : Byte)
  | mem (ea : Word)
  deriving DecidableEq, Repr

/-- A zero-page address (R94, R124): never above 0x00FF. -/
def zeroPageAddr (zp : Byte) : Word := zext16 zp

/-- The target of a relative branch: the post-advance pc plus the signed offset (R130). -/
def relativeTarget (pc : Word) (off : Byte) : Word := pc + sext16 off

/-- The address of an indirect pointer's high byte (R131): the page-wrap defect reproduced, or the
next address, as the configuration says. -/
def indirectHigh (wrap : Bool) (ptr : Word) : Word :=
  if wrap then mkWord (hiByte ptr) (loByte ptr + 1) else ptr + 1

/-- The two cells of the pointer a mode goes through, low byte's first; nothing for a mode that
reads no pointer (R131, R132, R133). A zero-page pointer wraps within the zero page. -/
def pointerCells (m : Mode) (s : State) : Option (Word × Word) :=
  match m with
  | .indirect ptr => some (ptr, indirectHigh s.cfg.jmpIndirectPageWrap ptr)
  | .indexedIndirect zp => some (zeroPageAddr (zp + s.x), zeroPageAddr (zp + s.x + 1))
  | .indirectIndexed zp => some (zeroPageAddr zp, zeroPageAddr (zp + 1))
  | .implicit | .register _ | .immediate _ | .relative _ => none
  | .zeroPage _ | .zeroPageX _ | .zeroPageY _ => none
  | .absolute _ | .absoluteX _ | .absoluteY _ => none

/-- The reference of a mode, given the value of its pointer where it goes through one: R121 to
R130 for the modes that do not, R131 to R133 for those that do (only `(zp),Y` adds to the
pointer's value). -/
def refFor (m : Mode) (s : State) (pointer : Word) : Ref :=
  match m with
  | .implicit => .none
  | .register r => .reg r
  | .immediate v => .imm v
  | .zeroPage zp => .mem (zeroPageAddr zp)
  | .zeroPageX zp => .mem (zeroPageAddr (zp + s.x))
  | .zeroPageY zp => .mem (zeroPageAddr (zp + s.y))
  | .absolute addr => .mem addr
  | .absoluteX addr => .mem (addr + zext16 s.x)
  | .absoluteY addr => .mem (addr + zext16 s.y)
  | .relative off => .mem (relativeTarget s.pc off)
  | .indirect _ => .mem pointer
  | .indexedIndirect _ => .mem pointer
  | .indirectIndexed _ => .mem (pointer + zext16 s.y)

/-- `Resolve(mode, b1, b2)` (R120), after the pc has been advanced: the pointer's two bytes are
read, low then high, and no operand value is (R135). -/
def resolve (m : Mode) (s : State) : Result (Ref × State) :=
  match pointerCells m s with
  | none => .ok (refFor m s 0, s)
  | some (lo, hi) => do
    let (pointer, s) ← readPair lo hi s
    .ok (refFor m s pointer, s)

/-- The value of a register. -/
def State.reg (s : State) : Reg → Byte
  | .a => s.a
  | .x => s.x
  | .y => s.y
  | .sp => s.sp

/-- Writes a register. -/
def State.setReg (s : State) (r : Reg) (v : Byte) : State :=
  match r with
  | .a => s.setA v
  | .x => s.setX v
  | .y => s.setY v
  | .sp => s.setSP v

/-- `Load(ref)` (R134). -/
def load (r : Ref) (s : State) : Result (Byte × State) :=
  match r with
  | .imm v => .ok (v, s)
  | .reg r => .ok (s.reg r, s)
  | .mem ea => busRead ea s
  | .none => .error (.refusal .noSuchOperandForm)

/-- `Store(ref, v)` (R134). -/
def store (r : Ref) (v : Byte) (s : State) : Result State :=
  match r with
  | .reg r => .ok (s.setReg r v)
  | .mem ea => busWrite ea v s
  | .imm _ | .none => .error (.refusal .noSuchOperandForm)

/-- Resolves a mode and loads through it once (R135). -/
def loadOperand (m : Mode) (s : State) : Result (Byte × State) := do
  let (r, s) ← resolve m s
  load r s

/-- Resolves a mode and stores `v` through it; the target is not read (R135). -/
def storeOperand (m : Mode) (v : Byte) (s : State) : Result State := do
  let (r, s) ← resolve m s
  store r v s

/-- Resolves a mode once, loads through it once and stores `f` of the value through the same
reference once (R64, R134); the flags become `g` of the value loaded. -/
def modifyOperand (m : Mode) (f : Byte → Byte) (g : Byte → Flags → Flags) (s : State) :
    Result State := do
  let (r, s) ← resolve m s
  let (v, s) ← load r s
  let s ← store r (f v) s
  .ok (s.setFlags (g v s.flags))

end Sys2Proof.Machine
end

