-- ==== Sys2Proof/Machine/Arithmetic.lean ====
section
/-! DEFINITION. The meanings of the arithmetic, logic, compare, bit test, increment and decrement
instructions (42_arithmetic_logic.md R160 to R178). -/

namespace Sys2Proof.Machine

/-- ADC (R161, R162): `A + M + C`, decimal when D is set; C, V, Z, N. -/
def execAdc (m : Mode) (s : State) : Host.Outcome State Fault Refusal := finish do
  let (v, s) ← loadOperand m s
  let sum := addWith s.flags.d s.a v s.flags.c
  .ok ((s.setA sum.r).setFlags (s.flags.afterSum sum))

/-- SBC (R163, R164): `A − M − (1 − C)`, decimal when D is set; C, V, Z, N. -/
def execSbc (m : Mode) (s : State) : Host.Outcome State Fault Refusal := finish do
  let (v, s) ← loadOperand m s
  let sum := subWith s.flags.d s.a v s.flags.c
  .ok ((s.setA sum.r).setFlags (s.flags.afterSum sum))

/-- AND (R165): `A <- A and Load(ref); SetZN(A)`. -/
def execAnd (m : Mode) (s : State) : Host.Outcome State Fault Refusal := finish do
  let (v, s) ← loadOperand m s
  .ok ((s.setA (s.a &&& v)).setZN (s.a &&& v))

/-- ORA (R166): `A <- A or Load(ref); SetZN(A)`. -/
def execOra (m : Mode) (s : State) : Host.Outcome State Fault Refusal := finish do
  let (v, s) ← loadOperand m s
  .ok ((s.setA (s.a ||| v)).setZN (s.a ||| v))

/-- EOR (R167): `A <- A xor Load(ref); SetZN(A)`. -/
def execEor (m : Mode) (s : State) : Host.Outcome State Fault Refusal := finish do
  let (v, s) ← loadOperand m s
  .ok ((s.setA (s.a ^^^ v)).setZN (s.a ^^^ v))

/-- CMP (R168): compares A with M; C, Z, N; ignores the incoming C and D. -/
def execCmp (m : Mode) (s : State) : Host.Outcome State Fault Refusal := finish do
  let (v, s) ← loadOperand m s
  .ok (s.setFlags (s.flags.afterCompare s.a v))

/-- CPX (R169): compares X with M. -/
def execCpx (m : Mode) (s : State) : Host.Outcome State Fault Refusal := finish do
  let (v, s) ← loadOperand m s
  .ok (s.setFlags (s.flags.afterCompare s.x v))

/-- CPY (R170): compares Y with M. -/
def execCpy (m : Mode) (s : State) : Host.Outcome State Fault Refusal := finish do
  let (v, s) ← loadOperand m s
  .ok (s.setFlags (s.flags.afterCompare s.y v))

/-- BIT (R171): Z from `A and M`, N from `M[7]`, V from `M[6]`. -/
def execBit (m : Mode) (s : State) : Host.Outcome State Fault Refusal := finish do
  let (v, s) ← loadOperand m s
  .ok (s.setFlags (s.flags.afterBit s.a v))

/-- INC (R172): one load, one store of `M + 1`, SetZN of it. -/
def execInc (m : Mode) (s : State) : Host.Outcome State Fault Refusal :=
  finish (modifyOperand m (· + 1) (fun v f => f.setZN (v + 1)) s)

/-- DEC (R173): one load, one store of `M − 1`, SetZN of it. -/
def execDec (m : Mode) (s : State) : Host.Outcome State Fault Refusal :=
  finish (modifyOperand m (· - 1) (fun v f => f.setZN (v - 1)) s)

/-- INX (R174): `X <- X + 1; SetZN(X)`. -/
def execInx (s : State) : Host.Outcome State Fault Refusal :=
  .next ((s.setX (s.x + 1)).setZN (s.x + 1))

/-- INY (R175): `Y <- Y + 1; SetZN(Y)`. -/
def execIny (s : State) : Host.Outcome State Fault Refusal :=
  .next ((s.setY (s.y + 1)).setZN (s.y + 1))

/-- DEX (R176): `X <- X − 1; SetZN(X)`. -/
def execDex (s : State) : Host.Outcome State Fault Refusal :=
  .next ((s.setX (s.x - 1)).setZN (s.x - 1))

/-- DEY (R177): `Y <- Y − 1; SetZN(Y)`. -/
def execDey (s : State) : Host.Outcome State Fault Refusal :=
  .next ((s.setY (s.y - 1)).setZN (s.y - 1))

end Sys2Proof.Machine
end

