-- ==== Sys2Proof/Machine/Control.lean ====
section
/-! DEFINITION. The meanings of jumps, subroutine call and return, and the conditional branches
(44_control_flow.md R200 to R211). -/

namespace Sys2Proof.Machine

/-- JMP (R201): `PC <- ea`; the target is not read. -/
def execJmp (m : Mode) (s : State) : Host.Outcome State Fault Refusal := finish do
  let (r, s) ← resolve m s
  match r with
  | .mem ea => .ok (s.setPC ea)
  | .none | .reg _ | .imm _ => .error (.refusal .noSuchOperandForm)

/-- JSR (R202): pushes `PC_next − 1`, high byte first, and jumps. -/
def execJsr (target : Word) (s : State) : Host.Outcome State Fault Refusal := finish do
  let s ← pushWord (s.pc - 1) s
  .ok (s.setPC target)

/-- RTS (R203): pulls the low byte, then the high byte, and adds 1. -/
def execRts (s : State) : Host.Outcome State Fault Refusal := finish do
  let (ret, s) ← pullWord s
  .ok (s.setPC (ret + 1))

/-- A conditional branch (R130, R200): to the relative target if the condition holds, else the pc
stays `PC_next`. -/
def branch (taken : Bool) (off : Byte) (s : State) : State :=
  if taken then s.setPC (relativeTarget s.pc off) else s

/-- BCC (R204): taken if C is 0. -/
def execBcc (off : Byte) (s : State) : Host.Outcome State Fault Refusal :=
  .next (branch (!s.flags.c) off s)

/-- BCS (R205): taken if C is 1. -/
def execBcs (off : Byte) (s : State) : Host.Outcome State Fault Refusal :=
  .next (branch s.flags.c off s)

/-- BEQ (R206): taken if Z is 1. -/
def execBeq (off : Byte) (s : State) : Host.Outcome State Fault Refusal :=
  .next (branch s.flags.z off s)

/-- BNE (R207): taken if Z is 0. -/
def execBne (off : Byte) (s : State) : Host.Outcome State Fault Refusal :=
  .next (branch (!s.flags.z) off s)

/-- BMI (R208): taken if N is 1. -/
def execBmi (off : Byte) (s : State) : Host.Outcome State Fault Refusal :=
  .next (branch s.flags.n off s)

/-- BPL (R209): taken if N is 0. -/
def execBpl (off : Byte) (s : State) : Host.Outcome State Fault Refusal :=
  .next (branch (!s.flags.n) off s)

/-- BVC (R210): taken if V is 0. -/
def execBvc (off : Byte) (s : State) : Host.Outcome State Fault Refusal :=
  .next (branch (!s.flags.v) off s)

/-- BVS (R211): taken if V is 1. -/
def execBvs (off : Byte) (s : State) : Host.Outcome State Fault Refusal :=
  .next (branch s.flags.v off s)

end Sys2Proof.Machine
end

