-- ==== Sys2Proof/Machine/LoadStore.lean ====
section
/-! DEFINITION. The meanings of the loads, stores and register transfers
(41_load_store_transfer.md R140 to R151). The pc is already `PC_next` (10_state.md R25). -/

namespace Sys2Proof.Machine

/-- LDA (R140): `A <- Load(ref); SetZN(A)`. -/
def execLda (m : Mode) (s : State) : Host.Outcome State Fault Refusal := finish do
  let (v, s) ← loadOperand m s
  .ok ((s.setA v).setZN v)

/-- LDX (R141): `X <- Load(ref); SetZN(X)`. -/
def execLdx (m : Mode) (s : State) : Host.Outcome State Fault Refusal := finish do
  let (v, s) ← loadOperand m s
  .ok ((s.setX v).setZN v)

/-- LDY (R142): `Y <- Load(ref); SetZN(Y)`. -/
def execLdy (m : Mode) (s : State) : Host.Outcome State Fault Refusal := finish do
  let (v, s) ← loadOperand m s
  .ok ((s.setY v).setZN v)

/-- STA (R143): `Store(ref, A)`. -/
def execSta (m : Mode) (s : State) : Host.Outcome State Fault Refusal :=
  finish (storeOperand m s.a s)

/-- STX (R144): `Store(ref, X)`. -/
def execStx (m : Mode) (s : State) : Host.Outcome State Fault Refusal :=
  finish (storeOperand m s.x s)

/-- STY (R145): `Store(ref, Y)`. -/
def execSty (m : Mode) (s : State) : Host.Outcome State Fault Refusal :=
  finish (storeOperand m s.y s)

/-- TAX (R146): `X <- A; SetZN(X)`. -/
def execTax (s : State) : Host.Outcome State Fault Refusal := .next ((s.setX s.a).setZN s.a)

/-- TAY (R147): `Y <- A; SetZN(Y)`. -/
def execTay (s : State) : Host.Outcome State Fault Refusal := .next ((s.setY s.a).setZN s.a)

/-- TXA (R148): `A <- X; SetZN(A)`. -/
def execTxa (s : State) : Host.Outcome State Fault Refusal := .next ((s.setA s.x).setZN s.x)

/-- TYA (R149): `A <- Y; SetZN(A)`. -/
def execTya (s : State) : Host.Outcome State Fault Refusal := .next ((s.setA s.y).setZN s.y)

/-- TSX (R150): `X <- SP; SetZN(X)`; the stack is not accessed. -/
def execTsx (s : State) : Host.Outcome State Fault Refusal := .next ((s.setX s.sp).setZN s.sp)

/-- TXS (R151): `SP <- X`; no flag is written. -/
def execTxs (s : State) : Host.Outcome State Fault Refusal := .next (s.setSP s.x)

end Sys2Proof.Machine
end

