-- ==== Sys2Proof/Machine/Shift.lean ====
section
/-! DEFINITION. The meanings of the shifts and rotates, on the accumulator or on memory
(43_shift_rotate.md R190 to R193). -/

namespace Sys2Proof.Machine

/-- ASL (R190): bit 7 to C, a 0 enters. -/
def execAsl (m : Mode) (s : State) : Host.Outcome State Fault Refusal :=
  finish (modifyOperand m (shiftLeft · false)
    (fun v f => f.afterShift (v.getLsbD 7) (shiftLeft v false)) s)

/-- LSR (R191): bit 0 to C, a 0 enters. -/
def execLsr (m : Mode) (s : State) : Host.Outcome State Fault Refusal :=
  finish (modifyOperand m (shiftRight · false)
    (fun v f => f.afterShift (v.getLsbD 0) (shiftRight v false)) s)

/-- ROL (R192): bit 7 to C, the old C enters. -/
def execRol (m : Mode) (s : State) : Host.Outcome State Fault Refusal :=
  finish (modifyOperand m (shiftLeft · s.flags.c)
    (fun v f => f.afterShift (v.getLsbD 7) (shiftLeft v s.flags.c)) s)

/-- ROR (R193): bit 0 to C, the old C enters. -/
def execRor (m : Mode) (s : State) : Host.Outcome State Fault Refusal :=
  finish (modifyOperand m (shiftRight · s.flags.c)
    (fun v f => f.afterShift (v.getLsbD 0) (shiftRight v s.flags.c)) s)

end Sys2Proof.Machine
end

