-- ==== Sys2Proof/Machine/StackFlags.lean ====
section
/-! DEFINITION. The meanings of stack push and pull and of flag set and clear
(45_stack_flags.md R220 to R230). -/

namespace Sys2Proof.Machine

/-- PHA (R220): `Push(A)`. -/
def execPha (s : State) : Host.Outcome State Fault Refusal := finish (push s.a s)

/-- PHP (R221): `Push(FlagByte(1))`; the stored B is not read. -/
def execPhp (s : State) : Host.Outcome State Fault Refusal := finish (push (s.flags.toByte true) s)

/-- PLA (R222): `A <- Pull(); SetZN(A)`. -/
def execPla (s : State) : Host.Outcome State Fault Refusal := finish do
  let (v, s) ← pull s
  .ok ((s.setA v).setZN v)

/-- PLP (R223): the six flags from the pulled byte; B unchanged. -/
def execPlp (s : State) : Host.Outcome State Fault Refusal := finish do
  let (p, s) ← pull s
  .ok (s.setFlags (s.flags.load p))

/-- CLC (R224): `C <- 0`. -/
def execClc (s : State) : Host.Outcome State Fault Refusal :=
  .next (s.setFlags { s.flags with c := false })

/-- SEC (R225): `C <- 1`. -/
def execSec (s : State) : Host.Outcome State Fault Refusal :=
  .next (s.setFlags { s.flags with c := true })

/-- CLI (R226): `I <- 0`. -/
def execCli (s : State) : Host.Outcome State Fault Refusal :=
  .next (s.setFlags { s.flags with i := false })

/-- SEI (R227): `I <- 1`. -/
def execSei (s : State) : Host.Outcome State Fault Refusal :=
  .next (s.setFlags { s.flags with i := true })

/-- CLD (R228): `D <- 0`. -/
def execCld (s : State) : Host.Outcome State Fault Refusal :=
  .next (s.setFlags { s.flags with d := false })

/-- SED (R229): `D <- 1`. -/
def execSed (s : State) : Host.Outcome State Fault Refusal :=
  .next (s.setFlags { s.flags with d := true })

/-- CLV (R230): `V <- 0`. -/
def execClv (s : State) : Host.Outcome State Fault Refusal :=
  .next (s.setFlags { s.flags with v := false })

end Sys2Proof.Machine
end

