-- ==== Sys2Proof/Machine/System.lean ====
section
/-! DEFINITION. The meanings of BRK, RTI, NOP and the unmapped byte (46_system.md R240 to
R243). -/

namespace Sys2Proof.Machine

/-- BRK (R240, R274): `B <- 1; Enter(0xFFFE, 1)`. The pc pushed is `PC_next`, the address of the
BRK byte plus one. -/
def execBrk (s : State) : Host.Outcome State Fault Refusal :=
  finish (enter vecIrq true (s.setFlags { s.flags with b := true }))

/-- RTI (R241): the flags, then the pc, with no adjustment. -/
def execRti (s : State) : Host.Outcome State Fault Refusal := finish (leave s)

/-- NOP (R242): nothing; the pc has been advanced. -/
def execNop (s : State) : Host.Outcome State Fault Refusal := .next s

/-- An unmapped byte (R243): nothing; the pc has been advanced by 1, whatever the byte. -/
def execUnmapped (_op : Byte) (s : State) : Host.Outcome State Fault Refusal := .next s

end Sys2Proof.Machine
end

