-- ==== Sys2Proof/Machine/Undocumented.lean ====
section
/-! DEFINITION. The meanings of the three undocumented instructions (47_unofficial.md R250 to
R252). -/

namespace Sys2Proof.Machine

/-- LAX (R250): `v <- Load(ref); A <- v; X <- v; SetZN(v)`; the old X forms the pointer. -/
def execLax (m : Mode) (s : State) : Host.Outcome State Fault Refusal := finish do
  let (v, s) ← loadOperand m s
  .ok (((s.setA v).setX v).setZN v)

/-- SAX (R251): `Store(ref, A and X)`; no flag is written. -/
def execSax (m : Mode) (s : State) : Host.Outcome State Fault Refusal :=
  finish (storeOperand m (s.a &&& s.x) s)

/-- AXS (R252): compares `A and X` with the immediate and leaves the difference in X; the incoming C
and D are ignored. -/
def execAxs (imm : Byte) (s : State) : Host.Outcome State Fault Refusal :=
  .next ((s.setX ((s.a &&& s.x) - imm)).setFlags (s.flags.afterCompare (s.a &&& s.x) imm))

end Sys2Proof.Machine
end

