-- ==== Sys2Proof/Machine/Driver.lean ====
section
/-! DEFINITION. What the driver does to the machine between CPU steps (00_scope.md R5, R6;
60_exceptions.md R268 to R275, R292 to R296; 70_reset_and_hazards.md R320, R335), and building
the mount list (20_memory.md R52; 60_exceptions.md R264). -/

namespace Sys2Proof.Machine

/-- The NMI event (R272): never suppressed. -/
def nmiEvent (s : State) : Result State := enter vecNmi false s

/-- The IRQ event (R273): entered if I is 0, and otherwise without any effect or trace (R269). -/
def irqEvent (s : State) : Result State :=
  if s.flags.i then .ok s else enter vecIrq false s

/-- An event that is presented or not. -/
def onlyIf (presented : Bool) (event : State → Result State) (s : State) : Result State :=
  if presented then event s else .ok s

/-- The events presented at one boundary, in the order reset, NMI, IRQ, each on the state the one
before left (R275). -/
def presentEvents (e : Events) (s : State) : Result State := do
  let s ← onlyIf e.reset resetEvent s
  let s ← onlyIf e.nmi nmiEvent s
  onlyIf e.irq irqEvent s

/-- One tick of the timing device (R292), its NMI result forwarded at this boundary or dropped, as
the driver chooses (R295, R296). -/
def tickDevice (forward : Bool) (s : State) : Result State :=
  let (dev, result) := s.dev.tick s.cfg.geometry
  if forward ∧ result = .nmi then nmiEvent (s.setDev dev) else .ok (s.setDev dev)

/-- Injecting a start address (R320): `PC <- start` and nothing else. -/
def injectStart (start : Word) (s : State) : State := (s.setPC start).start

/-- The two half-open ranges share an address (R52). -/
def Mount.overlaps (m k : Mount) : Bool := m.start < k.stop && k.start < m.stop

/-- The mount can stand in a mount list: its range is not empty and lies in the address space
(R52), and a memory has at least one byte (R59, R60). -/
def Mount.valid (m : Mount) : Bool :=
  m.start < m.stop && m.stop ≤ 0x10000 &&
    match m.dev with
    | .ram n | .rom n => 1 ≤ n
    | .registers => true

/-- The source's `register(range, device)` (R52): the mount joins the list, or the configuration is
refused with the offending range, when the mount is not valid or overlaps one already there
(R264; D17). -/
def registerMount (m : Mount) (map : List Mount) : Except BuildError (List Mount) :=
  if m.valid && !map.any m.overlaps then .ok (map ++ [m])
  else .error (.configurationError m.start m.stop)

/-- A mount list built by registering its mounts in order (R52). -/
def buildMap : List Mount → List Mount → Except BuildError (List Mount)
  | map, [] => .ok map
  | map, m :: rest => do buildMap (← registerMount m map) rest

end Sys2Proof.Machine
end

