-- ==== Sys2Proof/Machine/Fetch.lean ====
section
/-! DEFINITION. Instruction fetch (30_encoding.md R90, R96), and placing an instruction where the
next fetch finds it. -/

namespace Sys2Proof.Machine

/-- The instruction at the pc (R90): the slice there, decoded by the machine's table. Fetch reads
backing, has no side effect, and leaves the pc; a slice that is empty or too short exhausts the
address space (R96). No instruction is longer than three bytes, so three bytes of the slice are enough
(log 10). -/
def fetch (s : State) : Result Instr := do
  let bytes ← busSlice s.pc 3 s
  match decodeWith s.cfg.tableChanges bytes with
  | .ok i => .ok i
  | .error _ => .error (.fault (.addressSpaceExhaustion s.pc))

/-- Puts bytes into a mount's backing from byte `off` on, as the loader does when the machine is
built; bytes that would run past the backing's end are dropped. -/
def Mount.load (m : Mount) (mem : Memory) (off : Nat) : List Byte → Memory
  | [] => mem
  | v :: rest =>
    match m.dev with
    | .ram n | .rom n =>
      if off < n then Mount.load m (Memory.set mem (m.key off) v) (off + 1) rest else mem
    | .registers => mem

/-- Puts bytes into the backing that the next fetch slices, at the place it slices from. Where the
pc designates no backing byte, nothing changes. -/
def State.placeAtPC (s : State) (bytes : List Byte) : State :=
  match lookup s.cfg.map s.pc with
  | none => s
  | some m =>
    match m.dev with
    | .ram n | .rom n => s.setMem (m.load s.mem ((s.pc.toNat - m.start) % n) bytes)
    | .registers => s

end Sys2Proof.Machine
end

