-- ==== Sys2Proof/Machine/Step.lean ====
section
/-! DEFINITION. One step of the machine: the driver's next action if one is waiting, else one CPU
step (00_scope.md R5; log 7). -/

namespace Sys2Proof.Machine

/-- One CPU step (30_encoding.md R90): fetch, decode, advance the pc, execute. Before any reset
event or injection it has no meaning (70_reset_and_hazards.md R320, U15; log 8). -/
def cpuStep (s : State) : Host.Outcome State Fault Refusal :=
  if s.started then
    match fetch s with
    | .ok i => exec i (s.advance i.length)
    | .error stop => finish (.error stop)
  else .refused .notStarted

/-- What an action of the driver does (R5, R6). -/
def act (a : DriverAction) (s : State) : Host.Outcome State Fault Refusal :=
  match a with
  | .cpu => cpuStep s
  | .tick forward => finish (tickDevice forward s)
  | .present e => finish (presentEvents e s)
  | .inject start => .next (injectStart start s)

/-- One step of the machine. Each is atomic, and events fall only between CPU steps (R5, R269). -/
def step (s : State) : Host.Outcome State Fault Refusal :=
  match s.driver with
  | [] => cpuStep s
  | a :: rest => act a (s.setDriver rest)

/-- The machine with a table word stored where the next fetch slices, no driver action waiting and
the machine started, so that the very next step runs that instruction (log 5). -/
def State.withFetchWord (s : State) (nbits w : Nat) : State :=
  ((s.placeAtPC (tableWordBytes nbits w)).setDriver []).start

end Sys2Proof.Machine
end

