-- ==== Sys2Proof/Machine/Effects.lean ====
section
/-! DEFINITION. What the shared operations do when nothing stops them, as plain functions of the
state, and the conditions on state and operands under which nothing does. Statements about
instructions are written in these words; Laws/ proves that the operations agree with them. -/

namespace Sys2Proof.Machine

/-! ### One byte -/

/-- The RAM or ROM byte a bus address reaches; nothing at a port or an unmounted address. It has no
side effect, unlike a bus read. -/
def State.byteAt (s : State) (a : Word) : Option Byte :=
  match s.target a with
  | some (.ram k) | some (.rom k) => some (Memory.get s.mem k)
  | some (.port _) | none => none

/-- A bus write to the address faults on nothing: it is mounted and not the status port (R56,
R291). -/
def State.writable (s : State) (a : Word) : Bool :=
  s.mounted a && decide (s.target a ≠ some (.port .status))

/-- The address is the status port (R286, R299). -/
def State.isStatus (s : State) (a : Word) : Bool := decide (s.target a = some (.port .status))

/-! ### Which access faults -/

/-- One bus access. -/
inductive Access where
  | read (a : Word)
  | write (a : Word)
  deriving DecidableEq, Repr

/-- The fault of the first access that faults, of accesses made in order: a read or a write at an
unmounted address, or a write to the status port (R58, R261, R262, R291). -/
def faultOf (s : State) : List Access → Option Fault
  | [] => none
  | .read a :: rest => if s.mounted a then faultOf s rest else some (.outOfRangeAccess a)
  | .write a :: rest =>
    if s.mounted a then
      if s.isStatus a then some (.illegalStatusWrite a) else faultOf s rest
    else some (.outOfRangeAccess a)

/-! ### Two bytes: a pointer or a vector -/

/-- Both bytes of a pair can be read. -/
def State.pairMounted (s : State) (lo hi : Word) : Bool := s.mounted lo && s.mounted hi

/-- The value of a pair: the byte at `lo` is read first. -/
def State.pairValue (s : State) (lo hi : Word) : Word :=
  mkWord ((s.afterRead lo).valueAt hi) (s.valueAt lo)

/-- The state after reading a pair. -/
def State.afterPair (s : State) (lo hi : Word) : State := (s.afterRead lo).afterRead hi

/-! ### The stack -/

/-- The next `n` pushes fault on nothing. -/
def State.pushable (s : State) (n : Nat) : Bool :=
  (List.range n).all fun k => s.writable (s.cfg.stackAddr (s.sp - BitVec.ofNat 8 k))

/-- The next `n` pulls fault on nothing. -/
def State.pullable (s : State) (n : Nat) : Bool :=
  (List.range n).all fun k => s.mounted (s.cfg.stackAddr (s.sp + BitVec.ofNat 8 (k + 1)))

/-- The state after a push (R32): the cell SP designates is written, then SP goes down. -/
def State.pushed (s : State) (v : Byte) : State :=
  (s.afterWrite (s.cfg.stackAddr s.sp) v).setSP (s.sp - 1)

/-- The byte a pull returns (R33): the cell above SP. -/
def State.pullValue (s : State) : Byte := s.valueAt (s.cfg.stackAddr (s.sp + 1))

/-- The state after a pull (R33). -/
def State.pulled (s : State) : State := (s.setSP (s.sp + 1)).afterRead (s.cfg.stackAddr (s.sp + 1))

/-- The state after pushing a 16-bit value, high byte first (R62). -/
def State.pushedWord (s : State) (w : Word) : State := (s.pushed (hiByte w)).pushed (loByte w)

/-- The 16-bit value two pulls return, low byte first. -/
def State.pullWordValue (s : State) : Word := mkWord s.pulled.pullValue s.pullValue

/-- The bus accesses of an interrupt entry, in order: three pushes, two reads of the vector (R271). -/
def State.entryAccesses (s : State) (vec : Word) : List Access :=
  [.write (s.cfg.stackAddr s.sp), .write (s.cfg.stackAddr (s.sp - 1)),
    .write (s.cfg.stackAddr (s.sp - 2)), .read vec, .read (vec + 1)]

/-- The state after an interrupt entry (R271). -/
def State.entered (s : State) (vec : Word) (b : Bool) : State :=
  let t := (s.pushedWord s.pc).pushed (s.flags.toByte b)
  let t := t.setFlags { s.flags with i := true }
  (t.afterPair vec (vec + 1)).setPC (t.pairValue vec (vec + 1))

/-- The state after the return from an interrupt (R241, R277). -/
def State.left (s : State) : State :=
  let t := s.pulled.setFlags (s.flags.load s.pullValue)
  t.pulled.pulled.setPC t.pullWordValue

/-! ### Operands -/

/-- The mode's pointer, if it goes through one, can be read (R131 to R133). -/
def resolves (m : Mode) (s : State) : Bool :=
  match pointerCells m s with
  | none => true
  | some (lo, hi) => s.pairMounted lo hi

/-- What the mode resolves to (R121 to R133). -/
def operandRef (m : Mode) (s : State) : Ref :=
  match pointerCells m s with
  | none => refFor m s 0
  | some (lo, hi) => refFor m s (s.pairValue lo hi)

/-- The state after the mode is resolved. -/
def afterResolve (m : Mode) (s : State) : State :=
  match pointerCells m s with
  | none => s
  | some (lo, hi) => s.afterPair lo hi

/-- The reads of the mode's pointer, low byte first (R131 to R133). -/
def pointerReads (m : Mode) (s : State) : List Access :=
  match pointerCells m s with
  | none => []
  | some (lo, hi) => [.read lo, .read hi]

/-- The address a mode designates in memory, if it designates one. -/
def memoryOperand (m : Mode) (s : State) : List Word :=
  match operandRef m s with
  | .mem ea => [ea]
  | .none | .reg _ | .imm _ => []

/-- The bus accesses of loading the operand (R135). -/
def loadAccesses (m : Mode) (s : State) : List Access :=
  pointerReads m s ++ (memoryOperand m s).map .read

/-- The bus accesses of storing to the operand, its target not read (R135). -/
def storeAccesses (m : Mode) (s : State) : List Access :=
  pointerReads m s ++ (memoryOperand m s).map .write

/-- Loading the operand faults on nothing (R134, R136). -/
def loadable (m : Mode) (s : State) : Bool :=
  resolves m s &&
    match operandRef m s with
    | .mem ea => s.mounted ea
    | .reg _ | .imm _ => true
    | .none => false

/-- Storing to the operand faults on nothing (R134, R136, R291). -/
def storable (m : Mode) (s : State) : Bool :=
  resolves m s &&
    match operandRef m s with
    | .mem ea => s.writable ea
    | .reg _ => true
    | .imm _ | .none => false

/-- The operand's value, `M` in the rules (R134). -/
def operandValue (m : Mode) (s : State) : Byte :=
  match operandRef m s with
  | .mem ea => (afterResolve m s).valueAt ea
  | .reg r => s.reg r
  | .imm v => v
  | .none => 0

/-- The state after the operand is loaded. -/
def afterLoad (m : Mode) (s : State) : State :=
  match operandRef m s with
  | .mem ea => (afterResolve m s).afterRead ea
  | .reg _ | .imm _ | .none => afterResolve m s

/-- The state after `v` is stored through the reference the mode resolved to in `s`, `t` being the
state reached since. -/
def storedThrough (m : Mode) (s : State) (v : Byte) (t : State) : State :=
  match operandRef m s with
  | .mem ea => t.afterWrite ea v
  | .reg r => t.setReg r v
  | .imm _ | .none => t

end Sys2Proof.Machine
end

