-- ==== Sys2Proof/Safety.lean ====
section
/-! DEFINITION. What counts as a sound machine state and a safe run, in the words claims use. -/

namespace Sys2Proof.Machine

/-- The mount list is one the machine can be built with (20_memory.md R52): every mount is valid and
no two ranges share an address. -/
abbrev wellFormedMap (map : List Mount) : Prop :=
  (∀ m ∈ map, m.valid = true) ∧ map.Pairwise (fun m k => m.overlaps k = false)

/-- The geometry makes sense: the pre-render line is not past the last one (60_exceptions.md
R292). -/
abbrev Geometry.valid (g : Geometry) : Prop := g.prerender ≤ g.scanlineMax

/-- The counters are in their ranges (10_state.md R37). -/
abbrev Timing.inRange (g : Geometry) (t : Timing) : Prop :=
  g.prerender ≤ t.scanline ∧ t.scanline ≤ g.scanlineMax ∧ t.cycle ≤ g.cycleMax

/-- Bits 6 to 0 of `status` are 0 (R286). -/
abbrev Timing.statusClean (t : Timing) : Prop := t.status &&& 0x7F = 0

/-- The invariant of the machine: a well-formed configuration, memory in its canonical form, the
status register's other bits 0 and the counters in range. -/
abbrev State.Inv (s : State) : Prop :=
  wellFormedMap s.cfg.map ∧ s.cfg.geometry.valid ∧ Memory.wf s.mem ∧ s.dev.statusClean ∧
    s.dev.inRange s.cfg.geometry

/-- The step answers a next state: no fault, no refusal. -/
def StepsSafely (s : State) : Prop := ∃ t, step s = .next t

/-- A run of `n` steps meets no fault and no refusal. -/
def RunsSafely (n : Nat) (s : State) : Prop := ∃ t, Host.Core.run Sys2Proof.core n s = .next t

/-- The state an outcome carries, if it carries one. -/
def nextState (o : Host.Outcome State Fault Refusal) : Option State :=
  match o with
  | .next s => some s
  | .fault _ | .refused _ => none

/-- What an outcome stopped with, if it stopped. -/
def stopOf (o : Host.Outcome State Fault Refusal) : Option Stop :=
  match o with
  | .next _ => none
  | .fault f => some (.fault f)
  | .refused r => some (.refusal r)

/-! ### Words statements about instructions are written in -/

/-- One mode of each kind. -/
def sampleModes : List Mode :=
  [.implicit, .register .a, .register .x, .register .y, .register .sp, .immediate 0, .zeroPage 0,
    .zeroPageX 0, .zeroPageY 0, .absolute 0, .absoluteX 0, .absoluteY 0, .indexedIndirect 0,
    .indirectIndexed 0, .indirect 0, .relative 0]

/-- The row of a mnemonic in the table of 30_encoding.md R97: its modes, each with its opcode. -/
def modesOf (f : Mode → Instr) : List (ModeKind × Byte) :=
  sampleModes.filterMap fun m => (f m).opcode.map fun op => (m.kind, op)

/-- The outcome is the fault of the first access that faults, of these accesses in order (R261,
R262). -/
def FaultsAt (s : State) (accesses : List Access) (o : Host.Outcome State Fault Refusal) : Prop :=
  ∃ e, faultOf s accesses = some e ∧ o = .fault e

/-- A well-formed instruction of this mnemonic whose operand cannot be loaded faults at the first
access of the load that faults. -/
def FaultsUnlessLoadable (f : Mode → Instr) : Prop :=
  ∀ (m : Mode) (s : State), (f m).wellFormed = true → loadable m s = false →
    FaultsAt s (loadAccesses m s) (exec (f m) s)

/-- A well-formed instruction of this mnemonic whose operand cannot be stored to faults at the first
access of the store that faults; an instruction that loads first meets the same fault. -/
def FaultsUnlessStorable (f : Mode → Instr) : Prop :=
  ∀ (m : Mode) (s : State), (f m).wellFormed = true → storable m s = false →
    FaultsAt s (storeAccesses m s) (exec (f m) s)

/-- What an instruction may write of the registers and flags: A, X, Y and how far SP moves (TXS
apart, which replaces it), and C, Z with N, I, D, V. -/
structure Writes where
  a  : Bool := false
  x  : Bool := false
  y  : Bool := false
  sp : Byte := 0
  c  : Bool := false
  zn : Bool := false
  i  : Bool := false
  d  : Bool := false
  v  : Bool := false
  deriving DecidableEq, Repr

/-- The "written by" lists of 10_state.md R21, R22, R27 and R30, instruction by instruction, and how
far SP moves: down by the bytes an instruction pushes, up by those it pulls (R32, R33, R202, R203,
R220 to R223, R240, R241). A shift writes A in its accumulator form only. -/
def writes : Instr → Writes
  | .lda _ => { a := true, zn := true }
  | .ldx _ => { x := true, zn := true }
  | .ldy _ => { y := true, zn := true }
  | .lax _ => { a := true, x := true, zn := true }
  | .sta _ | .stx _ | .sty _ | .sax _ => {}
  | .tax | .tsx | .inx | .dex => { x := true, zn := true }
  | .tay | .iny | .dey => { y := true, zn := true }
  | .txa | .tya => { a := true, zn := true }
  | .txs => {}
  | .adc _ | .sbc _ => { a := true, c := true, zn := true, v := true }
  | .and _ | .ora _ | .eor _ => { a := true, zn := true }
  | .cmp _ | .cpx _ | .cpy _ => { c := true, zn := true }
  | .axs _ => { x := true, c := true, zn := true }
  | .bit _ => { zn := true, v := true }
  | .inc _ | .dec _ => { zn := true }
  | .asl m | .lsr m | .rol m | .ror m => { a := m = .register .a, c := true, zn := true }
  | .jmp _ => {}
  | .jsr _ => { sp := -2 }
  | .rts => { sp := 2 }
  | .bcc _ | .bcs _ | .beq _ | .bne _ | .bmi _ | .bpl _ | .bvc _ | .bvs _ => {}
  | .pha | .php => { sp := -1 }
  | .pla => { a := true, zn := true, sp := 1 }
  | .plp => { c := true, zn := true, i := true, d := true, v := true, sp := 1 }
  | .clc | .sec => { c := true }
  | .cli | .sei => { i := true }
  | .cld | .sed => { d := true }
  | .clv => { v := true }
  | .brk => { i := true, sp := -3 }
  | .rti => { c := true, zn := true, i := true, d := true, v := true, sp := 3 }
  | .nop | .unmapped _ => {}

/-- The addresses an instruction stores to: the operand of a storing or modifying instruction, the
stack cells of a pushing one. -/
def storesTo (i : Instr) (s : State) : List Word :=
  match i with
  | .sta m | .stx m | .sty m | .sax m => memoryOperand m s
  | .inc m | .dec m | .asl m | .lsr m | .rol m | .ror m => memoryOperand m s
  | .pha | .php => [s.cfg.stackAddr s.sp]
  | .jsr _ => [s.cfg.stackAddr s.sp, s.cfg.stackAddr (s.sp - 1)]
  | .brk => [s.cfg.stackAddr s.sp, s.cfg.stackAddr (s.sp - 1), s.cfg.stackAddr (s.sp - 2)]
  | .lda _ | .ldx _ | .ldy _ | .lax _ | .tax | .tay | .txa | .tya | .tsx | .txs => []
  | .adc _ | .sbc _ | .and _ | .ora _ | .eor _ | .cmp _ | .cpx _ | .cpy _ | .bit _ | .axs _ => []
  | .inx | .iny | .dex | .dey | .jmp _ | .rts | .rti | .pla | .plp => []
  | .bcc _ | .bcs _ | .beq _ | .bne _ | .bmi _ | .bpl _ | .bvc _ | .bvs _ => []
  | .clc | .sec | .cli | .sei | .cld | .sed | .clv | .nop | .unmapped _ => []

/-- The machine with its stored Break flag replaced. -/
def State.withBreak (s : State) (v : Bool) : State := s.setFlags { s.flags with b := v }

/-- The stored Break flag after a step that ends well, `v` being the flag before it (10_state.md R34):
BRK sets it, a reset event clears it, and nothing else writes it. -/
def breakAfter (s : State) (v : Bool) : Bool :=
  match s.driver with
  | .present e :: _ => if e.reset then false else v
  | .tick _ :: _ | .inject _ :: _ => v
  | .cpu :: _ | [] => if fetch s = .ok .brk then true else v

/-- The three cells the next three pushes write are three different RAM bytes. -/
def State.stackRam (s : State) : Prop :=
  ∃ k₀ k₁ k₂, s.target (s.cfg.stackAddr s.sp) = some (.ram k₀) ∧
    s.target (s.cfg.stackAddr (s.sp - 1)) = some (.ram k₁) ∧
    s.target (s.cfg.stackAddr (s.sp - 2)) = some (.ram k₂) ∧ k₀ ≠ k₁ ∧ k₀ ≠ k₂ ∧ k₁ ≠ k₂

/-- The timing device after `n` ticks. -/
def Timing.run (g : Geometry) : Nat → Timing → Timing
  | 0, t => t
  | n + 1, t => ((Timing.run g n t).tick g).1

/-- What tick number `n` returns, counting from 1. -/
def Timing.resultOf (g : Geometry) (n : Nat) (t : Timing) : TickResult :=
  ((Timing.run g (n - 1) t).tick g).2

end Sys2Proof.Machine
end

