-- ==== Sys2Proof/Certificates/Slice0/Obligations.lean ====
section
/-! DEFINITION. The statements for the provers. Each formalises the rule of spec/ its docstring
names, or is derived from the rules it names. The pc of an instruction's state is `PC_next`
(10_state.md R25): exec runs after the advance. -/

open Sys2Proof Sys2Proof.Machine

/-! ### Encoding -/

/-- Words written out from R91, R94 and R98 decode to the instructions they stand for. -/
def Obligations.SampleWordsDecode : Prop :=
  decode [0xA9, 0x05] = .ok (.lda (.immediate 0x05)) ∧
  decode [0x8D, 0x00, 0x02] = .ok (.sta (.absolute 0x0200)) ∧
  decode [0xB1, 0x10, 0x99] = .ok (.lda (.indirectIndexed 0x10)) ∧
  decode [0x61, 0xFE] = .ok (.adc (.indexedIndirect 0xFE)) ∧
  decode [0x6A] = .ok (.ror (.register .a)) ∧
  decode [0x6C, 0xFF, 0x02] = .ok (.jmp (.indirect 0x02FF)) ∧
  decode [0xD0, 0xFB] = .ok (.bne 0xFB) ∧
  decode [0x28] = .ok .plp ∧
  decode [0x00] = .ok .brk ∧
  decode [0xB7, 0xF0] = .ok (.lax (.zeroPageY 0xF0)) ∧
  decode [0x80, 0x05] = .ok (.unmapped 0x80)

/-- Decoding the encoding of any well-formed instruction, whatever follows it, gives it back. -/
def Obligations.DecodeOfEncode : Prop :=
  ∀ (i : Instr) (rest : List Byte), i.wellFormed = true → decode (encode i ++ rest) = .ok i

/-- Whatever decodes is well-formed, and its encoding is the bytes it was decoded from. -/
def Obligations.EncodeOfDecode : Prop :=
  ∀ (bytes : List Byte) (i : Instr), decode bytes = .ok i →
    i.wellFormed = true ∧ i.length ≤ bytes.length ∧ encode i = bytes.take i.length

/-- R91, R92, R93: by any decode table the length of what is decoded is one to three bytes (R91), is
the one R92's table gives the mode (and 1 for an unmapped byte), and depends on byte 0 alone (R93,
which the spec infers from R91 and R92). -/
def Obligations.LengthFixedByFirstByte : Prop :=
  ∀ (table : TableChanges) (op : Byte) (rest rest' : List Byte) (i i' : Instr),
    decodeWith table (op :: rest) = .ok i → decodeWith table (op :: rest') = .ok i' →
      i.length = i'.length ∧ 1 ≤ i.length ∧ i.length ≤ 3 ∧
      (i.length = 1 ↔ i.mode = none ∨ i.mode = some .implicit ∨ ∃ r, i.mode = some (.register r)) ∧
      (i.length = 3 ↔ ∃ w, i.mode = some (.absolute w) ∨ i.mode = some (.absoluteX w) ∨
        i.mode = some (.absoluteY w) ∨ i.mode = some (.indirect w))

/-- R95, R243: by the spec's table the 94 listed bytes, and no others, are unmapped; and a byte that
the machine's table leaves unmapped makes the step move the pc by exactly 1 and change nothing
else. -/
def Obligations.UnmappedByteSkipsOne : Prop :=
  unmappedBytes.length = 94 ∧ unmappedBytes.Nodup ∧ defaultConfig.tableChanges = [] ∧
  (∀ (op : Byte) (rest : List Byte),
    decode (op :: rest) = .ok (.unmapped op) ↔ op ∈ unmappedBytes) ∧
  ∀ (s : State) (op : Byte) (rest : List Byte), s.driver = [] → s.started = true →
    busSlice s.pc 3 s = .ok (op :: rest) →
    (match s.cfg.tableChanges.lookup op with
      | none => op ∈ unmappedBytes
      | some row => row = none) →
      step s = .next { s with pc := s.pc + 1 }

/-! ### The step -/

/-- R90, R96: a CPU step fetches the slice at the pc, faults if there is none or if it is too short,
and otherwise runs the instruction the machine's table decodes, at the state whose pc is already
past it. What the exhaustion signal means is the spec's own decision D16. -/
def Obligations.StepRunsDecodedInstruction : Prop :=
  (∀ (table : TableChanges) (op : Byte) (rest : List Byte),
    let i := decodeOpcode table op (rest.getD 0 0) (rest.getD 1 0)
    (i.length ≤ rest.length + 1 → decodeWith table (op :: rest) = .ok i) ∧
    (rest.length + 1 < i.length → ∃ e, decodeWith table (op :: rest) = .error e)) ∧
  ∀ s : State, s.driver = [] → s.started = true →
    (lookup s.cfg.map s.pc = none → step s = .fault (.outOfRangeAccess s.pc)) ∧
    (busSlice s.pc 3 s = .ok [] → step s = .fault (.addressSpaceExhaustion s.pc)) ∧
    ∀ bytes, busSlice s.pc 3 s = .ok bytes →
      (∀ e, decodeWith s.cfg.tableChanges bytes = .error e →
        step s = .fault (.addressSpaceExhaustion s.pc)) ∧
      ∀ i, decodeWith s.cfg.tableChanges bytes = .ok i →
        step s = exec i { s with pc := s.pc + BitVec.ofNat 16 i.length }

/-- A table word placed where the next fetch slices is what the first step after reset runs (log
5). -/
def Obligations.PlacedWordRunsFirst : Prop :=
  ∀ (nbits w : Nat) (i : Instr), decodeTableWord nbits w = some i →
    let s := State.reset.withFetchWord nbits w
    step s = exec i { s with pc := s.pc + BitVec.ofNat 16 i.length }

/-- R61, R300 (the spec's own decision D16): the register file's slice is empty, so a fetch from its
window exhausts the address space, and the window is never executed. -/
def Obligations.RegisterWindowNotExecutable : Prop :=
  ∀ (s : State) (m : Mount), s.driver = [] → s.started = true →
    lookup s.cfg.map s.pc = some m → m.dev = .registers →
      busSlice s.pc 3 s = .ok [] ∧ step s = .fault (.addressSpaceExhaustion s.pc)

/-! ### The bus and the devices -/

/-- R55, R58, R287, R290, R299: a bus read faults at an unmounted address, gives the byte of a RAM
or ROM at the offset modulo its length and changes nothing, gives the status register and resets
the toggle at offset 2 modulo 8 of the register file, and at its other offsets draws an unspecified
byte and changes nothing (the draw counter is the model's own, log 6). That a status read does not
clear VBlank, and that the other reads are unspecified, are the spec's own decision D26. -/
def Obligations.BusReadByDevice : Prop :=
  ∀ (s : State) (a : Word),
    (lookup s.cfg.map a = none → busRead a s = .error (.fault (.outOfRangeAccess a))) ∧
    ∀ m, lookup s.cfg.map a = some m →
      let off := a.toNat - m.start
      (∀ n, m.dev = .ram n ∨ m.dev = .rom n →
        busRead a s = .ok (Memory.get s.mem (m.key (off % n)), s)) ∧
      (m.dev = .registers → off % 8 = 2 →
        busRead a s = .ok (s.dev.status, { s with dev := { s.dev with w := false } })) ∧
      (m.dev = .registers → off % 8 ≠ 2 →
        busRead a s = .ok (Config.freeByte s.draws, { s with draws := s.draws + 1 }))

/-- R56, R58, R288, R291, R299: a bus write faults at an unmounted address and at the status port,
writes one byte of a RAM, changes nothing of a ROM, stores the byte in the register of ports 0, 1,
3, 4 and 7, and reaches nothing else. That a ROM write is no fault is the spec's own decision
D18. -/
def Obligations.BusWriteByDevice : Prop :=
  ∀ (s : State) (a : Word) (v : Byte),
    (lookup s.cfg.map a = none → busWrite a v s = .error (.fault (.outOfRangeAccess a))) ∧
    ∀ m, lookup s.cfg.map a = some m →
      let off := a.toNat - m.start
      (∀ n, m.dev = .ram n →
        busWrite a v s = .ok { s with mem := Memory.set s.mem (m.key (off % n)) v }) ∧
      (∀ n, m.dev = .rom n → busWrite a v s = .ok s) ∧
      (m.dev = .registers →
        (off % 8 = 0 → busWrite a v s = .ok { s with dev := { s.dev with control := v } }) ∧
        (off % 8 = 1 → busWrite a v s = .ok { s with dev := { s.dev with mask := v } }) ∧
        (off % 8 = 2 → busWrite a v s = .error (.fault (.illegalStatusWrite a))) ∧
        (off % 8 = 3 → busWrite a v s = .ok { s with dev := { s.dev with oamaddr := v } }) ∧
        (off % 8 = 4 → busWrite a v s = .ok { s with dev := { s.dev with oamdata := v } }) ∧
        (off % 8 = 7 → busWrite a v s = .ok { s with dev := { s.dev with data := v } }))

/-- R289: a write to port 5 or 6 fills the high half when the toggle is 0 and the low half when it
is 1, keeps the other half, and flips the one toggle the two ports share; so two writes to port 6
compose an address, high byte first. The kept half, and scroll's order, are the spec's own decision
D27. -/
def Obligations.TwoPhaseWrites : Prop :=
  (∀ (s : State) (a : Word) (v : Byte),
    (s.target a = some (.port .scroll) → ∃ r, busWrite a v s =
        .ok { s with dev := { s.dev with scroll := r, w := !s.dev.w } } ∧
      hiByte r = (if s.dev.w then hiByte s.dev.scroll else v) ∧
      loByte r = (if s.dev.w then v else loByte s.dev.scroll)) ∧
    (s.target a = some (.port .address) → ∃ r, busWrite a v s =
        .ok { s with dev := { s.dev with address := r, w := !s.dev.w } } ∧
      hiByte r = (if s.dev.w then hiByte s.dev.address else v) ∧
      loByte r = (if s.dev.w then v else loByte s.dev.address))) ∧
  ∀ (s t u : State) (a a' : Word) (v v' : Byte), s.dev.w = false →
    s.target a = some (.port .address) → s.target a' = some (.port .address) →
    busWrite a v s = .ok t → busWrite a' v' t = .ok u →
      u.dev.address.toNat = v.toNat * 256 + v'.toNat ∧ u.dev.w = false

/-- R59, R60: a RAM answers every offset of its window with the offset modulo its length: a byte
written is read back at every mirror of its address in that window and nowhere else there; and the
slice of a RAM or of a ROM runs from the reduced offset to the end of the backing, its first byte
being the one a read there returns (the slice is the spec's own decision D16). -/
def Obligations.RamMirrorsAndSlices : Prop :=
  (∀ (s t : State) (m : Mount) (n : Nat) (a b : Word) (v : Byte), Memory.wf s.mem →
    lookup s.cfg.map a = some m → lookup s.cfg.map b = some m → m.dev = .ram n →
    busWrite a v s = .ok t → t.cfg = s.cfg ∧
      t.valueAt b = if (b.toNat - m.start) % n = (a.toNat - m.start) % n then v else s.valueAt b) ∧
  ∀ (s : State) (m : Mount) (n : Nat) (a : Word), lookup s.cfg.map a = some m →
    m.dev = .ram n ∨ m.dev = .rom n →
      let off := (a.toNat - m.start) % n
      ∀ k, ∃ bytes, busSlice a k s = .ok bytes ∧ bytes.length = min k (n - off) ∧
        (1 ≤ n → 1 ≤ k → bytes.head? = some (s.valueAt a)) ∧
        ∀ j, j < bytes.length → bytes[j]? = some (Memory.get s.mem (m.key (off + j)))

/-- R67: a write changes only the device the lookup selects: no other mount's bytes, read or sliced,
and not the timing device unless that is the device written. That each memory mount is a device of
its own is the model's choice (log 24). -/
def Obligations.DeviceIsolation : Prop :=
  ∀ (s t : State) (m : Mount) (a : Word) (v : Byte), wellFormedMap s.cfg.map →
    lookup s.cfg.map a = some m → busWrite a v s = .ok t →
      (∀ b, lookup s.cfg.map b ≠ some m →
        t.byteAt b = s.byteAt b ∧ ∀ k, busSlice b k t = busSlice b k s) ∧
      (m.dev ≠ .registers → t.dev = s.dev) ∧ (m.dev = .registers → t.mem = s.mem)

/-- R70: a byte stored to RAM is the first byte of the next slice from that cell, through any mirror:
the next fetch sees the store. -/
def Obligations.StoreSeenByNextFetch : Prop :=
  ∀ (s t : State) (m : Mount) (n k : Nat) (a b : Word) (v : Byte), Memory.wf s.mem → 1 ≤ n →
    lookup s.cfg.map a = some m → lookup s.cfg.map b = some m → m.dev = .ram n →
    (b.toNat - m.start) % n = (a.toNat - m.start) % n → busWrite a v s = .ok t →
      ∃ rest, busSlice b (k + 1) t = .ok (v :: rest)

/-! ### The timing device -/

/-- R292, R293, R294: the tick, for the source's geometry: the counters advance and wrap, VBlank is
cleared at (-1, 1) and set at (241, 1), where the result is NMI iff control enables it; nothing
else changes. That the events see the counters after the increment is the spec's own decision
D25. -/
def Obligations.TickCountsAndSignals : Prop :=
  ∀ t : Timing,
    let c := if t.cycle + 1 > 340 then 0 else t.cycle + 1
    let l := if t.cycle + 1 > 340 then (if t.scanline = 261 then -1 else t.scanline + 1)
             else t.scanline
    let st := if l = -1 ∧ c = 1 then t.status &&& 0x7F
              else if l = 241 ∧ c = 1 then t.status ||| 0x80 else t.status
    (t.tick sourceGeometry).1 = { t with cycle := c, scanline := l, status := st } ∧
    ((t.tick sourceGeometry).2 = .nmi ↔ l = 241 ∧ c = 1 ∧ t.control.getLsbD 7 = true)

/-- R292, R285: the counters after any number of ticks of a device just built: 341 cycles a line,
263 lines a frame, the last of them the pre-render line -1. The start at (0, 0) and the 263 lines
are the spec's own decisions D25 and D28. -/
def Obligations.CountersAfterTicks : Prop :=
  ∀ n : Nat,
    let t := Timing.run sourceGeometry n Timing.constructed
    t.cycle = n % 341 ∧
    t.scanline = (if n / 341 % 263 = 262 then -1 else ((n / 341 % 263 : Nat) : Int))

/-- R297: from construction with NMI generation enabled, tick 82182 is the first to return NMI, at
scanline 241 and cycle 1, exactly one of the first 341 × 242 ticks does, and the NMIs repeat every
89683 ticks. The tick numbers are the spec's own inference, and the start at (0, 0) and the frame of
263 lines its own decisions D25 and D28 (log 14). -/
def Obligations.OneNmiPerFrame : Prop :=
  ∀ c : Byte, c.getLsbD 7 = true →
    let t := { Timing.constructed with control := c }
    (∀ n, 1 ≤ n → n ≤ 341 * 242 →
      (Timing.resultOf sourceGeometry n t = .nmi ↔ n = 82182)) ∧
    (Timing.run sourceGeometry 82182 t).scanline = 241 ∧
    (Timing.run sourceGeometry 82182 t).cycle = 1 ∧
    (Timing.run sourceGeometry (341 * 242) t).scanline = 242 ∧
    (Timing.run sourceGeometry (341 * 242) t).cycle = 0 ∧
    ∀ n, 1 ≤ n → (Timing.resultOf sourceGeometry n t = .nmi ↔ n % 89683 = 82182)

/-- R286, R290, R291: only a tick changes the status register or the counters; no instruction, event
or injection does. That a status read leaves VBlank set is the spec's own decision D26 (log 15). -/
def Obligations.StatusChangedByTickOnly : Prop :=
  ∀ s t : State, (∀ forward rest, s.driver ≠ .tick forward :: rest) → step s = .next t →
    t.dev.status = s.dev.status ∧ t.dev.scanline = s.dev.scanline ∧ t.dev.cycle = s.dev.cycle

/-! ### Reset, interrupts, the driver -/

/-- R270, R321, R322: the reset event writes SP and the flags, loads the pc from 0xFFFC and 0xFFFD,
and touches nothing else; with an unmounted vector it faults. The values of SP and the flags are
the spec's own decision D8. SP goes to `SP_INIT` (R8), which is 0xFF. -/
def Obligations.ResetEventLoadsVector : Prop :=
  ∀ (s : State) (rest : List DriverAction), s.driver = .present ⟨true, false, false⟩ :: rest →
    defaultConfig.spInit = 0xFF ∧
    let p : Flags := { c := false, z := false, i := true, d := false, b := false, v := false,
                       n := false }
    let u : State := { s with driver := rest, sp := s.cfg.spInit, flags := p }
    (s.pairMounted 0xFFFC 0xFFFD = true → step s =
      .next { u.afterPair 0xFFFC 0xFFFD with pc := u.pairValue 0xFFFC 0xFFFD, started := true }) ∧
    (∀ lo hi, s.byteAt 0xFFFC = some lo → s.byteAt 0xFFFD = some hi →
      step s = .next { u with pc := mkWord hi lo, started := true }) ∧
    (s.mounted 0xFFFC = false → step s = .fault (.outOfRangeAccess 0xFFFC)) ∧
    (s.mounted 0xFFFC = true → s.mounted 0xFFFD = false →
      step s = .fault (.outOfRangeAccess 0xFFFD))

/-- R271: the entry sequence pushes the pc, high byte first, and the flag byte with the I of before,
sets I, and goes where the vector points; SP goes down by 3, and A, X, Y and the other flags stay.
On a RAM stack the three bytes are where the rule says. If any of its three pushes and two vector
reads faults, it is the first of them that does. That I is set, after the push, is the
spec's own decision D9. -/
def Obligations.EntrySequence : Prop :=
  (∀ (s : State) (vec : Word) (b : Bool), s.pushable 3 = true →
    s.pairMounted vec (vec + 1) = true →
      let pushed := ((s.afterWrite (s.cfg.stackAddr s.sp) (hiByte s.pc)).afterWrite
        (s.cfg.stackAddr (s.sp - 1)) (loByte s.pc)).afterWrite
        (s.cfg.stackAddr (s.sp - 2)) (s.flags.toByte b)
      let u := { pushed with sp := s.sp - 3, flags := { s.flags with i := true } }
      enter vec b s =
        .ok { u.afterPair vec (vec + 1) with pc := u.pairValue vec (vec + 1) } ∧
      (Memory.wf s.mem → s.stackRam → ∃ t, enter vec b s = .ok t ∧
        t.byteAt (s.cfg.stackAddr s.sp) = some (hiByte s.pc) ∧
        t.byteAt (s.cfg.stackAddr (s.sp - 1)) = some (loByte s.pc) ∧
        t.byteAt (s.cfg.stackAddr (s.sp - 2)) = some (s.flags.toByte b) ∧
        t.sp = s.sp - 3 ∧ t.flags = { s.flags with i := true } ∧
        t.a = s.a ∧ t.x = s.x ∧ t.y = s.y)) ∧
  ∀ (s : State) (vec : Word) (b : Bool),
    s.pushable 3 = false ∨ s.pairMounted vec (vec + 1) = false →
      ∃ e, faultOf s (s.entryAccesses vec) = some e ∧ enter vec b s = .error (.fault e)

/-- R272, R273: an NMI event always enters through 0xFFFA; an IRQ event enters through 0xFFFE if I
is 0, and if I is 1 nothing happens. An entry that cannot end well faults at the first of its five
accesses that faults (R271). -/
def Obligations.NmiEntersAlwaysIrqIfEnabled : Prop :=
  ∀ (s : State) (rest : List DriverAction),
    let u := { s with driver := rest }
    (s.driver = .present ⟨false, true, false⟩ :: rest → s.pushable 3 = true →
      s.pairMounted 0xFFFA 0xFFFB = true → step s = .next (u.entered 0xFFFA false)) ∧
    (s.driver = .present ⟨false, false, true⟩ :: rest → s.flags.i = false → s.pushable 3 = true →
      s.pairMounted 0xFFFE 0xFFFF = true → step s = .next (u.entered 0xFFFE false)) ∧
    (s.driver = .present ⟨false, false, true⟩ :: rest → s.flags.i = true → step s = .next u) ∧
    (s.driver = .present ⟨false, true, false⟩ :: rest →
      s.pushable 3 = false ∨ s.pairMounted 0xFFFA 0xFFFB = false →
        FaultsAt s (s.entryAccesses 0xFFFA) (step s)) ∧
    (s.driver = .present ⟨false, false, true⟩ :: rest → s.flags.i = false →
      s.pushable 3 = false ∨ s.pairMounted 0xFFFE 0xFFFF = false →
        FaultsAt s (s.entryAccesses 0xFFFE) (step s))

/-- R275: events at one boundary apply in the order reset, NMI, IRQ, each on the state the one before
left; an IRQ presented with an NMI is suppressed there, since NMI entry sets I. The order is the
spec's own decision D21. -/
def Obligations.EventsApplyInOrder : Prop :=
  ∀ s : State,
    (∀ r, act (.present ⟨r, true, true⟩) s = act (.present ⟨r, true, false⟩) s) ∧
    (∀ t n i, act (.present ⟨true, false, false⟩) s = .next t →
      act (.present ⟨true, n, i⟩) s = act (.present ⟨false, n, i⟩) t) ∧
    (∀ t i, act (.present ⟨false, true, false⟩) s = .next t →
      act (.present ⟨false, true, i⟩) s = act (.present ⟨false, false, i⟩) t)

/-- R295, R296: a tick of the timing device changes the device alone and returns what it returns; if
that is NMI and the driver forwards it, the NMI is entered at that boundary, or faults at the first
of the entry's accesses that faults, and if the driver drops it nothing more happens. In the driver
tick of R296 the CPU runs one instruction, then the device ticks once, and a returned NMI is entered
before the next CPU step. The wiring is the spec's own decision D22; that the driver's actions stand
in a list is the model's (log 7, log 16). -/
def Obligations.DriverTick : Prop :=
  (∀ (s : State) (forward : Bool) (rest : List DriverAction), s.driver = .tick forward :: rest →
    let d := s.dev.tick s.cfg.geometry
    let u := { s with driver := rest, dev := d.1 }
    (d.2 = .normal ∨ forward = false → step s = .next u) ∧
    (d.2 = .nmi → forward = true → s.pushable 3 = true → s.pairMounted 0xFFFA 0xFFFB = true →
      step s = .next (u.entered 0xFFFA false)) ∧
    (d.2 = .nmi → forward = true →
      s.pushable 3 = false ∨ s.pairMounted 0xFFFA 0xFFFB = false →
        FaultsAt s (s.entryAccesses 0xFFFA) (step s))) ∧
  ∀ (s s₁ : State) (forward : Bool) (rest : List DriverAction),
    s.driver = .cpu :: .tick forward :: rest →
    cpuStep { s with driver := .tick forward :: rest } = .next s₁ →
      let d := s₁.dev.tick s₁.cfg.geometry
      let u := { s₁ with driver := rest, dev := d.1 }
      (d.2 = .normal ∨ forward = false → Host.Core.run Sys2Proof.core 2 s = .next u) ∧
      (d.2 = .nmi → forward = true → u.pushable 3 = true → u.pairMounted 0xFFFA 0xFFFB = true →
        Host.Core.run Sys2Proof.core 2 s = .next (u.entered 0xFFFA false))

/-- R320 and the model's choice of log 8: injecting a start address writes the pc and nothing else of
the machine; before that or a reset event a CPU step is refused. -/
def Obligations.RunStartsByInjectionOrReset : Prop :=
  (∀ (s : State) (start : Word) (rest : List DriverAction), s.driver = .inject start :: rest →
    step s = .next { s with driver := rest, pc := start, started := true }) ∧
  ∀ s : State, s.driver = [] → s.started = false → step s = .refused .notStarted

/-! ### Flags and the stack -/

/-- R29, R31: SetZN, the flag byte as a number with bit 5 always 1, and loading it back, which
ignores bits 5 and 4 and keeps B. The layout of the flag byte is the spec's own decisions D5 and
D10. -/
def Obligations.FlagByteAndZeroNegative : Prop :=
  (∀ (f : Flags) (v : Byte),
    (f.setZN v).z = decide (v.toNat = 0) ∧ (f.setZN v).n = decide (128 ≤ v.toNat) ∧
    { f.setZN v with z := f.z, n := f.n } = f) ∧
  (∀ (f : Flags) (b : Bool), (f.toByte b).toNat = f.n.toNat * 128 + f.v.toNat * 64 + 32 +
    b.toNat * 16 + f.d.toNat * 8 + f.i.toNat * 4 + f.z.toNat * 2 + f.c.toNat) ∧
  (∀ (f g : Flags) (b : Bool), g.load (f.toByte b) = { f with b := g.b })

/-- R23, R32, R33: a push writes the cell SP designates and then lowers SP; a pull raises SP and then
reads; the cell, with the spec's `STACK_BASE`, is always in 0x0100 to 0x01FF; a pull after a push to
RAM gives the byte back and restores SP; SP wraps silently. The pull is the spec's own decision
D12. -/
def Obligations.PushThenPull : Prop :=
  defaultConfig.stackBase = 0x0100 ∧
  (∀ (c : Config) (sp : Byte), c.stackBase = 0x0100 → (c.stackAddr sp).toNat = 256 + sp.toNat) ∧
  (∀ (s : State) (v : Byte), s.writable (s.cfg.stackAddr s.sp) = true →
    push v s = .ok { s.afterWrite (s.cfg.stackAddr s.sp) v with sp := s.sp - 1 }) ∧
  (∀ s : State, s.mounted (s.cfg.stackAddr (s.sp + 1)) = true →
    let u := { s with sp := s.sp + 1 }
    pull s = .ok (u.valueAt (s.cfg.stackAddr (s.sp + 1)), u.afterRead (s.cfg.stackAddr (s.sp + 1)))) ∧
  (∀ (s t : State) (v : Byte) (k : Nat), Memory.wf s.mem →
    s.target (s.cfg.stackAddr s.sp) = some (.ram k) → push v s = .ok t →
      pull t = .ok (v, { t with sp := s.sp })) ∧
  ∀ (s t : State) (v : Byte), s.sp = 0 → push v s = .ok t → t.sp = 0xFF

/-! ### Addressing -/

/-- R121 to R130: what each mode that reads no pointer resolves to; zero-page indexing wraps within
the zero page, the 16-bit sums modulo 65536 (the spec's own decision D14), and a branch target is
relative to the post-advance pc. -/
def Obligations.DirectModesResolve : Prop :=
  ∀ s : State,
    resolve .implicit s = .ok (.none, s) ∧
    (∀ r, resolve (.register r) s = .ok (.reg r, s)) ∧
    (∀ v, resolve (.immediate v) s = .ok (.imm v, s)) ∧
    (∀ zp : Byte, ∃ ea, resolve (.zeroPage zp) s = .ok (.mem ea, s) ∧ ea.toNat = zp.toNat) ∧
    (∀ zp : Byte, ∃ ea, resolve (.zeroPageX zp) s = .ok (.mem ea, s) ∧
      ea.toNat = (zp.toNat + s.x.toNat) % 256) ∧
    (∀ zp : Byte, ∃ ea, resolve (.zeroPageY zp) s = .ok (.mem ea, s) ∧
      ea.toNat = (zp.toNat + s.y.toNat) % 256) ∧
    (∀ w, resolve (.absolute w) s = .ok (.mem w, s)) ∧
    (∀ w : Word, ∃ ea, resolve (.absoluteX w) s = .ok (.mem ea, s) ∧
      ea.toNat = (w.toNat + s.x.toNat) % 65536) ∧
    (∀ w : Word, ∃ ea, resolve (.absoluteY w) s = .ok (.mem ea, s) ∧
      ea.toNat = (w.toNat + s.y.toNat) % 65536) ∧
    (∀ off : Byte, ∃ ea, resolve (.relative off) s = .ok (.mem ea, s) ∧
      (ea.toNat : Int) = ((s.pc.toNat : Int) + off.toInt) % 65536)

/-- R131, R132, R133: the pointer of each indirect mode is read low byte first from the cells the
rule names, with the page wrap of R131 as the configuration says and the zero-page wrap of R132 and
R133; only `(zp),Y` adds Y to its value. The page wrap is kept as a parameter (D3), and the wrap of
a zero-page pointer's second byte is the spec's own decision D15. -/
def Obligations.PointerModesResolve : Prop :=
  (∀ (s : State) (lo hi : Word), s.pairMounted lo hi = true →
    let s₁ := s.afterRead lo
    readPair lo hi s = .ok (mkWord (s₁.valueAt hi) (s.valueAt lo), s₁.afterRead hi)) ∧
  (∀ (s : State) (ptr : Word), ∃ hi : Word,
    hi.toNat = (if s.cfg.jmpIndirectPageWrap then ptr.toNat / 256 * 256 + (ptr.toNat + 1) % 256
                else (ptr.toNat + 1) % 65536) ∧
    ∀ w t, readPair ptr hi s = .ok (w, t) → resolve (.indirect ptr) s = .ok (.mem w, t)) ∧
  (∀ (s : State) (zp : Byte), ∃ lo hi : Word,
    lo.toNat = (zp.toNat + s.x.toNat) % 256 ∧ hi.toNat = (zp.toNat + s.x.toNat + 1) % 256 ∧
    ∀ w t, readPair lo hi s = .ok (w, t) → resolve (.indexedIndirect zp) s = .ok (.mem w, t)) ∧
  ∀ (s : State) (zp : Byte), ∃ lo hi : Word,
    lo.toNat = zp.toNat ∧ hi.toNat = (zp.toNat + 1) % 256 ∧
    ∀ w t, readPair lo hi s = .ok (w, t) →
      resolve (.indirectIndexed zp) s =
        .ok (.mem (BitVec.ofNat 16 (w.toNat + s.y.toNat)), t)

/-- R134: loading and storing through a reference: an immediate is its byte, a register is read and
written without the bus, memory is one bus access; the forms the rule says never occur are refused
(log 12). -/
def Obligations.LoadAndStoreThroughReference : Prop :=
  ∀ (s : State) (v : Byte),
    load (.imm v) s = .ok (v, s) ∧
    load (.reg .a) s = .ok (s.a, s) ∧ load (.reg .x) s = .ok (s.x, s) ∧
    load (.reg .y) s = .ok (s.y, s) ∧ load (.reg .sp) s = .ok (s.sp, s) ∧
    store (.reg .a) v s = .ok { s with a := v } ∧ store (.reg .x) v s = .ok { s with x := v } ∧
    store (.reg .y) v s = .ok { s with y := v } ∧ store (.reg .sp) v s = .ok { s with sp := v } ∧
    (∀ ea, load (.mem ea) s = busRead ea s ∧ store (.mem ea) v s = busWrite ea v s) ∧
    load .none s = .error (.refusal .noSuchOperandForm) ∧
    store .none v s = .error (.refusal .noSuchOperandForm) ∧
    ∀ i, store (.imm i) v s = .error (.refusal .noSuchOperandForm)

/-- R120, R135, R136: what the whole operand access of an instruction does, in the words the
statements about instructions use: resolve, then one load or one store through the same reference,
when every address touched is mounted (and, for a store, the target is not the status port). -/
def Obligations.OperandAccess : Prop :=
  ∀ (m : Mode) (s : State),
    (resolves m s = true → resolve m s = .ok (operandRef m s, afterResolve m s)) ∧
    (loadable m s = true → ∃ t, resolve m s = .ok (operandRef m s, t) ∧
      load (operandRef m s) t = .ok (operandValue m s, afterLoad m s)) ∧
    (∀ v, storable m s = true → ∃ t, resolve m s = .ok (operandRef m s, t) ∧
      store (operandRef m s) v t = .ok (storedThrough m s v t)) ∧
    (∀ ea, operandRef m s = .mem ea → (loadable m s = true ↔ resolves m s = true ∧
      s.mounted ea = true) ∧ (storable m s = true ↔ resolves m s = true ∧ s.mounted ea = true ∧
      s.isStatus ea = false)) ∧
    (∀ lo hi, pointerCells m s = some (lo, hi) →
      (resolves m s = true ↔ s.mounted lo = true ∧ s.mounted hi = true)) ∧
    (pointerCells m s = none → resolves m s = true)

/-! ### Loads, stores, transfers -/

/-- R140, R141, R142, R250: LDA, LDX, LDY and LAX load their operand into their registers and set Z
and N from it; everything else is as the operand's access left it. They complete whenever the
operand can be loaded, and otherwise fault. -/
def Obligations.LoadInstructions : Prop :=
  modesOf .lda = [(.immediate, 0xA9), (.zeroPage, 0xA5), (.zeroPageX, 0xB5), (.absolute, 0xAD),
    (.absoluteX, 0xBD), (.absoluteY, 0xB9), (.indexedIndirect, 0xA1), (.indirectIndexed, 0xB1)] ∧
  modesOf .ldx = [(.immediate, 0xA2), (.zeroPage, 0xA6), (.zeroPageY, 0xB6), (.absolute, 0xAE),
    (.absoluteY, 0xBE)] ∧
  modesOf .ldy = [(.immediate, 0xA0), (.zeroPage, 0xA4), (.zeroPageX, 0xB4), (.absolute, 0xAC),
    (.absoluteX, 0xBC)] ∧
  modesOf .lax = [(.zeroPage, 0xA7), (.zeroPageY, 0xB7), (.absolute, 0xAF), (.absoluteY, 0xBF),
    (.indexedIndirect, 0xA3), (.indirectIndexed, 0xB3)] ∧
  (∀ (m : Mode) (s : State), loadable m s = true →
    let v := operandValue m s
    let u := afterLoad m s
    let f := { s.flags with z := decide (v.toNat = 0), n := decide (128 ≤ v.toNat) }
    exec (.lda m) s = .next { u with a := v, flags := f } ∧
    exec (.ldx m) s = .next { u with x := v, flags := f } ∧
    exec (.ldy m) s = .next { u with y := v, flags := f } ∧
    exec (.lax m) s = .next { u with a := v, x := v, flags := f }) ∧
  FaultsUnlessLoadable .lda ∧ FaultsUnlessLoadable .ldx ∧ FaultsUnlessLoadable .ldy ∧
  FaultsUnlessLoadable .lax

/-- R143, R144, R145, R251: STA, STX, STY and SAX store A, X, Y and `A and X` through their operand,
which is not read, and write no register and no flag. They complete whenever the operand can be
stored to, and otherwise fault. -/
def Obligations.StoreInstructions : Prop :=
  modesOf .sta = [(.zeroPage, 0x85), (.zeroPageX, 0x95), (.absolute, 0x8D), (.absoluteX, 0x9D),
    (.absoluteY, 0x99), (.indexedIndirect, 0x81), (.indirectIndexed, 0x91)] ∧
  modesOf .stx = [(.zeroPage, 0x86), (.zeroPageY, 0x96), (.absolute, 0x8E)] ∧
  modesOf .sty = [(.zeroPage, 0x84), (.zeroPageX, 0x94), (.absolute, 0x8C)] ∧
  modesOf .sax = [(.zeroPage, 0x87), (.zeroPageY, 0x97), (.absolute, 0x8F),
    (.indexedIndirect, 0x83)] ∧
  (∀ (m : Mode) (s : State) (ea : Word), operandRef m s = .mem ea → storable m s = true →
    let u := afterResolve m s
    exec (.sta m) s = .next (u.afterWrite ea s.a) ∧
    exec (.stx m) s = .next (u.afterWrite ea s.x) ∧
    exec (.sty m) s = .next (u.afterWrite ea s.y) ∧
    exec (.sax m) s = .next (u.afterWrite ea (s.a &&& s.x))) ∧
  FaultsUnlessStorable .sta ∧ FaultsUnlessStorable .stx ∧ FaultsUnlessStorable .sty ∧
  FaultsUnlessStorable .sax

/-- R146 to R151: the register transfers; all but TXS set Z and N from the byte moved. -/
def Obligations.TransferInstructions : Prop :=
  Instr.tax.opcode = some 0xAA ∧ Instr.tay.opcode = some 0xA8 ∧ Instr.txa.opcode = some 0x8A ∧
  Instr.tya.opcode = some 0x98 ∧ Instr.tsx.opcode = some 0xBA ∧ Instr.txs.opcode = some 0x9A ∧
  ∀ s : State,
    let f := fun v : Byte =>
      { s.flags with z := decide (v.toNat = 0), n := decide (128 ≤ v.toNat) }
    exec .tax s = .next { s with x := s.a, flags := f s.a } ∧
    exec .tay s = .next { s with y := s.a, flags := f s.a } ∧
    exec .txa s = .next { s with a := s.x, flags := f s.x } ∧
    exec .tya s = .next { s with a := s.y, flags := f s.y } ∧
    exec .tsx s = .next { s with x := s.sp, flags := f s.sp } ∧
    exec .txs s = .next { s with sp := s.x }

/-! ### Arithmetic and logic -/

/-- R161, R162: ADC adds the operand and C to A, in binary or, with D set, with the per-nibble
correction of DecAdd; C, V, Z and N are written, V from the binary sum in both modes and equal to
signed overflow, and everything else is as the operand's access left it. In decimal mode the result
and which value each flag comes from are the spec's own decision D13. -/
def Obligations.AdcAddsWithCarry : Prop :=
  modesOf .adc = [(.immediate, 0x69), (.zeroPage, 0x65), (.zeroPageX, 0x75), (.absolute, 0x6D),
    (.absoluteX, 0x7D), (.absoluteY, 0x79), (.indexedIndirect, 0x61), (.indirectIndexed, 0x71)] ∧
  (∀ (m : Mode) (s : State), loadable m s = true →
    let a := s.a.toNat
    let M := (operandValue m s).toNat
    let c := s.flags.c.toNat
    let sum := a + M + c
    let al := a % 16 + M % 16 + c
    let al' := if 10 ≤ al then (al + 6) % 16 + 16 else al
    let t := a / 16 * 16 + M / 16 * 16 + al'
    let t' := if 160 ≤ t then t + 96 else t
    ∃ (r : Byte) (f : Flags), exec (.adc m) s = .next { afterLoad m s with a := r, flags := f } ∧
      (s.flags.d = false → r.toNat = sum % 256 ∧ f.c = decide (256 ≤ sum)) ∧
      (s.flags.d = true → r.toNat = t' % 256 ∧ f.c = decide (256 ≤ t')) ∧
      f.v = decide ((128 ≤ a ↔ 128 ≤ M) ∧ ¬(128 ≤ a ↔ 128 ≤ sum % 256)) ∧
      f.v = decide (s.a.toInt + (operandValue m s).toInt + c < -128 ∨
        127 < s.a.toInt + (operandValue m s).toInt + c) ∧
      f.z = decide (r.toNat = 0) ∧ f.n = decide (128 ≤ r.toNat) ∧
      f.i = s.flags.i ∧ f.d = s.flags.d ∧ f.b = s.flags.b) ∧
  FaultsUnlessLoadable .adc

/-- R163, R164: SBC subtracts the operand and the borrow from A, in binary or, with D set, with the
correction of DecSub; C (no borrow) and V come from the binary difference in both modes, Z and N
from the byte. Decimal subtraction is the spec's own decision D13. -/
def Obligations.SbcSubtractsWithBorrow : Prop :=
  modesOf .sbc = [(.immediate, 0xE9), (.zeroPage, 0xE5), (.zeroPageX, 0xF5), (.absolute, 0xED),
    (.absoluteX, 0xFD), (.absoluteY, 0xF9), (.indexedIndirect, 0xE1), (.indirectIndexed, 0xF1)] ∧
  (∀ (m : Mode) (s : State), loadable m s = true →
    let a := s.a.toNat
    let M := (operandValue m s).toNat
    let c := s.flags.c.toNat
    let diff := a + (255 - M) + c
    let al : Int := (a % 16 : Nat) - (M % 16 : Nat) + (c : Nat) - 1
    let al' : Int := if al < 0 then (al - 6) % 16 - 16 else al
    let t : Int := (a / 16 * 16 : Nat) - (M / 16 * 16 : Nat) + al'
    let t' : Int := if t < 0 then t - 96 else t
    ∃ (r : Byte) (f : Flags), exec (.sbc m) s = .next { afterLoad m s with a := r, flags := f } ∧
      (s.flags.d = false → r.toNat = diff % 256) ∧
      (s.flags.d = true → (r.toNat : Int) = t' % 256) ∧
      f.c = decide (M + 1 ≤ a + c) ∧
      f.v = decide (¬(128 ≤ a ↔ 128 ≤ M) ∧ ¬(128 ≤ a ↔ 128 ≤ diff % 256)) ∧
      f.z = decide (r.toNat = 0) ∧ f.n = decide (128 ≤ r.toNat) ∧
      f.i = s.flags.i ∧ f.d = s.flags.d ∧ f.b = s.flags.b) ∧
  FaultsUnlessLoadable .sbc

/-- From R162 and R164: on valid BCD operands decimal ADC and SBC are addition and subtraction of
two-digit numbers, with C the hundreds carry and the absence of a borrow (the algorithms are the
spec's own decision D13). -/
def Obligations.DecimalModeIsBcdArithmetic : Prop :=
  ∀ (s : State) (M : Byte), s.flags.d = true →
    s.a.toNat % 16 < 10 → s.a.toNat / 16 < 10 → M.toNat % 16 < 10 → M.toNat / 16 < 10 →
      let bcd := fun n : Nat => n / 16 * 10 + n % 16
      let x := bcd s.a.toNat
      let y := bcd M.toNat
      (∃ t, exec (.adc (.immediate M)) s = .next t ∧
        bcd t.a.toNat = (x + y + s.flags.c.toNat) % 100 ∧ t.a.toNat % 16 < 10 ∧
        t.a.toNat / 16 < 10 ∧ t.flags.c = decide (100 ≤ x + y + s.flags.c.toNat)) ∧
      ∃ t, exec (.sbc (.immediate M)) s = .next t ∧
        bcd t.a.toNat = (x + 100 + s.flags.c.toNat - 1 - y) % 100 ∧ t.a.toNat % 16 < 10 ∧
        t.a.toNat / 16 < 10 ∧ t.flags.c = decide (y + 1 ≤ x + s.flags.c.toNat)

/-- From R163: in binary mode SBC is ADC of the one's complement of its operand, in A and in every
flag. -/
def Obligations.SbcIsAdcOfComplement : Prop :=
  ∀ (s : State) (M : Byte), s.flags.d = false →
    exec (.sbc (.immediate M)) s = exec (.adc (.immediate (M ^^^ 0xFF))) s

/-- R165, R166, R167: AND, ORA and EOR combine A with the operand bit by bit and set Z and N from the
result; no other flag. -/
def Obligations.LogicInstructions : Prop :=
  modesOf .and = [(.immediate, 0x29), (.zeroPage, 0x25), (.zeroPageX, 0x35), (.absolute, 0x2D),
    (.absoluteX, 0x3D), (.absoluteY, 0x39), (.indexedIndirect, 0x21), (.indirectIndexed, 0x31)] ∧
  modesOf .ora = [(.immediate, 0x09), (.zeroPage, 0x05), (.zeroPageX, 0x15), (.absolute, 0x0D),
    (.absoluteX, 0x1D), (.absoluteY, 0x19), (.indexedIndirect, 0x01), (.indirectIndexed, 0x11)] ∧
  modesOf .eor = [(.immediate, 0x49), (.zeroPage, 0x45), (.zeroPageX, 0x55), (.absolute, 0x4D),
    (.absoluteX, 0x5D), (.absoluteY, 0x59), (.indexedIndirect, 0x41), (.indirectIndexed, 0x51)] ∧
  (∀ (m : Mode) (s : State), loadable m s = true →
    let result := fun r : Byte => Host.Outcome.next (φ := Fault) (ρ := Refusal)
      { afterLoad m s with
        a := r
        flags := { s.flags with z := decide (r.toNat = 0), n := decide (128 ≤ r.toNat) } }
    exec (.and m) s = result (s.a &&& operandValue m s) ∧
    exec (.ora m) s = result (s.a ||| operandValue m s) ∧
    exec (.eor m) s = result (s.a ^^^ operandValue m s)) ∧
  FaultsUnlessLoadable .and ∧ FaultsUnlessLoadable .ora ∧ FaultsUnlessLoadable .eor

/-- R168, R169, R170, R252: CMP, CPX and CPY compare A, X and Y with the operand, unsigned, whatever
C and D were: C, Z and N are written and no register is; AXS does the same for `A and X` with its
immediate and leaves the difference in X. -/
def Obligations.CompareInstructions : Prop :=
  modesOf .cmp = [(.immediate, 0xC9), (.zeroPage, 0xC5), (.zeroPageX, 0xD5), (.absolute, 0xCD),
    (.absoluteX, 0xDD), (.absoluteY, 0xD9), (.indexedIndirect, 0xC1), (.indirectIndexed, 0xD1)] ∧
  modesOf .cpx = [(.immediate, 0xE0), (.zeroPage, 0xE4), (.absolute, 0xEC)] ∧
  modesOf .cpy = [(.immediate, 0xC0), (.zeroPage, 0xC4), (.absolute, 0xCC)] ∧
  (∀ imm, (Instr.axs imm).opcode = some 0xCB) ∧
  (∀ (m : Mode) (s : State), loadable m s = true →
    let M := operandValue m s
    let f := fun r : Byte => { s.flags with
      c := decide (M.toNat ≤ r.toNat), z := decide (r = M),
      n := decide (128 ≤ (r.toNat + 256 - M.toNat) % 256) }
    exec (.cmp m) s = .next { afterLoad m s with flags := f s.a } ∧
    exec (.cpx m) s = .next { afterLoad m s with flags := f s.x } ∧
    exec (.cpy m) s = .next { afterLoad m s with flags := f s.y }) ∧
  (∀ (imm : Byte) (s : State),
    let t := s.a &&& s.x
    ∃ r : Byte, r.toNat = (t.toNat + 256 - imm.toNat) % 256 ∧
      exec (.axs imm) s = .next { s with
        x := r
        flags := { s.flags with
          c := decide (imm.toNat ≤ t.toNat), z := decide (r.toNat = 0),
          n := decide (128 ≤ r.toNat) } }) ∧
  FaultsUnlessLoadable .cmp ∧ FaultsUnlessLoadable .cpx ∧ FaultsUnlessLoadable .cpy

/-- R171: BIT takes Z from `A and M`, and N and V from bits 7 and 6 of M; A and C stay. -/
def Obligations.BitTest : Prop :=
  modesOf .bit = [(.zeroPage, 0x24), (.absolute, 0x2C)] ∧
  (∀ (m : Mode) (s : State), loadable m s = true →
    let M := operandValue m s
    exec (.bit m) s = .next { afterLoad m s with flags := { s.flags with
      z := decide ((s.a &&& M).toNat = 0), n := decide (128 ≤ M.toNat),
      v := decide (64 ≤ M.toNat % 128) } }) ∧
  FaultsUnlessLoadable .bit

/-- R172, R173: INC and DEC load their operand once, store it plus or minus 1 modulo 256 once to the
same address, and set Z and N from the new value; C and V stay. -/
def Obligations.MemoryIncrements : Prop :=
  modesOf .inc = [(.zeroPage, 0xE6), (.zeroPageX, 0xF6), (.absolute, 0xEE), (.absoluteX, 0xFE)] ∧
  modesOf .dec = [(.zeroPage, 0xC6), (.zeroPageX, 0xD6), (.absolute, 0xCE), (.absoluteX, 0xDE)] ∧
  (∀ (m : Mode) (s : State) (ea : Word), operandRef m s = .mem ea → storable m s = true →
    let M := operandValue m s
    let result := fun v : Byte => Host.Outcome.next (φ := Fault) (ρ := Refusal)
      { (afterLoad m s).afterWrite ea v with
        flags := { s.flags with z := decide (v.toNat = 0), n := decide (128 ≤ v.toNat) } }
    exec (.inc m) s = result (BitVec.ofNat 8 (M.toNat + 1)) ∧
    exec (.dec m) s = result (BitVec.ofNat 8 (M.toNat + 255))) ∧
  FaultsUnlessStorable .inc ∧ FaultsUnlessStorable .dec

/-- R174 to R177: INX, INY, DEX and DEY add or subtract 1 modulo 256 and set Z and N; C and V
stay. -/
def Obligations.RegisterIncrements : Prop :=
  Instr.inx.opcode = some 0xE8 ∧ Instr.iny.opcode = some 0xC8 ∧ Instr.dex.opcode = some 0xCA ∧
  Instr.dey.opcode = some 0x88 ∧
  ∀ s : State,
    let f := fun v : Byte =>
      { s.flags with z := decide (v.toNat = 0), n := decide (128 ≤ v.toNat) }
    let up := fun v : Byte => BitVec.ofNat 8 (v.toNat + 1)
    let down := fun v : Byte => BitVec.ofNat 8 (v.toNat + 255)
    exec .inx s = .next { s with x := up s.x, flags := f (up s.x) } ∧
    exec .iny s = .next { s with y := up s.y, flags := f (up s.y) } ∧
    exec .dex s = .next { s with x := down s.x, flags := f (down s.x) } ∧
    exec .dey s = .next { s with y := down s.y, flags := f (down s.y) }

/-- R190 to R193: ASL, LSR, ROL and ROR move the accumulator or a memory byte by one bit, the bit
moved out going to C, and a 0 or the old C moving in; Z and N from the result, V stays; the memory
forms load once and store once to the same address. -/
def Obligations.ShiftInstructions : Prop :=
  modesOf .asl = [(.accumulator, 0x0A), (.zeroPage, 0x06), (.zeroPageX, 0x16), (.absolute, 0x0E),
    (.absoluteX, 0x1E)] ∧
  modesOf .lsr = [(.accumulator, 0x4A), (.zeroPage, 0x46), (.zeroPageX, 0x56), (.absolute, 0x4E),
    (.absoluteX, 0x5E)] ∧
  modesOf .rol = [(.accumulator, 0x2A), (.zeroPage, 0x26), (.zeroPageX, 0x36), (.absolute, 0x2E),
    (.absoluteX, 0x3E)] ∧
  modesOf .ror = [(.accumulator, 0x6A), (.zeroPage, 0x66), (.zeroPageX, 0x76), (.absolute, 0x6E),
    (.absoluteX, 0x7E)] ∧
  (∀ (m : Mode) (s : State), storable m s = true →
    let v := operandValue m s
    let c := s.flags.c.toNat
    let result := fun (out : Bool) (n : Nat) => Host.Outcome.next (φ := Fault) (ρ := Refusal)
      { storedThrough m s (BitVec.ofNat 8 n) (afterLoad m s) with
        flags := { s.flags with
          c := out, z := decide (n % 256 = 0), n := decide (128 ≤ n % 256) } }
    exec (.asl m) s = result (decide (128 ≤ v.toNat)) (v.toNat * 2) ∧
    exec (.lsr m) s = result (decide (v.toNat % 2 = 1)) (v.toNat / 2) ∧
    exec (.rol m) s = result (decide (128 ≤ v.toNat)) (v.toNat * 2 + c) ∧
    exec (.ror m) s = result (decide (v.toNat % 2 = 1)) (v.toNat / 2 + 128 * c)) ∧
  (∀ s : State, storable (.register .a) s = true ∧ operandValue (.register .a) s = s.a ∧
    ∀ r, storedThrough (.register .a) s r (afterLoad (.register .a) s) = { s with a := r }) ∧
  (∀ (m : Mode) (s t : State) (ea : Word) (r : Byte), operandRef m s = .mem ea →
    storedThrough m s r t = t.afterWrite ea r) ∧
  FaultsUnlessStorable .asl ∧ FaultsUnlessStorable .lsr ∧ FaultsUnlessStorable .rol ∧
  FaultsUnlessStorable .ror

/-! ### Control flow -/

/-- R201, R131: JMP goes to its operand, or through the pointer at its operand; the pointer's high
address is the spec's own decision D3, kept as a parameter and stated for both values (log 13);
nothing is written but the pc, the target is not read, and only the
pointer's two reads can fault. -/
def Obligations.JmpGoesToTarget : Prop :=
  modesOf .jmp = [(.absolute, 0x4C), (.indirect, 0x6C)] ∧
  (∀ (w : Word) (s : State), exec (.jmp (.absolute w)) s = .next { s with pc := w }) ∧
  ∀ (ptr : Word) (s : State),
    let hi := if s.cfg.jmpIndirectPageWrap then mkWord (hiByte ptr) (loByte ptr + 1) else ptr + 1
    (s.pairMounted ptr hi = true → exec (.jmp (.indirect ptr)) s =
      .next { s.afterPair ptr hi with pc := s.pairValue ptr hi }) ∧
    (s.pairMounted ptr hi = false → FaultsAt s [.read ptr, .read hi] (exec (.jmp (.indirect ptr)) s))

/-- R202, R203: JSR pushes the address of its own last byte, high byte first, and jumps; RTS pulls
two bytes, low byte first, and goes to the address plus 1; no flag and no other register is
written. The return-address convention is the spec's own decision D12. -/
def Obligations.JsrAndRts : Prop :=
  (∀ w, (Instr.jsr w).opcode = some 0x20) ∧ Instr.rts.opcode = some 0x60 ∧
  (∀ (target : Word) (s : State),
    let ret := s.pc - 1
    (s.pushable 2 = true → exec (.jsr target) s =
      .next { (s.afterWrite (s.cfg.stackAddr s.sp) (hiByte ret)).afterWrite
                (s.cfg.stackAddr (s.sp - 1)) (loByte ret) with sp := s.sp - 2, pc := target }) ∧
    (s.pushable 2 = false →
      FaultsAt s [.write (s.cfg.stackAddr s.sp), .write (s.cfg.stackAddr (s.sp - 1))]
        (exec (.jsr target) s))) ∧
  ∀ s : State,
    let u := { s with sp := s.sp + 2 }
    let lo := s.cfg.stackAddr (s.sp + 1)
    let hi := s.cfg.stackAddr (s.sp + 2)
    (s.pullable 2 = true → exec .rts s =
      .next { u.afterPair lo hi with pc := u.pairValue lo hi + 1 }) ∧
    (s.pullable 2 = false → FaultsAt s [.read lo, .read hi] (exec .rts s))

/-- From R202 and R203: an RTS right after a JSR on a RAM stack resumes at the byte after the JSR,
with SP, the flags and the registers as they were. -/
def Obligations.RtsReturnsAfterJsr : Prop :=
  ∀ (s t : State) (target : Word) (k k' : Nat), Memory.wf s.mem →
    s.target (s.cfg.stackAddr s.sp) = some (.ram k) →
    s.target (s.cfg.stackAddr (s.sp - 1)) = some (.ram k') → k ≠ k' → exec (.jsr target) s = .next t →
      exec .rts t = .next { s with mem := t.mem }

/-- R204 to R211: a conditional branch goes to the post-advance pc plus its signed offset,
modulo 65536, iff the tested flag has the tested value, and writes nothing but the pc. -/
def Obligations.BranchInstructions : Prop :=
  (∀ o, (Instr.bcc o).opcode = some 0x90 ∧ (Instr.bcs o).opcode = some 0xB0 ∧
    (Instr.beq o).opcode = some 0xF0 ∧ (Instr.bne o).opcode = some 0xD0 ∧
    (Instr.bmi o).opcode = some 0x30 ∧ (Instr.bpl o).opcode = some 0x10 ∧
    (Instr.bvc o).opcode = some 0x50 ∧ (Instr.bvs o).opcode = some 0x70) ∧
  ∀ (off : Byte) (s : State),
    let go := fun taken : Bool => Host.Outcome.next (φ := Fault) (ρ := Refusal)
      (if taken then { s with pc := BitVec.ofInt 16 (s.pc.toNat + off.toInt) } else s)
    exec (.bcc off) s = go (!s.flags.c) ∧ exec (.bcs off) s = go s.flags.c ∧
    exec (.beq off) s = go s.flags.z ∧ exec (.bne off) s = go (!s.flags.z) ∧
    exec (.bmi off) s = go s.flags.n ∧ exec (.bpl off) s = go (!s.flags.n) ∧
    exec (.bvc off) s = go (!s.flags.v) ∧ exec (.bvs off) s = go s.flags.v

/-! ### Stack and flags -/

/-- R220 to R223: PHA pushes A; PHP pushes the flag byte with bits 5 and 4 set; PLA pulls A and sets Z
and N; PLP pulls the six flags and keeps B; SP moves by one and nothing else is written. The flag
byte and the pull are the spec's own decisions D10 and D12. -/
def Obligations.PushAndPullInstructions : Prop :=
  Instr.pha.opcode = some 0x48 ∧ Instr.php.opcode = some 0x08 ∧ Instr.pla.opcode = some 0x68 ∧
  Instr.plp.opcode = some 0x28 ∧
  ∀ s : State,
    let u := { s with sp := s.sp + 1 }
    let cell := s.cfg.stackAddr (s.sp + 1)
    let p := u.valueAt cell
    (s.pushable 1 = true →
      exec .pha s = .next { s.afterWrite (s.cfg.stackAddr s.sp) s.a with sp := s.sp - 1 } ∧
      exec .php s =
        .next { s.afterWrite (s.cfg.stackAddr s.sp) (s.flags.toByte true) with sp := s.sp - 1 }) ∧
    (s.pushable 1 = false → FaultsAt s [.write (s.cfg.stackAddr s.sp)] (exec .pha s) ∧
      FaultsAt s [.write (s.cfg.stackAddr s.sp)] (exec .php s)) ∧
    (s.pullable 1 = true →
      exec .pla s = .next { u.afterRead cell with
        a := p
        flags := { s.flags with z := decide (p.toNat = 0), n := decide (128 ≤ p.toNat) } } ∧
      exec .plp s = .next { u.afterRead cell with
        flags := { n := p.getLsbD 7, v := p.getLsbD 6, d := p.getLsbD 3, i := p.getLsbD 2,
                   z := p.getLsbD 1, c := p.getLsbD 0, b := s.flags.b } }) ∧
    (s.pullable 1 = false → FaultsAt s [.read cell] (exec .pla s) ∧
      FaultsAt s [.read cell] (exec .plp s))

/-- From R221 and R223: PHP then PLP on a RAM stack leaves every flag and SP as they were. -/
def Obligations.PhpThenPlpKeepsFlags : Prop :=
  ∀ (s t : State) (k : Nat), Memory.wf s.mem → s.target (s.cfg.stackAddr s.sp) = some (.ram k) →
    exec .php s = .next t → exec .plp t = .next { s with mem := t.mem }

/-- R224 to R230: each flag instruction writes its one flag and nothing else. -/
def Obligations.FlagInstructions : Prop :=
  Instr.clc.opcode = some 0x18 ∧ Instr.sec.opcode = some 0x38 ∧ Instr.cli.opcode = some 0x58 ∧
  Instr.sei.opcode = some 0x78 ∧ Instr.cld.opcode = some 0xD8 ∧ Instr.sed.opcode = some 0xF8 ∧
  Instr.clv.opcode = some 0xB8 ∧
  ∀ s : State,
    exec .clc s = .next { s with flags := { s.flags with c := false } } ∧
    exec .sec s = .next { s with flags := { s.flags with c := true } } ∧
    exec .cli s = .next { s with flags := { s.flags with i := false } } ∧
    exec .sei s = .next { s with flags := { s.flags with i := true } } ∧
    exec .cld s = .next { s with flags := { s.flags with d := false } } ∧
    exec .sed s = .next { s with flags := { s.flags with d := true } } ∧
    exec .clv s = .next { s with flags := { s.flags with v := false } }

/-! ### System -/

/-- R240, R274, R241: BRK sets the stored B and enters through 0xFFFE with bit 4 set in the pushed
byte, whatever I is; RTI pulls the six flags and then the pc, low byte first, with no adjustment.
The return address, setting I and RTI's order are the spec's own decisions D11, D9 and D12. -/
def Obligations.BrkAndRti : Prop :=
  Instr.brk.opcode = some 0x00 ∧ Instr.rti.opcode = some 0x40 ∧
  ∀ s : State,
    (s.pushable 3 = true → s.pairMounted 0xFFFE 0xFFFF = true → exec .brk s =
      .next (State.entered { s with flags := { s.flags with b := true } } 0xFFFE true)) ∧
    (s.pushable 3 = false ∨ s.pairMounted 0xFFFE 0xFFFF = false →
      FaultsAt s (s.entryAccesses 0xFFFE) (exec .brk s)) ∧
    (s.pullable 3 = true →
      let u := ({ s with sp := s.sp + 1 }).afterRead (s.cfg.stackAddr (s.sp + 1))
      let p := s.valueAt (s.cfg.stackAddr (s.sp + 1))
      let t := { u with sp := s.sp + 3 }
      let lo := s.cfg.stackAddr (s.sp + 2)
      let hi := s.cfg.stackAddr (s.sp + 3)
      exec .rti s = .next { t.afterPair lo hi with
        pc := t.pairValue lo hi
        flags := { n := p.getLsbD 7, v := p.getLsbD 6, d := p.getLsbD 3, i := p.getLsbD 2,
                   z := p.getLsbD 1, c := p.getLsbD 0, b := s.flags.b } }) ∧
    (s.pullable 3 = false → FaultsAt s [.read (s.cfg.stackAddr (s.sp + 1)),
      .read (s.cfg.stackAddr (s.sp + 2)), .read (s.cfg.stackAddr (s.sp + 3))] (exec .rti s))

/-- R242: NOP executes without any effect, the pc having been advanced by 1; so does an unmapped
byte. -/
def Obligations.NopAndUnmappedDoNothing : Prop :=
  Instr.nop.opcode = some 0xEA ∧ Instr.nop.length = 1 ∧ ∀ s : State, exec .nop s = .next s ∧
    ∀ op, exec (.unmapped op) s = .next s ∧ (Instr.unmapped op).length = 1

/-- From R271, R272 and R277: an NMI whose handler is an RTI resumes exactly where it was taken: the
pc, SP, every flag and A, X, Y are as before. -/
def Obligations.NmiThenRtiResumes : Prop :=
  ∀ (s : State), s.driver = [.present ⟨false, true, false⟩] → s.started = true →
    Memory.wf s.mem → s.stackRam → s.pairMounted 0xFFFA 0xFFFB = true →
    fetch (State.entered { s with driver := [] } 0xFFFA false) = .ok .rti →
      ∃ u, Host.Core.run Sys2Proof.core 2 s = .next u ∧ u.pc = s.pc ∧ u.sp = s.sp ∧
        u.flags = s.flags ∧ u.a = s.a ∧ u.x = s.x ∧ u.y = s.y

/-! ### Frames -/

/-- R21, R22, R23: A, X and Y are written only by the instructions these rules list, and SP moves only
by the bytes an instruction pushes or pulls, TXS apart. -/
def Obligations.RegistersWrittenOnlyByListed : Prop :=
  ∀ (i : Instr) (s t : State), i.wellFormed = true → exec i s = .next t →
    ((writes i).a = false → t.a = s.a) ∧ ((writes i).x = false → t.x = s.x) ∧
    ((writes i).y = false → t.y = s.y) ∧ (i ≠ .txs → t.sp = s.sp + (writes i).sp)

/-- R27, R28, R30: a flag is written only by the instructions listed for it; in particular the stored
B only by BRK. -/
def Obligations.FlagsWrittenOnlyByListed : Prop :=
  ∀ (i : Instr) (s t : State), exec i s = .next t →
    ((writes i).c = false → t.flags.c = s.flags.c) ∧
    ((writes i).zn = false → t.flags.z = s.flags.z ∧ t.flags.n = s.flags.n) ∧
    ((writes i).i = false → t.flags.i = s.flags.i) ∧
    ((writes i).d = false → t.flags.d = s.flags.d) ∧
    ((writes i).v = false → t.flags.v = s.flags.v) ∧
    t.flags.b = (if i = .brk then true else s.flags.b)

/-- R66, R67, R135: an instruction changes no byte but those at the addresses it stores to (through
any mirror of theirs); the timing device keeps every register whose port it does not store to, and
its status register and counters always; the write toggle can only be reset unless the instruction
stores to port 5 or 6; the configuration and the driver's actions stay. That a status read leaves
VBlank set is the spec's own decision D26 (log 15). -/
def Obligations.MemoryAndDeviceFrame : Prop :=
  ∀ (i : Instr) (s t : State), wellFormedMap s.cfg.map → exec i s = .next t →
    (∀ b, (∀ a ∈ storesTo i s, s.target a ≠ s.target b) → t.byteAt b = s.byteAt b) ∧
    (∀ p, (∀ a ∈ storesTo i s, s.target a ≠ some (.port p)) →
      t.dev.register p = s.dev.register p) ∧
    t.dev.status = s.dev.status ∧ t.dev.scanline = s.dev.scanline ∧ t.dev.cycle = s.dev.cycle ∧
    ((∀ a ∈ storesTo i s, s.target a ≠ some (.port .scroll) ∧ s.target a ≠ some (.port .address)) →
      t.dev.w = true → s.dev.w = true) ∧
    t.cfg = s.cfg ∧ t.driver = s.driver ∧ t.started = s.started

/-! ### Whole-machine rules -/

/-- The state right after reset satisfies the invariant, and is what a reset event makes of the
machine just built (log 3, log 4 and log 5 name the values the spec leaves open). -/
def Obligations.ResetStateIsSound : Prop :=
  State.reset.Inv ∧
  ∀ p pc, resetEvent (State.constructed defaultConfig [] 0 0 0 p pc) = .ok State.reset

/-- Every step keeps the invariant: the configuration well-formed, memory in its canonical form,
status bits 6 to 0 zero (R286), the counters in range (R37). -/
def Obligations.InvariantKeptByStep : Prop :=
  ∀ s t : State, s.Inv → step s = .next t → t.Inv

/-- R39, R60: no step changes the configuration or a ROM: its bytes read the same, and what is
fetched from it is the same. That a ROM write changes nothing is the spec's own decision D18. -/
def Obligations.RomAndConfigNeverChange : Prop :=
  ∀ s t : State, wellFormedMap s.cfg.map → step s = .next t →
    t.cfg = s.cfg ∧
    ∀ (a : Word) (m : Mount) (n : Nat), lookup s.cfg.map a = some m → m.dev = .rom n →
      t.byteAt a = s.byteAt a ∧ ∀ k, busSlice a k t = busSlice a k s

/-- R34: the stored Break flag influences no other state. Replacing it before any step, of the CPU or
of the driver, changes nothing after the step but that flag, so nothing an entry or PHP pushes; BRK
sets it and a reset event clears it whatever it was, and every other step keeps it; a stop is the
same stop. The same holds of every instruction by itself. That B is kept apart from the pushed bit 4
is the spec's own decision D10. -/
def Obligations.BreakFlagUnobservable : Prop :=
  (∀ (s : State) (v : Bool),
    (∀ t, step s = .next t → t.flags.b = breakAfter s s.flags.b ∧
      step (s.withBreak v) = .next (t.withBreak (breakAfter s v))) ∧
    stopOf (step (s.withBreak v)) = stopOf (step s)) ∧
  ∀ (i : Instr) (s : State) (v : Bool),
    (∀ t, exec i s = .next t →
      exec i (s.withBreak v) = .next (t.withBreak (if i = .brk then true else v))) ∧
    stopOf (exec i (s.withBreak v)) = stopOf (exec i s)
end

