-- ==== Sys2Proof/Laws/Bits.lean ====
section
/-! SUPPORT. Byte order, widening and the stack address, as numbers. -/

namespace Sys2Proof

@[simp] theorem zext16_toNat (v : Byte) : (zext16 v).toNat = v.toNat := by
  have := v.isLt
  simp [zext16]; omega

@[simp] theorem mkWord_toNat (h l : Byte) : (mkWord h l).toNat = h.toNat * 256 + l.toNat := by
  have := l.isLt
  show (h ++ l : BitVec (8 + 8)).toNat = _
  rw [BitVec.toNat_append, ← Nat.shiftLeft_add_eq_or_of_lt this, Nat.shiftLeft_eq]

@[simp] theorem hiByte_toNat (w : Word) : (hiByte w).toNat = w.toNat / 256 := by
  have := w.isLt
  simp [hiByte, BitVec.extractLsb'_toNat, Nat.shiftRight_eq_div_pow]
  omega

@[simp] theorem loByte_toNat (w : Word) : (loByte w).toNat = w.toNat % 256 := by
  simp [loByte, BitVec.extractLsb'_toNat]

@[simp] theorem mkWord_hiByte_loByte (w : Word) : mkWord (hiByte w) (loByte w) = w :=
  BitVec.eq_of_toNat_eq (by simp; omega)

@[simp] theorem hiByte_mkWord (h l : Byte) : hiByte (mkWord h l) = h :=
  BitVec.eq_of_toNat_eq (by have := l.isLt; simp; omega)

@[simp] theorem loByte_mkWord (h l : Byte) : loByte (mkWord h l) = l :=
  BitVec.eq_of_toNat_eq (by have := l.isLt; simp; omega)

namespace Machine

/-- With the spec's `STACK_BASE` the stack cell is in 0x0100 to 0x01FF (10_state.md R23). -/
theorem Config.stackAddr_toNat {c : Config} (h : c.stackBase = 0x0100) (sp : Byte) :
    (c.stackAddr sp).toNat = 256 + sp.toNat := by
  have := sp.isLt
  simp [Config.stackAddr, h]
  omega

end Machine

end Sys2Proof
end

