-- ==== Sys2Proof/Laws/Memory.lean ====
section
/-! SUPPORT. Memory laws: a read after a write, and that a write keeps the canonical form. -/

namespace Sys2Proof.Machine

@[simp] theorem Memory.get_nil (a : Nat) : Memory.get [] a = unlistedByte := rfl

theorem Memory.get_cons (k : Nat) (w : Byte) (rest : Memory) (a : Nat) :
    Memory.get ((k, w) :: rest) a = if k = a then w else Memory.get rest a := rfl

/-- An address below every entry is unlisted. -/
theorem Memory.get_of_lt {m : Memory} {a : Nat} (h : ∀ p ∈ m, a < p.1) :
    Memory.get m a = unlistedByte := by
  induction m with
  | nil => rfl
  | cons p rest ih =>
    have hp := h p List.mem_cons_self
    rw [Memory.get_cons, if_neg (by omega)]
    exact ih fun q hq => h q (List.mem_cons_of_mem _ hq)

/-- A write leaves every other address alone, whatever the list. -/
theorem Memory.get_set_ne (m : Memory) {a b : Nat} (v : Byte) (h : b ≠ a) :
    Memory.get (Memory.set m a v) b = Memory.get m b := by
  induction m with
  | nil => by_cases hv : v = unlistedByte <;> simp [Memory.set, Memory.get, hv, h.symm]
  | cons p rest ih =>
    obtain ⟨k, w⟩ := p
    simp only [Memory.set]
    split
    · rw [Memory.get_cons, Memory.get_cons, ih]
    · by_cases hk : k = a <;> by_cases hv : v = unlistedByte <;>
        simp [Memory.get, hk, hv, h.symm]

/-- In a canonical memory a read after a write to the same address gives the value written. -/
theorem Memory.get_set_same {m : Memory} (h : Memory.wf m) (a : Nat) (v : Byte) :
    Memory.get (Memory.set m a v) a = v := by
  induction m with
  | nil => by_cases hv : v = unlistedByte <;> simp [Memory.set, Memory.get, hv]
  | cons p rest ih =>
    obtain ⟨k, w⟩ := p
    obtain ⟨hs, hu⟩ := h
    rw [List.pairwise_cons] at hs
    have hrest : Memory.wf rest := ⟨hs.2, fun q hq => hu q (List.mem_cons_of_mem _ hq)⟩
    simp only [Memory.set]
    split
    · rename_i hlt
      rw [Memory.get_cons, if_neg (by omega), ih hrest]
    · rename_i hge
      have hbelow : ∀ q ∈ rest, a < q.1 := fun q hq => by have := hs.1 q hq; simp at this; omega
      by_cases hk : k = a
      · by_cases hv : v = unlistedByte
        · simp [hk, hv, Memory.get_of_lt hbelow]
        · simp [hk, hv, Memory.get]
      · by_cases hv : v = unlistedByte
        · simp [hk, hv, Memory.get, Memory.get_of_lt hbelow]
        · simp [hk, hv, Memory.get]

/-- Every entry of a written memory is the one written or an old one. -/
theorem Memory.mem_set {m : Memory} {a : Nat} {v : Byte} {p : Host.Cell}
    (h : p ∈ Memory.set m a v) : p = (a, v) ∧ v ≠ unlistedByte ∨ p ∈ m := by
  induction m with
  | nil => by_cases hv : v = unlistedByte <;> simp_all [Memory.set]
  | cons q rest ih =>
    obtain ⟨k, w⟩ := q
    simp only [Memory.set] at h
    split at h
    · rcases List.mem_cons.mp h with h | h
      · exact .inr (h ▸ List.mem_cons_self)
      · exact (ih h).imp_right (List.mem_cons_of_mem _)
    · by_cases hk : k = a <;> by_cases hv : v = unlistedByte <;> (simp_all; try tauto)

/-- A write keeps the canonical form. -/
theorem Memory.set_wf {m : Memory} (h : Memory.wf m) (a : Nat) (v : Byte) :
    Memory.wf (Memory.set m a v) := by
  refine ⟨?_, fun p hp => ?_⟩
  · obtain ⟨hs, -⟩ := h
    induction m with
    | nil => by_cases hv : v = unlistedByte <;> simp [Memory.set, hv]
    | cons q rest ih =>
      obtain ⟨k, w⟩ := q
      rw [List.pairwise_cons] at hs
      simp only [Memory.set]
      split
      · rename_i hlt
        refine List.pairwise_cons.mpr ⟨fun p hp => ?_, ih hs.2⟩
        rcases Memory.mem_set hp with ⟨rfl, -⟩ | hp
        · exact hlt
        · exact hs.1 p hp
      · rename_i hge
        have hbelow : ∀ q ∈ rest, a < q.1 := fun q hq => by
          have := hs.1 q hq; simp at this; omega
        by_cases hk : k = a <;> by_cases hv : v = unlistedByte <;>
          simp only [hk, hv, if_true, if_false]
        · exact hs.2
        · exact List.pairwise_cons.mpr ⟨hbelow, hs.2⟩
        · exact List.pairwise_cons.mpr hs
        · refine List.pairwise_cons.mpr ⟨fun p hp => ?_, List.pairwise_cons.mpr hs⟩
          rcases List.mem_cons.mp hp with rfl | hp
          · simp; omega
          · exact hbelow p hp
  · rcases Memory.mem_set hp with ⟨rfl, hv⟩ | hp
    · exact hv
    · exact h.2 p hp

end Sys2Proof.Machine
end

