-- ==== Sys2Proof/Laws/State.lean ====
section
/-! SUPPORT. One lemma per field per state update, each true by definition, and the same for what
depends on the configuration alone. -/

namespace Sys2Proof.Machine

/-! ### State.setA -/

@[simp] theorem State.setA_cfg (s : State) (v : Byte) : (s.setA v).cfg = s.cfg := rfl
@[simp] theorem State.setA_a (s : State) (v : Byte) : (s.setA v).a = v := rfl
@[simp] theorem State.setA_x (s : State) (v : Byte) : (s.setA v).x = s.x := rfl
@[simp] theorem State.setA_y (s : State) (v : Byte) : (s.setA v).y = s.y := rfl
@[simp] theorem State.setA_sp (s : State) (v : Byte) : (s.setA v).sp = s.sp := rfl
@[simp] theorem State.setA_pc (s : State) (v : Byte) : (s.setA v).pc = s.pc := rfl
@[simp] theorem State.setA_flags (s : State) (v : Byte) : (s.setA v).flags = s.flags := rfl
@[simp] theorem State.setA_mem (s : State) (v : Byte) : (s.setA v).mem = s.mem := rfl
@[simp] theorem State.setA_dev (s : State) (v : Byte) : (s.setA v).dev = s.dev := rfl
@[simp] theorem State.setA_driver (s : State) (v : Byte) : (s.setA v).driver = s.driver := rfl
@[simp] theorem State.setA_started (s : State) (v : Byte) : (s.setA v).started = s.started := rfl
@[simp] theorem State.setA_draws (s : State) (v : Byte) : (s.setA v).draws = s.draws := rfl
@[simp] theorem State.setA_target (s : State) (v : Byte) : (s.setA v).target = s.target := rfl

/-! ### State.setX -/

@[simp] theorem State.setX_cfg (s : State) (v : Byte) : (s.setX v).cfg = s.cfg := rfl
@[simp] theorem State.setX_a (s : State) (v : Byte) : (s.setX v).a = s.a := rfl
@[simp] theorem State.setX_x (s : State) (v : Byte) : (s.setX v).x = v := rfl
@[simp] theorem State.setX_y (s : State) (v : Byte) : (s.setX v).y = s.y := rfl
@[simp] theorem State.setX_sp (s : State) (v : Byte) : (s.setX v).sp = s.sp := rfl
@[simp] theorem State.setX_pc (s : State) (v : Byte) : (s.setX v).pc = s.pc := rfl
@[simp] theorem State.setX_flags (s : State) (v : Byte) : (s.setX v).flags = s.flags := rfl
@[simp] theorem State.setX_mem (s : State) (v : Byte) : (s.setX v).mem = s.mem := rfl
@[simp] theorem State.setX_dev (s : State) (v : Byte) : (s.setX v).dev = s.dev := rfl
@[simp] theorem State.setX_driver (s : State) (v : Byte) : (s.setX v).driver = s.driver := rfl
@[simp] theorem State.setX_started (s : State) (v : Byte) : (s.setX v).started = s.started := rfl
@[simp] theorem State.setX_draws (s : State) (v : Byte) : (s.setX v).draws = s.draws := rfl
@[simp] theorem State.setX_target (s : State) (v : Byte) : (s.setX v).target = s.target := rfl

/-! ### State.setY -/

@[simp] theorem State.setY_cfg (s : State) (v : Byte) : (s.setY v).cfg = s.cfg := rfl
@[simp] theorem State.setY_a (s : State) (v : Byte) : (s.setY v).a = s.a := rfl
@[simp] theorem State.setY_x (s : State) (v : Byte) : (s.setY v).x = s.x := rfl
@[simp] theorem State.setY_y (s : State) (v : Byte) : (s.setY v).y = v := rfl
@[simp] theorem State.setY_sp (s : State) (v : Byte) : (s.setY v).sp = s.sp := rfl
@[simp] theorem State.setY_pc (s : State) (v : Byte) : (s.setY v).pc = s.pc := rfl
@[simp] theorem State.setY_flags (s : State) (v : Byte) : (s.setY v).flags = s.flags := rfl
@[simp] theorem State.setY_mem (s : State) (v : Byte) : (s.setY v).mem = s.mem := rfl
@[simp] theorem State.setY_dev (s : State) (v : Byte) : (s.setY v).dev = s.dev := rfl
@[simp] theorem State.setY_driver (s : State) (v : Byte) : (s.setY v).driver = s.driver := rfl
@[simp] theorem State.setY_started (s : State) (v : Byte) : (s.setY v).started = s.started := rfl
@[simp] theorem State.setY_draws (s : State) (v : Byte) : (s.setY v).draws = s.draws := rfl
@[simp] theorem State.setY_target (s : State) (v : Byte) : (s.setY v).target = s.target := rfl

/-! ### State.setSP -/

@[simp] theorem State.setSP_cfg (s : State) (v : Byte) : (s.setSP v).cfg = s.cfg := rfl
@[simp] theorem State.setSP_a (s : State) (v : Byte) : (s.setSP v).a = s.a := rfl
@[simp] theorem State.setSP_x (s : State) (v : Byte) : (s.setSP v).x = s.x := rfl
@[simp] theorem State.setSP_y (s : State) (v : Byte) : (s.setSP v).y = s.y := rfl
@[simp] theorem State.setSP_sp (s : State) (v : Byte) : (s.setSP v).sp = v := rfl
@[simp] theorem State.setSP_pc (s : State) (v : Byte) : (s.setSP v).pc = s.pc := rfl
@[simp] theorem State.setSP_flags (s : State) (v : Byte) : (s.setSP v).flags = s.flags := rfl
@[simp] theorem State.setSP_mem (s : State) (v : Byte) : (s.setSP v).mem = s.mem := rfl
@[simp] theorem State.setSP_dev (s : State) (v : Byte) : (s.setSP v).dev = s.dev := rfl
@[simp] theorem State.setSP_driver (s : State) (v : Byte) : (s.setSP v).driver = s.driver := rfl
@[simp] theorem State.setSP_started (s : State) (v : Byte) : (s.setSP v).started = s.started := rfl
@[simp] theorem State.setSP_draws (s : State) (v : Byte) : (s.setSP v).draws = s.draws := rfl
@[simp] theorem State.setSP_target (s : State) (v : Byte) : (s.setSP v).target = s.target := rfl

/-! ### State.setPC -/

@[simp] theorem State.setPC_cfg (s : State) (v : Word) : (s.setPC v).cfg = s.cfg := rfl
@[simp] theorem State.setPC_a (s : State) (v : Word) : (s.setPC v).a = s.a := rfl
@[simp] theorem State.setPC_x (s : State) (v : Word) : (s.setPC v).x = s.x := rfl
@[simp] theorem State.setPC_y (s : State) (v : Word) : (s.setPC v).y = s.y := rfl
@[simp] theorem State.setPC_sp (s : State) (v : Word) : (s.setPC v).sp = s.sp := rfl
@[simp] theorem State.setPC_pc (s : State) (v : Word) : (s.setPC v).pc = v := rfl
@[simp] theorem State.setPC_flags (s : State) (v : Word) : (s.setPC v).flags = s.flags := rfl
@[simp] theorem State.setPC_mem (s : State) (v : Word) : (s.setPC v).mem = s.mem := rfl
@[simp] theorem State.setPC_dev (s : State) (v : Word) : (s.setPC v).dev = s.dev := rfl
@[simp] theorem State.setPC_driver (s : State) (v : Word) : (s.setPC v).driver = s.driver := rfl
@[simp] theorem State.setPC_started (s : State) (v : Word) : (s.setPC v).started = s.started := rfl
@[simp] theorem State.setPC_draws (s : State) (v : Word) : (s.setPC v).draws = s.draws := rfl
@[simp] theorem State.setPC_target (s : State) (v : Word) : (s.setPC v).target = s.target := rfl

/-! ### State.setFlags -/

@[simp] theorem State.setFlags_cfg (s : State) (f : Flags) : (s.setFlags f).cfg = s.cfg := rfl
@[simp] theorem State.setFlags_a (s : State) (f : Flags) : (s.setFlags f).a = s.a := rfl
@[simp] theorem State.setFlags_x (s : State) (f : Flags) : (s.setFlags f).x = s.x := rfl
@[simp] theorem State.setFlags_y (s : State) (f : Flags) : (s.setFlags f).y = s.y := rfl
@[simp] theorem State.setFlags_sp (s : State) (f : Flags) : (s.setFlags f).sp = s.sp := rfl
@[simp] theorem State.setFlags_pc (s : State) (f : Flags) : (s.setFlags f).pc = s.pc := rfl
@[simp] theorem State.setFlags_flags (s : State) (f : Flags) : (s.setFlags f).flags = f := rfl
@[simp] theorem State.setFlags_mem (s : State) (f : Flags) : (s.setFlags f).mem = s.mem := rfl
@[simp] theorem State.setFlags_dev (s : State) (f : Flags) : (s.setFlags f).dev = s.dev := rfl
@[simp] theorem State.setFlags_driver (s : State) (f : Flags) : (s.setFlags f).driver = s.driver := rfl
@[simp] theorem State.setFlags_started (s : State) (f : Flags) : (s.setFlags f).started = s.started := rfl
@[simp] theorem State.setFlags_draws (s : State) (f : Flags) : (s.setFlags f).draws = s.draws := rfl
@[simp] theorem State.setFlags_target (s : State) (f : Flags) : (s.setFlags f).target = s.target := rfl

/-! ### State.setMem -/

@[simp] theorem State.setMem_cfg (s : State) (m : Memory) : (s.setMem m).cfg = s.cfg := rfl
@[simp] theorem State.setMem_a (s : State) (m : Memory) : (s.setMem m).a = s.a := rfl
@[simp] theorem State.setMem_x (s : State) (m : Memory) : (s.setMem m).x = s.x := rfl
@[simp] theorem State.setMem_y (s : State) (m : Memory) : (s.setMem m).y = s.y := rfl
@[simp] theorem State.setMem_sp (s : State) (m : Memory) : (s.setMem m).sp = s.sp := rfl
@[simp] theorem State.setMem_pc (s : State) (m : Memory) : (s.setMem m).pc = s.pc := rfl
@[simp] theorem State.setMem_flags (s : State) (m : Memory) : (s.setMem m).flags = s.flags := rfl
@[simp] theorem State.setMem_mem (s : State) (m : Memory) : (s.setMem m).mem = m := rfl
@[simp] theorem State.setMem_dev (s : State) (m : Memory) : (s.setMem m).dev = s.dev := rfl
@[simp] theorem State.setMem_driver (s : State) (m : Memory) : (s.setMem m).driver = s.driver := rfl
@[simp] theorem State.setMem_started (s : State) (m : Memory) : (s.setMem m).started = s.started := rfl
@[simp] theorem State.setMem_draws (s : State) (m : Memory) : (s.setMem m).draws = s.draws := rfl
@[simp] theorem State.setMem_target (s : State) (m : Memory) : (s.setMem m).target = s.target := rfl

/-! ### State.setDev -/

@[simp] theorem State.setDev_cfg (s : State) (t : Timing) : (s.setDev t).cfg = s.cfg := rfl
@[simp] theorem State.setDev_a (s : State) (t : Timing) : (s.setDev t).a = s.a := rfl
@[simp] theorem State.setDev_x (s : State) (t : Timing) : (s.setDev t).x = s.x := rfl
@[simp] theorem State.setDev_y (s : State) (t : Timing) : (s.setDev t).y = s.y := rfl
@[simp] theorem State.setDev_sp (s : State) (t : Timing) : (s.setDev t).sp = s.sp := rfl
@[simp] theorem State.setDev_pc (s : State) (t : Timing) : (s.setDev t).pc = s.pc := rfl
@[simp] theorem State.setDev_flags (s : State) (t : Timing) : (s.setDev t).flags = s.flags := rfl
@[simp] theorem State.setDev_mem (s : State) (t : Timing) : (s.setDev t).mem = s.mem := rfl
@[simp] theorem State.setDev_dev (s : State) (t : Timing) : (s.setDev t).dev = t := rfl
@[simp] theorem State.setDev_driver (s : State) (t : Timing) : (s.setDev t).driver = s.driver := rfl
@[simp] theorem State.setDev_started (s : State) (t : Timing) : (s.setDev t).started = s.started := rfl
@[simp] theorem State.setDev_draws (s : State) (t : Timing) : (s.setDev t).draws = s.draws := rfl
@[simp] theorem State.setDev_target (s : State) (t : Timing) : (s.setDev t).target = s.target := rfl

/-! ### State.setDriver -/

@[simp] theorem State.setDriver_cfg (s : State) (d : List DriverAction) : (s.setDriver d).cfg = s.cfg := rfl
@[simp] theorem State.setDriver_a (s : State) (d : List DriverAction) : (s.setDriver d).a = s.a := rfl
@[simp] theorem State.setDriver_x (s : State) (d : List DriverAction) : (s.setDriver d).x = s.x := rfl
@[simp] theorem State.setDriver_y (s : State) (d : List DriverAction) : (s.setDriver d).y = s.y := rfl
@[simp] theorem State.setDriver_sp (s : State) (d : List DriverAction) : (s.setDriver d).sp = s.sp := rfl
@[simp] theorem State.setDriver_pc (s : State) (d : List DriverAction) : (s.setDriver d).pc = s.pc := rfl
@[simp] theorem State.setDriver_flags (s : State) (d : List DriverAction) : (s.setDriver d).flags = s.flags := rfl
@[simp] theorem State.setDriver_mem (s : State) (d : List DriverAction) : (s.setDriver d).mem = s.mem := rfl
@[simp] theorem State.setDriver_dev (s : State) (d : List DriverAction) : (s.setDriver d).dev = s.dev := rfl
@[simp] theorem State.setDriver_driver (s : State) (d : List DriverAction) : (s.setDriver d).driver = d := rfl
@[simp] theorem State.setDriver_started (s : State) (d : List DriverAction) : (s.setDriver d).started = s.started := rfl
@[simp] theorem State.setDriver_draws (s : State) (d : List DriverAction) : (s.setDriver d).draws = s.draws := rfl
@[simp] theorem State.setDriver_target (s : State) (d : List DriverAction) : (s.setDriver d).target = s.target := rfl

/-! ### State.drawn -/

@[simp] theorem State.drawn_cfg (s : State) : s.drawn.cfg = s.cfg := rfl
@[simp] theorem State.drawn_a (s : State) : s.drawn.a = s.a := rfl
@[simp] theorem State.drawn_x (s : State) : s.drawn.x = s.x := rfl
@[simp] theorem State.drawn_y (s : State) : s.drawn.y = s.y := rfl
@[simp] theorem State.drawn_sp (s : State) : s.drawn.sp = s.sp := rfl
@[simp] theorem State.drawn_pc (s : State) : s.drawn.pc = s.pc := rfl
@[simp] theorem State.drawn_flags (s : State) : s.drawn.flags = s.flags := rfl
@[simp] theorem State.drawn_mem (s : State) : s.drawn.mem = s.mem := rfl
@[simp] theorem State.drawn_dev (s : State) : s.drawn.dev = s.dev := rfl
@[simp] theorem State.drawn_driver (s : State) : s.drawn.driver = s.driver := rfl
@[simp] theorem State.drawn_started (s : State) : s.drawn.started = s.started := rfl
@[simp] theorem State.drawn_draws (s : State) : s.drawn.draws = s.draws + 1 := rfl
@[simp] theorem State.drawn_target (s : State) : s.drawn.target = s.target := rfl

/-! ### State.start -/

@[simp] theorem State.start_cfg (s : State) : s.start.cfg = s.cfg := rfl
@[simp] theorem State.start_a (s : State) : s.start.a = s.a := rfl
@[simp] theorem State.start_x (s : State) : s.start.x = s.x := rfl
@[simp] theorem State.start_y (s : State) : s.start.y = s.y := rfl
@[simp] theorem State.start_sp (s : State) : s.start.sp = s.sp := rfl
@[simp] theorem State.start_pc (s : State) : s.start.pc = s.pc := rfl
@[simp] theorem State.start_flags (s : State) : s.start.flags = s.flags := rfl
@[simp] theorem State.start_mem (s : State) : s.start.mem = s.mem := rfl
@[simp] theorem State.start_dev (s : State) : s.start.dev = s.dev := rfl
@[simp] theorem State.start_driver (s : State) : s.start.driver = s.driver := rfl
@[simp] theorem State.start_started (s : State) : s.start.started = true := rfl
@[simp] theorem State.start_draws (s : State) : s.start.draws = s.draws := rfl
@[simp] theorem State.start_target (s : State) : s.start.target = s.target := rfl

/-! ### State.advance -/

@[simp] theorem State.advance_cfg (s : State) (n : Nat) : (s.advance n).cfg = s.cfg := rfl
@[simp] theorem State.advance_a (s : State) (n : Nat) : (s.advance n).a = s.a := rfl
@[simp] theorem State.advance_x (s : State) (n : Nat) : (s.advance n).x = s.x := rfl
@[simp] theorem State.advance_y (s : State) (n : Nat) : (s.advance n).y = s.y := rfl
@[simp] theorem State.advance_sp (s : State) (n : Nat) : (s.advance n).sp = s.sp := rfl
@[simp] theorem State.advance_pc (s : State) (n : Nat) : (s.advance n).pc = s.pc + BitVec.ofNat 16 n := rfl
@[simp] theorem State.advance_flags (s : State) (n : Nat) : (s.advance n).flags = s.flags := rfl
@[simp] theorem State.advance_mem (s : State) (n : Nat) : (s.advance n).mem = s.mem := rfl
@[simp] theorem State.advance_dev (s : State) (n : Nat) : (s.advance n).dev = s.dev := rfl
@[simp] theorem State.advance_driver (s : State) (n : Nat) : (s.advance n).driver = s.driver := rfl
@[simp] theorem State.advance_started (s : State) (n : Nat) : (s.advance n).started = s.started := rfl
@[simp] theorem State.advance_draws (s : State) (n : Nat) : (s.advance n).draws = s.draws := rfl
@[simp] theorem State.advance_target (s : State) (n : Nat) : (s.advance n).target = s.target := rfl

/-! ### State.setZN -/

@[simp] theorem State.setZN_cfg (s : State) (v : Byte) : (s.setZN v).cfg = s.cfg := rfl
@[simp] theorem State.setZN_a (s : State) (v : Byte) : (s.setZN v).a = s.a := rfl
@[simp] theorem State.setZN_x (s : State) (v : Byte) : (s.setZN v).x = s.x := rfl
@[simp] theorem State.setZN_y (s : State) (v : Byte) : (s.setZN v).y = s.y := rfl
@[simp] theorem State.setZN_sp (s : State) (v : Byte) : (s.setZN v).sp = s.sp := rfl
@[simp] theorem State.setZN_pc (s : State) (v : Byte) : (s.setZN v).pc = s.pc := rfl
@[simp] theorem State.setZN_flags (s : State) (v : Byte) : (s.setZN v).flags = s.flags.setZN v := rfl
@[simp] theorem State.setZN_mem (s : State) (v : Byte) : (s.setZN v).mem = s.mem := rfl
@[simp] theorem State.setZN_dev (s : State) (v : Byte) : (s.setZN v).dev = s.dev := rfl
@[simp] theorem State.setZN_driver (s : State) (v : Byte) : (s.setZN v).driver = s.driver := rfl
@[simp] theorem State.setZN_started (s : State) (v : Byte) : (s.setZN v).started = s.started := rfl
@[simp] theorem State.setZN_draws (s : State) (v : Byte) : (s.setZN v).draws = s.draws := rfl
@[simp] theorem State.setZN_target (s : State) (v : Byte) : (s.setZN v).target = s.target := rfl

/-! ### State.setReg -/

@[simp] theorem State.setReg_cfg (s : State) (r : Reg) (v : Byte) : (s.setReg r v).cfg = s.cfg := by
  cases r <;> rfl
@[simp] theorem State.setReg_pc (s : State) (r : Reg) (v : Byte) : (s.setReg r v).pc = s.pc := by
  cases r <;> rfl
@[simp] theorem State.setReg_flags (s : State) (r : Reg) (v : Byte) : (s.setReg r v).flags = s.flags := by
  cases r <;> rfl
@[simp] theorem State.setReg_mem (s : State) (r : Reg) (v : Byte) : (s.setReg r v).mem = s.mem := by
  cases r <;> rfl
@[simp] theorem State.setReg_dev (s : State) (r : Reg) (v : Byte) : (s.setReg r v).dev = s.dev := by
  cases r <;> rfl
@[simp] theorem State.setReg_driver (s : State) (r : Reg) (v : Byte) : (s.setReg r v).driver = s.driver := by
  cases r <;> rfl
@[simp] theorem State.setReg_started (s : State) (r : Reg) (v : Byte) : (s.setReg r v).started = s.started := by
  cases r <;> rfl
@[simp] theorem State.setReg_draws (s : State) (r : Reg) (v : Byte) : (s.setReg r v).draws = s.draws := by
  cases r <;> rfl
@[simp] theorem State.setReg_target (s : State) (r : Reg) (v : Byte) : (s.setReg r v).target = s.target := by
  cases r <;> rfl

/-- What the bus reaches depends on the mount list alone. -/
theorem State.target_eq_of_cfg {s t : State} (h : t.cfg = s.cfg) : t.target = s.target := by
  funext a; simp [State.target, h]

end Sys2Proof.Machine
end

