-- ==== Sys2Proof/Laws/Bus.lean ====
section
/-! SUPPORT. The bus: what a read, a write and a pair of reads can do, and what they leave
alone. -/

namespace Sys2Proof.Machine

/-! ### Results -/

@[simp] theorem ok_bind {α β : Type} (x : α) (f : α → Result β) :
    ((Except.ok x : Result α) >>= f) = f x := rfl

@[simp] theorem error_bind {α β : Type} (e : Stop) (f : α → Result β) :
    ((Except.error e : Result α) >>= f) = .error e := rfl

/-- A sequence that ends well ended well in its first part. -/
theorem bind_eq_ok {α β : Type} {x : Result α} {f : α → Result β} {b : β}
    (h : (x >>= f) = .ok b) : ∃ a, x = .ok a ∧ f a = .ok b := by
  cases x with
  | ok a => exact ⟨a, rfl, h⟩
  | error e => cases h

@[simp] theorem finish_ok (s : State) : finish (.ok s) = .next s := rfl

@[simp] theorem finish_eq_next {r : Result State} {s : State} :
    finish r = .next s ↔ r = .ok s := by
  rcases r with (_ | _) | _ <;> simp [finish]

/-! ### What a bus read leaves alone -/

@[simp] theorem State.afterRead_cfg (s : State) (a : Word) : (s.afterRead a).cfg = s.cfg := by
  unfold State.afterRead; split <;> rfl

@[simp] theorem State.afterRead_a (s : State) (a : Word) : (s.afterRead a).a = s.a := by
  unfold State.afterRead; split <;> rfl

@[simp] theorem State.afterRead_x (s : State) (a : Word) : (s.afterRead a).x = s.x := by
  unfold State.afterRead; split <;> rfl

@[simp] theorem State.afterRead_y (s : State) (a : Word) : (s.afterRead a).y = s.y := by
  unfold State.afterRead; split <;> rfl

@[simp] theorem State.afterRead_sp (s : State) (a : Word) : (s.afterRead a).sp = s.sp := by
  unfold State.afterRead; split <;> rfl

@[simp] theorem State.afterRead_pc (s : State) (a : Word) : (s.afterRead a).pc = s.pc := by
  unfold State.afterRead; split <;> rfl

@[simp] theorem State.afterRead_flags (s : State) (a : Word) : (s.afterRead a).flags = s.flags := by
  unfold State.afterRead; split <;> rfl

@[simp] theorem State.afterRead_driver (s : State) (a : Word) : (s.afterRead a).driver = s.driver := by
  unfold State.afterRead; split <;> rfl

@[simp] theorem State.afterRead_started (s : State) (a : Word) : (s.afterRead a).started = s.started := by
  unfold State.afterRead; split <;> rfl

@[simp] theorem State.afterRead_mem (s : State) (a : Word) : (s.afterRead a).mem = s.mem := by
  unfold State.afterRead; split <;> rfl

@[simp] theorem State.afterRead_target (s : State) (a : Word) :
    (s.afterRead a).target = s.target := State.target_eq_of_cfg (by simp)

/-- The device after a bus read: its write toggle is reset if the address is the status port, and
nothing else of it changes (R287, R290). -/
theorem State.afterRead_dev (s : State) (a : Word) :
    (s.afterRead a).dev = if s.isStatus a then { s.dev with w := false } else s.dev := by
  unfold State.afterRead State.isStatus
  split <;> rename_i h <;> simp [h, Timing.afterRead]
  all_goals (rename_i p hp; cases p <;> simp_all)

/-! ### What a bus write leaves alone -/

@[simp] theorem State.afterWrite_cfg (s : State) (a : Word) (v : Byte) :
    (s.afterWrite a v).cfg = s.cfg := by
  unfold State.afterWrite; split <;> rfl

@[simp] theorem State.afterWrite_a (s : State) (a : Word) (v : Byte) :
    (s.afterWrite a v).a = s.a := by
  unfold State.afterWrite; split <;> rfl

@[simp] theorem State.afterWrite_x (s : State) (a : Word) (v : Byte) :
    (s.afterWrite a v).x = s.x := by
  unfold State.afterWrite; split <;> rfl

@[simp] theorem State.afterWrite_y (s : State) (a : Word) (v : Byte) :
    (s.afterWrite a v).y = s.y := by
  unfold State.afterWrite; split <;> rfl

@[simp] theorem State.afterWrite_sp (s : State) (a : Word) (v : Byte) :
    (s.afterWrite a v).sp = s.sp := by
  unfold State.afterWrite; split <;> rfl

@[simp] theorem State.afterWrite_pc (s : State) (a : Word) (v : Byte) :
    (s.afterWrite a v).pc = s.pc := by
  unfold State.afterWrite; split <;> rfl

@[simp] theorem State.afterWrite_flags (s : State) (a : Word) (v : Byte) :
    (s.afterWrite a v).flags = s.flags := by
  unfold State.afterWrite; split <;> rfl

@[simp] theorem State.afterWrite_driver (s : State) (a : Word) (v : Byte) :
    (s.afterWrite a v).driver = s.driver := by
  unfold State.afterWrite; split <;> rfl

@[simp] theorem State.afterWrite_started (s : State) (a : Word) (v : Byte) :
    (s.afterWrite a v).started = s.started := by
  unfold State.afterWrite; split <;> rfl

@[simp] theorem State.afterWrite_draws (s : State) (a : Word) (v : Byte) :
    (s.afterWrite a v).draws = s.draws := by
  unfold State.afterWrite; split <;> rfl

@[simp] theorem State.afterWrite_target (s : State) (a : Word) (v : Byte) :
    (s.afterWrite a v).target = s.target := State.target_eq_of_cfg (by simp)

/-! ### What depends on the mount list alone -/

theorem State.mounted_eq_of_target {s t : State} (h : t.target = s.target) :
    t.mounted = s.mounted := by
  funext a; simp [State.mounted, h]

theorem State.writable_eq_of_target {s t : State} (h : t.target = s.target) :
    t.writable = s.writable := by
  funext a; simp [State.writable, State.mounted, h]

@[simp] theorem State.afterRead_mounted (s : State) (a : Word) :
    (s.afterRead a).mounted = s.mounted := State.mounted_eq_of_target (by simp)

@[simp] theorem State.afterRead_writable (s : State) (a : Word) :
    (s.afterRead a).writable = s.writable := State.writable_eq_of_target (by simp)

@[simp] theorem State.afterWrite_mounted (s : State) (a : Word) (v : Byte) :
    (s.afterWrite a v).mounted = s.mounted := State.mounted_eq_of_target (by simp)

@[simp] theorem State.afterWrite_writable (s : State) (a : Word) (v : Byte) :
    (s.afterWrite a v).writable = s.writable := State.writable_eq_of_target (by simp)

@[simp] theorem State.setSP_mounted (s : State) (v : Byte) :
    (s.setSP v).mounted = s.mounted := rfl

@[simp] theorem State.setSP_writable (s : State) (v : Byte) :
    (s.setSP v).writable = s.writable := rfl

@[simp] theorem State.setFlags_mounted (s : State) (f : Flags) :
    (s.setFlags f).mounted = s.mounted := rfl

@[simp] theorem State.setFlags_writable (s : State) (f : Flags) :
    (s.setFlags f).writable = s.writable := rfl

/-- A writable address is mounted. -/
theorem State.mounted_of_writable {s : State} {a : Word} (h : s.writable a = true) :
    s.mounted a = true := by
  simp [State.writable] at h; exact h.1

/-- A writable address is not the status port. -/
theorem State.not_status_of_writable {s : State} {a : Word} (h : s.writable a = true) :
    s.target a ≠ some (.port .status) := by
  simp [State.writable] at h; exact h.2

/-! ### The operations -/

/-- A bus read of a mounted address gives its byte (R55). -/
theorem busRead_ok {s : State} {a : Word} (h : s.mounted a = true) :
    busRead a s = .ok (s.valueAt a, s.afterRead a) := by
  simp [busRead, h]

/-- A bus read that ends well read a mounted address (R55, R58). -/
theorem busRead_eq_ok {s t : State} {a : Word} {v : Byte} (h : busRead a s = .ok (v, t)) :
    s.mounted a = true ∧ v = s.valueAt a ∧ t = s.afterRead a := by
  unfold busRead at h
  split at h
  · cases h; exact ⟨by assumption, rfl, rfl⟩
  · cases h

/-- A bus read of an unmounted address faults (R58). -/
theorem busRead_fault {s : State} {a : Word} (h : s.mounted a = false) :
    busRead a s = .error (.fault (.outOfRangeAccess a)) := by
  simp [busRead, h]

/-- A bus write to a writable address lands (R56). -/
theorem busWrite_ok {s : State} {a : Word} (h : s.writable a = true) (v : Byte) :
    busWrite a v s = .ok (s.afterWrite a v) := by
  simp [busWrite, State.mounted_of_writable h, State.not_status_of_writable h]

/-- A bus write that ends well went to a writable address (R56, R58, R291). -/
theorem busWrite_eq_ok {s t : State} {a : Word} {v : Byte} (h : busWrite a v s = .ok t) :
    s.writable a = true ∧ t = s.afterWrite a v := by
  unfold busWrite at h
  split at h
  · split at h
    · cases h
    · cases h; exact ⟨by simp_all [State.writable], rfl⟩
  · cases h

/-- A bus write to an address that is not writable faults: unmounted, or the status port (R58,
R291). -/
theorem busWrite_fault {s : State} {a : Word} (h : s.writable a = false) (v : Byte) :
    ∃ e, faultOf s [.write a] = some e ∧ busWrite a v s = .error (.fault e) := by
  cases hm : s.mounted a
  · exact ⟨.outOfRangeAccess a, by simp [faultOf, hm], by simp [busWrite, hm]⟩
  · have ht : s.target a = some (.port .status) := by simpa [State.writable, hm] using h
    exact ⟨.illegalStatusWrite a, by simp [faultOf, hm, State.isStatus, ht],
      by simp [busWrite, hm, ht]⟩

/-- Which access faults depends on the mount list alone. -/
theorem faultOf_eq_of_target {s t : State} (h : t.target = s.target) : faultOf t = faultOf s := by
  have hs : t.isStatus = s.isStatus := by funext a; simp [State.isStatus, h]
  funext l
  induction l with
  | nil => rfl
  | cons a rest ih => cases a <;> simp only [faultOf, State.mounted_eq_of_target h, hs, ih]

/-- A sequence faults where its first part does, or else where its second does. -/
theorem faultOf_append (s : State) (l k : List Access) :
    faultOf s (l ++ k) = (faultOf s l).or (faultOf s k) := by
  induction l with
  | nil => simp [faultOf]
  | cons a rest ih =>
    cases a <;> simp only [List.cons_append, faultOf]
    · split <;> simp [ih]
    · split
      · split <;> simp [ih]
      · rfl

theorem faultOf_read {s : State} {a : Word} (h : s.mounted a = true) (rest : List Access) :
    faultOf s (.read a :: rest) = faultOf s rest := by simp [faultOf, h]

theorem faultOf_write {s : State} {a : Word} (h : s.writable a = true) (rest : List Access) :
    faultOf s (.write a :: rest) = faultOf s rest := by
  have hs := State.not_status_of_writable h
  simp [faultOf, State.mounted_of_writable h, State.isStatus, hs]

/-- Reading a pair of mounted addresses gives its value. -/
theorem readPair_ok {s : State} {lo hi : Word} (h : s.pairMounted lo hi = true) :
    readPair lo hi s = .ok (s.pairValue lo hi, s.afterPair lo hi) := by
  simp only [State.pairMounted, Bool.and_eq_true] at h
  have hh : (s.afterRead lo).mounted hi = true := by simpa using h.2
  simp [readPair, busRead_ok h.1, busRead_ok hh, State.pairValue, State.afterPair]

/-- A pair of reads that ends well read mounted addresses. -/
theorem readPair_eq_ok {s t : State} {lo hi w : Word} (h : readPair lo hi s = .ok (w, t)) :
    s.pairMounted lo hi = true ∧ w = s.pairValue lo hi ∧ t = s.afterPair lo hi := by
  obtain ⟨⟨l, s₁⟩, h₁, h⟩ := bind_eq_ok h
  obtain ⟨⟨r, s₂⟩, h₂, h⟩ := bind_eq_ok h
  obtain ⟨m₁, rfl, rfl⟩ := busRead_eq_ok h₁
  obtain ⟨m₂, rfl, rfl⟩ := busRead_eq_ok h₂
  cases h
  exact ⟨by simp_all [State.pairMounted], rfl, rfl⟩

/-- A pair of reads that does not end well met an unmounted address. -/
theorem readPair_fault {s : State} {lo hi : Word} (h : s.pairMounted lo hi = false) :
    ∃ e, faultOf s [.read lo, .read hi] = some e ∧ readPair lo hi s = .error (.fault e) := by
  cases hl : s.mounted lo
  · exact ⟨.outOfRangeAccess lo, by simp [faultOf, hl], by simp [readPair, busRead_fault hl]⟩
  · have hh : s.mounted hi = false := by simpa [State.pairMounted, hl] using h
    have hh' : (s.afterRead lo).mounted hi = false := by simpa using hh
    exact ⟨.outOfRangeAccess hi, by simp [faultOf, hl, hh],
      by simp [readPair, busRead_ok hl, busRead_fault hh']⟩

/-! ### What a pair of reads leaves alone -/

@[simp] theorem State.afterPair_cfg (s : State) (lo hi : Word) :
    (s.afterPair lo hi).cfg = s.cfg := by simp [State.afterPair]

@[simp] theorem State.afterPair_a (s : State) (lo hi : Word) :
    (s.afterPair lo hi).a = s.a := by simp [State.afterPair]

@[simp] theorem State.afterPair_x (s : State) (lo hi : Word) :
    (s.afterPair lo hi).x = s.x := by simp [State.afterPair]

@[simp] theorem State.afterPair_y (s : State) (lo hi : Word) :
    (s.afterPair lo hi).y = s.y := by simp [State.afterPair]

@[simp] theorem State.afterPair_sp (s : State) (lo hi : Word) :
    (s.afterPair lo hi).sp = s.sp := by simp [State.afterPair]

@[simp] theorem State.afterPair_pc (s : State) (lo hi : Word) :
    (s.afterPair lo hi).pc = s.pc := by simp [State.afterPair]

@[simp] theorem State.afterPair_flags (s : State) (lo hi : Word) :
    (s.afterPair lo hi).flags = s.flags := by simp [State.afterPair]

@[simp] theorem State.afterPair_driver (s : State) (lo hi : Word) :
    (s.afterPair lo hi).driver = s.driver := by simp [State.afterPair]

@[simp] theorem State.afterPair_started (s : State) (lo hi : Word) :
    (s.afterPair lo hi).started = s.started := by simp [State.afterPair]

@[simp] theorem State.afterPair_mem (s : State) (lo hi : Word) :
    (s.afterPair lo hi).mem = s.mem := by simp [State.afterPair]

@[simp] theorem State.afterPair_target (s : State) (lo hi : Word) :
    (s.afterPair lo hi).target = s.target := by simp [State.afterPair]

@[simp] theorem State.afterPair_mounted (s : State) (lo hi : Word) :
    (s.afterPair lo hi).mounted = s.mounted := by simp [State.afterPair]

@[simp] theorem State.afterPair_writable (s : State) (lo hi : Word) :
    (s.afterPair lo hi).writable = s.writable := by simp [State.afterPair]

/-! ### What each target gives and takes -/

theorem State.valueAt_ram {s : State} {a : Word} {k : Nat} (h : s.target a = some (.ram k)) :
    s.valueAt a = Memory.get s.mem k := by simp [State.valueAt, h]

theorem State.valueAt_rom {s : State} {a : Word} {k : Nat} (h : s.target a = some (.rom k)) :
    s.valueAt a = Memory.get s.mem k := by simp [State.valueAt, h]

theorem State.byteAt_ram {s : State} {a : Word} {k : Nat} (h : s.target a = some (.ram k)) :
    s.byteAt a = some (Memory.get s.mem k) := by simp [State.byteAt, h]

theorem State.byteAt_rom {s : State} {a : Word} {k : Nat} (h : s.target a = some (.rom k)) :
    s.byteAt a = some (Memory.get s.mem k) := by simp [State.byteAt, h]

theorem State.afterRead_ram {s : State} {a : Word} {k : Nat} (h : s.target a = some (.ram k)) :
    s.afterRead a = s := by simp [State.afterRead, h]

theorem State.afterRead_rom {s : State} {a : Word} {k : Nat} (h : s.target a = some (.rom k)) :
    s.afterRead a = s := by simp [State.afterRead, h]

/-- Reading an address that reaches a byte of RAM or ROM gives the byte and changes nothing. -/
theorem State.read_of_byteAt {s : State} {a : Word} {v : Byte} (h : s.byteAt a = some v) :
    s.mounted a = true ∧ s.valueAt a = v ∧ s.afterRead a = s := by
  unfold State.byteAt at h
  split at h <;> rename_i ht <;> cases h
  · exact ⟨by simp [State.mounted, ht], State.valueAt_ram ht, State.afterRead_ram ht⟩
  · exact ⟨by simp [State.mounted, ht], State.valueAt_rom ht, State.afterRead_rom ht⟩

theorem State.afterWrite_ram {s : State} {a : Word} {k : Nat} (h : s.target a = some (.ram k))
    (v : Byte) : s.afterWrite a v = s.setMem (Memory.set s.mem k v) := by simp [State.afterWrite, h]

theorem State.afterWrite_rom {s : State} {a : Word} {k : Nat} (h : s.target a = some (.rom k))
    (v : Byte) : s.afterWrite a v = s := by simp [State.afterWrite, h]

theorem State.afterWrite_port {s : State} {a : Word} {p : Port} (h : s.target a = some (.port p))
    (v : Byte) : s.afterWrite a v = s.setDev (s.dev.afterWrite v p) := by simp [State.afterWrite, h]

theorem State.afterWrite_unmounted {s : State} {a : Word} (h : s.target a = none) (v : Byte) :
    s.afterWrite a v = s := by simp [State.afterWrite, h]

end Sys2Proof.Machine
end

