-- ==== Sys2Proof/Laws/Decode.lean ====
section
/-! SUPPORT. The decoder: what holds of each of the 256 opcodes holds of every byte, and what a
successful decoding says. -/

namespace Sys2Proof

/-- A property of every byte is a property of 256 numerals. -/
theorem forall_byte {P : Byte → Prop} (h : ∀ n < 256, P (BitVec.ofNat 8 n)) (b : Byte) : P b := by
  simpa using h b.toNat b.isLt

@[simp] theorem tableRow_nil (op b1 b2 : Byte) : tableRow [] op b1 b2 = decodeMapped op b1 b2 := rfl

/-- Filling in the operand bytes keeps the mode's name. -/
@[simp] theorem Mode.withOperands_kind (b1 b2 : Byte) (m : Mode) :
    (m.withOperands b1 b2).kind = m.kind := by
  cases m with
  | register r => cases r <;> rfl
  | _ => rfl

/-- Filling in the operand bytes keeps the length: it follows from byte 0 alone (R93). -/
@[simp] theorem Instr.withOperands_length (b1 b2 : Byte) (i : Instr) :
    (i.withOperands b1 b2).length = i.length := by
  cases i <;> first | rfl | simp [withOperands, length, mode]

/-- What a non-empty byte string decodes to by any table, and that it is long enough (30_encoding.md
R90, R96). -/
theorem decodeWith_cons_eq_ok {ch : TableChanges} {op : Byte} {rest : List Byte} {i : Instr}
    (h : decodeWith ch (op :: rest) = .ok i) :
    i = decodeOpcode ch op (rest.getD 0 0) (rest.getD 1 0) ∧ i.length ≤ rest.length + 1 := by
  unfold decodeWith at h
  simp only at h
  split at h
  · cases h
  · cases h; exact ⟨rfl, by omega⟩

/-- A long enough byte string decodes. -/
theorem decodeWith_cons_of_le {ch : TableChanges} {op : Byte} {rest : List Byte}
    (h : (decodeOpcode ch op (rest.getD 0 0) (rest.getD 1 0)).length ≤ rest.length + 1) :
    decodeWith ch (op :: rest) = .ok (decodeOpcode ch op (rest.getD 0 0) (rest.getD 1 0)) :=
  if_neg (by omega)

/-- What a non-empty byte string decodes to by the spec's table. -/
theorem decode_cons_eq_ok {op : Byte} {rest : List Byte} {i : Instr}
    (h : decode (op :: rest) = .ok i) :
    i = decodeOpcode [] op (rest.getD 0 0) (rest.getD 1 0) ∧ i.length ≤ rest.length + 1 :=
  decodeWith_cons_eq_ok h

/-- A long enough byte string decodes by the spec's table. -/
theorem decode_cons_of_le {op : Byte} {rest : List Byte}
    (h : (decodeOpcode [] op (rest.getD 0 0) (rest.getD 1 0)).length ≤ rest.length + 1) :
    decode (op :: rest) = .ok (decodeOpcode [] op (rest.getD 0 0) (rest.getD 1 0)) :=
  decodeWith_cons_of_le h

/-- A mode takes one, two or three bytes (R92). -/
theorem ModeKind.byteSize_bounds (k : ModeKind) : 1 ≤ k.byteSize ∧ k.byteSize ≤ 3 := by
  cases k <;> decide

end Sys2Proof
end

