-- ==== Sys2Proof/Laws/Stack.lean ====
section
/-! SUPPORT. The stack, interrupt entry and return: what a push, a pull and their sequences can do,
and what they leave alone. -/

namespace Sys2Proof.Machine

@[simp] theorem State.pushed_cfg (s : State) (v : Byte) : (s.pushed v).cfg = s.cfg := by
  simp [State.pushed]

@[simp] theorem State.pushed_a (s : State) (v : Byte) : (s.pushed v).a = s.a := by
  simp [State.pushed]

@[simp] theorem State.pushed_x (s : State) (v : Byte) : (s.pushed v).x = s.x := by
  simp [State.pushed]

@[simp] theorem State.pushed_y (s : State) (v : Byte) : (s.pushed v).y = s.y := by
  simp [State.pushed]

@[simp] theorem State.pushed_flags (s : State) (v : Byte) : (s.pushed v).flags = s.flags := by
  simp [State.pushed]

@[simp] theorem State.pushed_driver (s : State) (v : Byte) : (s.pushed v).driver = s.driver := by
  simp [State.pushed]

@[simp] theorem State.pushed_started (s : State) (v : Byte) : (s.pushed v).started = s.started := by
  simp [State.pushed]

@[simp] theorem State.pushed_draws (s : State) (v : Byte) : (s.pushed v).draws = s.draws := by
  simp [State.pushed]

@[simp] theorem State.pushed_pc (s : State) (v : Byte) : (s.pushed v).pc = s.pc := by
  simp [State.pushed]

@[simp] theorem State.pushed_sp (s : State) (v : Byte) : (s.pushed v).sp = s.sp - 1#8 := rfl

@[simp] theorem State.pushed_target (s : State) (v : Byte) : (s.pushed v).target = s.target := by
  simp [State.pushed]

@[simp] theorem State.pushed_writable (s : State) (v : Byte) :
    (s.pushed v).writable = s.writable := State.writable_eq_of_target (by simp)

@[simp] theorem State.pushed_mounted (s : State) (v : Byte) :
    (s.pushed v).mounted = s.mounted := State.mounted_eq_of_target (by simp)

@[simp] theorem State.pulled_cfg (s : State) : s.pulled.cfg = s.cfg := by
  simp [State.pulled]

@[simp] theorem State.pulled_a (s : State) : s.pulled.a = s.a := by
  simp [State.pulled]

@[simp] theorem State.pulled_x (s : State) : s.pulled.x = s.x := by
  simp [State.pulled]

@[simp] theorem State.pulled_y (s : State) : s.pulled.y = s.y := by
  simp [State.pulled]

@[simp] theorem State.pulled_flags (s : State) : s.pulled.flags = s.flags := by
  simp [State.pulled]

@[simp] theorem State.pulled_driver (s : State) : s.pulled.driver = s.driver := by
  simp [State.pulled]

@[simp] theorem State.pulled_started (s : State) : s.pulled.started = s.started := by
  simp [State.pulled]

@[simp] theorem State.pulled_mem (s : State) : s.pulled.mem = s.mem := by
  simp [State.pulled]

@[simp] theorem State.pulled_pc (s : State) : s.pulled.pc = s.pc := by
  simp [State.pulled]

@[simp] theorem State.pulled_sp (s : State) : s.pulled.sp = s.sp + 1#8 := by simp [State.pulled]

@[simp] theorem State.pulled_target (s : State) : s.pulled.target = s.target := by
  simp [State.pulled]

@[simp] theorem State.pulled_mounted (s : State) : s.pulled.mounted = s.mounted :=
  State.mounted_eq_of_target (by simp)

/-! ### Conditions, spelled out -/

theorem State.pushable_one {s : State} : s.pushable 1 = s.writable (s.cfg.stackAddr s.sp) := by
  simp [State.pushable, List.range_succ]

theorem State.pushable_two {s : State} :
    s.pushable 2 =
      (s.writable (s.cfg.stackAddr s.sp) && s.writable (s.cfg.stackAddr (s.sp - 1#8))) := by
  simp [State.pushable, List.range_succ]

theorem State.pushable_three {s : State} :
    s.pushable 3 = (s.writable (s.cfg.stackAddr s.sp) && s.writable (s.cfg.stackAddr (s.sp - 1#8)) &&
      s.writable (s.cfg.stackAddr (s.sp - 2#8))) := by
  simp [State.pushable, List.range_succ, Bool.and_assoc]

theorem State.pullable_one {s : State} : s.pullable 1 = s.mounted (s.cfg.stackAddr (s.sp + 1#8)) := by
  simp [State.pullable, List.range_succ]

theorem State.pullable_two {s : State} :
    s.pullable 2 = (s.mounted (s.cfg.stackAddr (s.sp + 1#8)) &&
      s.mounted (s.cfg.stackAddr (s.sp + 2#8))) := by
  simp [State.pullable, List.range_succ]

theorem State.pullable_three {s : State} :
    s.pullable 3 = (s.mounted (s.cfg.stackAddr (s.sp + 1#8)) && s.mounted (s.cfg.stackAddr (s.sp + 2#8)) &&
      s.mounted (s.cfg.stackAddr (s.sp + 3#8))) := by
  simp [State.pullable, List.range_succ, Bool.and_assoc]

/-! ### The operations -/

/-- A push to a writable cell lands (R32). -/
theorem push_ok {s : State} (h : s.writable (s.cfg.stackAddr s.sp) = true) (v : Byte) :
    push v s = .ok (s.pushed v) := by
  simp [push, busWrite_ok h, State.pushed]

/-- A push that ends well (R32). -/
theorem push_eq_ok {s t : State} {v : Byte} (h : push v s = .ok t) :
    s.writable (s.cfg.stackAddr s.sp) = true ∧ t = s.pushed v := by
  obtain ⟨u, hu, h⟩ := bind_eq_ok h
  obtain ⟨hw, rfl⟩ := busWrite_eq_ok hu
  cases h
  exact ⟨hw, by simp [State.pushed]⟩

/-- A pull from a mounted cell gives its byte (R33). -/
theorem pull_ok {s : State} (h : s.mounted (s.cfg.stackAddr (s.sp + 1#8)) = true) :
    pull s = .ok (s.pullValue, s.pulled) := busRead_ok (s := s.setSP (s.sp + 1#8)) h

/-- A pull that ends well (R33). -/
theorem pull_eq_ok {s t : State} {v : Byte} (h : pull s = .ok (v, t)) :
    s.mounted (s.cfg.stackAddr (s.sp + 1#8)) = true ∧ v = s.pullValue ∧ t = s.pulled :=
  busRead_eq_ok (s := s.setSP (s.sp + 1#8)) h

/-- Two pushes to writable cells. -/
theorem pushWord_ok {s : State} (h : s.pushable 2 = true) (w : Word) :
    pushWord w s = .ok (s.pushedWord w) := by
  simp only [State.pushable_two, Bool.and_eq_true] at h
  have h' : (s.pushed (hiByte w)).writable
      ((s.pushed (hiByte w)).cfg.stackAddr (s.pushed (hiByte w)).sp) = true := by
    simpa using h.2
  simp [pushWord, push_ok h.1, push_ok h', State.pushedWord]

/-- Two pushes that end well. -/
theorem pushWord_eq_ok {s t : State} {w : Word} (h : pushWord w s = .ok t) :
    s.pushable 2 = true ∧ t = s.pushedWord w := by
  obtain ⟨u, hu, h⟩ := bind_eq_ok h
  obtain ⟨h₁, rfl⟩ := push_eq_ok hu
  obtain ⟨h₂, rfl⟩ := push_eq_ok h
  exact ⟨by simp_all [State.pushable_two], rfl⟩

/-- Two pulls from mounted cells. -/
theorem pullWord_ok {s : State} (h : s.pullable 2 = true) :
    pullWord s = .ok (s.pullWordValue, s.pulled.pulled) := by
  simp only [State.pullable_two, Bool.and_eq_true] at h
  have h' : s.pulled.mounted (s.pulled.cfg.stackAddr (s.pulled.sp + 1#8)) = true := by
    have : s.sp + 1#8 + 1#8 = s.sp + 2#8 := by bv_omega
    simpa [this] using h.2
  simp [pullWord, pull_ok h.1, pull_ok h', State.pullWordValue]

/-- Two pulls that end well. -/
theorem pullWord_eq_ok {s t : State} {w : Word} (h : pullWord s = .ok (w, t)) :
    s.pullable 2 = true ∧ w = s.pullWordValue ∧ t = s.pulled.pulled := by
  obtain ⟨⟨l, s₁⟩, h₁, h⟩ := bind_eq_ok h
  obtain ⟨⟨r, s₂⟩, h₂, h⟩ := bind_eq_ok h
  obtain ⟨m₁, rfl, rfl⟩ := pull_eq_ok h₁
  obtain ⟨m₂, rfl, rfl⟩ := pull_eq_ok h₂
  cases h
  have : s.sp + 1#8 + 1#8 = s.sp + 2#8 := by bv_omega
  simp only [State.pulled_mounted, State.pulled_cfg, State.pulled_sp, this] at m₂
  exact ⟨by simp [State.pullable_two, m₁, m₂], rfl, rfl⟩

/-- An interrupt entry with a writable stack and a mounted vector (R271). -/
theorem enter_ok {s : State} {vec : Word} (hp : s.pushable 3 = true)
    (hv : s.pairMounted vec (vec + 1#16) = true) (b : Bool) :
    enter vec b s = .ok (s.entered vec b) := by
  simp only [State.pushable_three, Bool.and_eq_true] at hp
  have h2 : s.pushable 2 = true := by simp [State.pushable_two, hp.1.1, hp.1.2]
  have h3 : (s.pushedWord s.pc).writable
      ((s.pushedWord s.pc).cfg.stackAddr (s.pushedWord s.pc).sp) = true := by
    have : s.sp - 1#8 - 1#8 = s.sp - 2#8 := by bv_omega
    simpa [State.pushedWord, this] using hp.2
  have hv' : (((s.pushedWord s.pc).pushed (s.flags.toByte b)).setFlags
      { s.flags with i := true }).pairMounted vec (vec + 1#16) = true := by
    simpa [State.pairMounted, State.pushedWord] using hv
  have hf : (s.pushedWord s.pc).flags = s.flags := by simp [State.pushedWord]
  simp [enter, pushWord_ok h2, push_ok h3, readPair_ok hv', State.entered, hf]

/-- An interrupt entry that ends well (R271). -/
theorem enter_eq_ok {s t : State} {vec : Word} {b : Bool} (h : enter vec b s = .ok t) :
    s.pushable 3 = true ∧ s.pairMounted vec (vec + 1#16) = true ∧ t = s.entered vec b := by
  obtain ⟨s₁, h₁, h⟩ := bind_eq_ok h
  obtain ⟨s₂, h₂, h⟩ := bind_eq_ok h
  obtain ⟨⟨w, s₃⟩, h₃, h⟩ := bind_eq_ok h
  obtain ⟨p₁, rfl⟩ := pushWord_eq_ok h₁
  obtain ⟨p₂, rfl⟩ := push_eq_ok h₂
  obtain ⟨p₃, rfl, rfl⟩ := readPair_eq_ok h₃
  cases h
  have hs : s.sp - 1#8 - 1#8 = s.sp - 2#8 := by bv_omega
  simp only [State.pushable_two, Bool.and_eq_true] at p₁
  simp only [State.pushedWord, State.pushed_writable, State.pushed_cfg, State.pushed_sp, hs] at p₂
  refine ⟨by simp [State.pushable_three, p₁.1, p₁.2, p₂], ?_, ?_⟩
  · simpa [State.pairMounted, State.pushedWord] using p₃
  · have hf : (s.pushedWord s.pc).flags = s.flags := by simp [State.pushedWord]
    simp [State.entered, hf]

/-- The return from an interrupt with a mounted stack (R277). -/
theorem leave_ok {s : State} (h : s.pullable 3 = true) : leave s = .ok s.left := by
  simp only [State.pullable_three, Bool.and_eq_true] at h
  have h2 : (s.pulled.setFlags (s.flags.load s.pullValue)).pullable 2 = true := by
    have h3 : s.sp + 1#8 + 1#8 = s.sp + 2#8 := by bv_omega
    have h4 : s.sp + 1#8 + 2#8 = s.sp + 3#8 := by bv_omega
    simp [State.pullable_two, h3, h4, h.1.2, h.2]
  simp [leave, pull_ok h.1.1, pullWord_ok h2, State.left]

/-- The return from an interrupt that ends well (R277). -/
theorem leave_eq_ok {s t : State} (h : leave s = .ok t) :
    s.pullable 3 = true ∧ t = s.left := by
  obtain ⟨⟨p, s₁⟩, h₁, h⟩ := bind_eq_ok h
  obtain ⟨⟨w, s₂⟩, h₂, h⟩ := bind_eq_ok h
  obtain ⟨p₁, rfl, rfl⟩ := pull_eq_ok h₁
  obtain ⟨p₂, rfl, rfl⟩ := pullWord_eq_ok h₂
  cases h
  have h3 : s.sp + 1#8 + 1#8 = s.sp + 2#8 := by bv_omega
  have h4 : s.sp + 1#8 + 2#8 = s.sp + 3#8 := by bv_omega
  simp only [State.pullable_two, State.setFlags_mounted, State.pulled_mounted, State.setFlags_cfg,
    State.pulled_cfg, State.setFlags_sp, State.pulled_sp, h3, h4, Bool.and_eq_true] at p₂
  refine ⟨by simp [State.pullable_three, p₁, p₂.1, p₂.2], ?_⟩
  simp [State.left]

/-! ### Where they fault -/

theorem push_fault {s : State} (h : s.writable (s.cfg.stackAddr s.sp) = false) (v : Byte) :
    ∃ e, faultOf s [.write (s.cfg.stackAddr s.sp)] = some e ∧ push v s = .error (.fault e) := by
  obtain ⟨e, he, hf⟩ := busWrite_fault h v
  exact ⟨e, he, by simp [push, hf]⟩

theorem pull_fault {s : State} (h : s.mounted (s.cfg.stackAddr (s.sp + 1#8)) = false) :
    pull s = .error (.fault (.outOfRangeAccess (s.cfg.stackAddr (s.sp + 1#8)))) :=
  busRead_fault (s := s.setSP (s.sp + 1#8)) h

theorem pushWord_fault {s : State} (h : s.pushable 2 = false) (w : Word) :
    ∃ e, faultOf s [.write (s.cfg.stackAddr s.sp), .write (s.cfg.stackAddr (s.sp - 1#8))] = some e ∧
      pushWord w s = .error (.fault e) := by
  cases h₁ : s.writable (s.cfg.stackAddr s.sp)
  · obtain ⟨e, he, hf⟩ := push_fault h₁ (hiByte w)
    refine ⟨e, ?_, by simp [pushWord, hf]⟩
    rw [← List.singleton_append, faultOf_append, he, Option.some_or]
  · simp only [State.pushable_two, h₁, Bool.true_and] at h
    obtain ⟨e, he, hf⟩ := push_fault (s := s.pushed (hiByte w)) (by simpa using h) (loByte w)
    rw [faultOf_eq_of_target (State.pushed_target s _)] at he
    exact ⟨e, by rw [faultOf_write h₁]; simpa using he, by simp [pushWord, push_ok h₁, hf]⟩

theorem pullWord_fault {s : State} (h : s.pullable 2 = false) :
    ∃ e, faultOf s [.read (s.cfg.stackAddr (s.sp + 1#8)), .read (s.cfg.stackAddr (s.sp + 2#8))] = some e ∧
      pullWord s = .error (.fault e) := by
  have h3 : s.sp + 1#8 + 1#8 = s.sp + 2#8 := by bv_omega
  cases h₁ : s.mounted (s.cfg.stackAddr (s.sp + 1#8))
  · exact ⟨.outOfRangeAccess _, by simp [faultOf, h₁]; rfl, by simp [pullWord, pull_fault h₁]⟩
  · simp only [State.pullable_two, h₁, Bool.true_and] at h
    have h' : s.pulled.mounted (s.pulled.cfg.stackAddr (s.pulled.sp + 1#8)) = false := by simpa [h3] using h
    exact ⟨.outOfRangeAccess _, by simp [faultOf, h₁, h]; rfl, by simp [pullWord, pull_ok h₁, pull_fault h', h3]⟩

/-- An interrupt entry that does not end well met the first of its accesses that faults: three writes
to the stack, two reads of the vector (R271). -/
theorem enter_fault {s : State} {vec : Word}
    (h : s.pushable 3 = false ∨ s.pairMounted vec (vec + 1#16) = false) (b : Bool) :
    ∃ e, faultOf s (s.entryAccesses vec) = some e ∧
      enter vec b s = .error (.fault e) := by
  have h1 : s.sp - 1#8 - 1#8 = s.sp - 2#8 := by bv_omega
  have hf : (s.pushedWord s.pc).flags = s.flags := by simp [State.pushedWord]
  have ht : (s.pushedWord s.pc).target = s.target := by simp [State.pushedWord]
  cases h₂ : s.pushable 2
  · obtain ⟨e, he, hp⟩ := pushWord_fault h₂ s.pc
    refine ⟨e, ?_, by simp [enter, hp]⟩
    rw [show s.entryAccesses vec = [.write (s.cfg.stackAddr s.sp),
      .write (s.cfg.stackAddr (s.sp - 1#8))] ++ [.write (s.cfg.stackAddr (s.sp - 2#8)),
      .read vec, .read (vec + 1#16)] from rfl, faultOf_append, he,
      Option.some_or]
  · simp only [State.pushable_two, Bool.and_eq_true] at h₂
    rw [show s.entryAccesses vec = [.write (s.cfg.stackAddr s.sp),
      .write (s.cfg.stackAddr (s.sp - 1#8)), .write (s.cfg.stackAddr (s.sp - 2#8)), .read vec,
      .read (vec + 1#16)] from rfl, faultOf_write h₂.1, faultOf_write h₂.2]
    have hpw := pushWord_ok (w := s.pc) (by simp [State.pushable_two, h₂] : s.pushable 2 = true)
    cases h₃ : s.writable (s.cfg.stackAddr (s.sp - 2#8))
    · obtain ⟨e, he, hp⟩ := push_fault (s := s.pushedWord s.pc)
        (by simpa [State.pushedWord, h1] using h₃) (s.flags.toByte b)
      rw [faultOf_eq_of_target ht] at he
      refine ⟨e, ?_, by simp [enter, hpw, hf, hp]⟩
      rw [← List.singleton_append, faultOf_append]
      simp only [State.pushedWord, State.pushed_cfg, State.pushed_sp, h1] at he
      rw [he, Option.some_or]
    · rw [faultOf_write h₃]
      have hv : s.pairMounted vec (vec + 1#16) = false := by
        simpa [State.pushable_three, h₂, h₃] using h
      have hp := push_ok (s := s.pushedWord s.pc) (by simpa [State.pushedWord, h1] using h₃)
        (s.flags.toByte b)
      obtain ⟨e, he, hr⟩ := readPair_fault (lo := vec) (hi := vec + 1#16)
        (s := ((s.pushedWord s.pc).pushed (s.flags.toByte b)).setFlags { s.flags with i := true })
        (by simpa [State.pairMounted, State.pushedWord] using hv)
      rw [faultOf_eq_of_target (s := s) (by simp [ht])] at he
      exact ⟨e, he, by simp [enter, hpw, hf, hp, hr]⟩

/-- A return from an interrupt that does not end well met the first of its three reads that faults
(R277). -/
theorem leave_fault {s : State} (h : s.pullable 3 = false) :
    ∃ e, faultOf s [.read (s.cfg.stackAddr (s.sp + 1#8)), .read (s.cfg.stackAddr (s.sp + 2#8)),
        .read (s.cfg.stackAddr (s.sp + 3#8))] = some e ∧ leave s = .error (.fault e) := by
  have h2 : s.sp + 1#8 + 1#8 = s.sp + 2#8 := by bv_omega
  have h3 : s.sp + 1#8 + 2#8 = s.sp + 3#8 := by bv_omega
  cases h₁ : s.mounted (s.cfg.stackAddr (s.sp + 1#8))
  · exact ⟨.outOfRangeAccess _, by simp [faultOf, h₁]; rfl, by simp [leave, pull_fault h₁]⟩
  · obtain ⟨e, he, hp⟩ := pullWord_fault (s := s.pulled.setFlags (s.flags.load s.pullValue))
      (by simpa [State.pullable_two, State.pullable_three, h₁, h2, h3] using h)
    rw [faultOf_eq_of_target (s := s) (by simp)] at he
    exact ⟨e, by rw [faultOf_read h₁]; simpa [h2, h3] using he, by simp [leave, pull_ok h₁, hp]⟩

/-! ### A push moved past SP -/

/-- A write does not depend on SP. -/
theorem State.afterWrite_setSP (s : State) (a : Word) (v w : Byte) :
    (s.setSP w).afterWrite a v = (s.afterWrite a v).setSP w := by
  unfold State.afterWrite
  simp only [State.setSP_target]
  split <;> rfl

end Sys2Proof.Machine
end

