-- ==== Sys2Proof/Laws/Operands.lean ====
section
/-! SUPPORT. Operands: what resolving a mode, loading, storing and modifying through it can do, and
what they leave alone. -/

namespace Sys2Proof.Machine

/-! ### What resolving and loading leave alone -/

@[simp] theorem afterResolve_cfg (m : Mode) (s : State) : (afterResolve m s).cfg = s.cfg := by
  unfold afterResolve; split <;> simp

@[simp] theorem afterResolve_a (m : Mode) (s : State) : (afterResolve m s).a = s.a := by
  unfold afterResolve; split <;> simp

@[simp] theorem afterResolve_x (m : Mode) (s : State) : (afterResolve m s).x = s.x := by
  unfold afterResolve; split <;> simp

@[simp] theorem afterResolve_y (m : Mode) (s : State) : (afterResolve m s).y = s.y := by
  unfold afterResolve; split <;> simp

@[simp] theorem afterResolve_sp (m : Mode) (s : State) : (afterResolve m s).sp = s.sp := by
  unfold afterResolve; split <;> simp

@[simp] theorem afterResolve_pc (m : Mode) (s : State) : (afterResolve m s).pc = s.pc := by
  unfold afterResolve; split <;> simp

@[simp] theorem afterResolve_flags (m : Mode) (s : State) : (afterResolve m s).flags = s.flags := by
  unfold afterResolve; split <;> simp

@[simp] theorem afterResolve_mem (m : Mode) (s : State) : (afterResolve m s).mem = s.mem := by
  unfold afterResolve; split <;> simp

@[simp] theorem afterResolve_driver (m : Mode) (s : State) : (afterResolve m s).driver = s.driver := by
  unfold afterResolve; split <;> simp

@[simp] theorem afterResolve_started (m : Mode) (s : State) : (afterResolve m s).started = s.started := by
  unfold afterResolve; split <;> simp

@[simp] theorem afterResolve_target (m : Mode) (s : State) : (afterResolve m s).target = s.target := by
  unfold afterResolve; split <;> simp

@[simp] theorem afterResolve_mounted (m : Mode) (s : State) : (afterResolve m s).mounted = s.mounted := by
  unfold afterResolve; split <;> simp

@[simp] theorem afterResolve_writable (m : Mode) (s : State) : (afterResolve m s).writable = s.writable := by
  unfold afterResolve; split <;> simp

@[simp] theorem afterLoad_cfg (m : Mode) (s : State) : (afterLoad m s).cfg = s.cfg := by
  unfold afterLoad; split <;> simp

@[simp] theorem afterLoad_a (m : Mode) (s : State) : (afterLoad m s).a = s.a := by
  unfold afterLoad; split <;> simp

@[simp] theorem afterLoad_x (m : Mode) (s : State) : (afterLoad m s).x = s.x := by
  unfold afterLoad; split <;> simp

@[simp] theorem afterLoad_y (m : Mode) (s : State) : (afterLoad m s).y = s.y := by
  unfold afterLoad; split <;> simp

@[simp] theorem afterLoad_sp (m : Mode) (s : State) : (afterLoad m s).sp = s.sp := by
  unfold afterLoad; split <;> simp

@[simp] theorem afterLoad_pc (m : Mode) (s : State) : (afterLoad m s).pc = s.pc := by
  unfold afterLoad; split <;> simp

@[simp] theorem afterLoad_flags (m : Mode) (s : State) : (afterLoad m s).flags = s.flags := by
  unfold afterLoad; split <;> simp

@[simp] theorem afterLoad_mem (m : Mode) (s : State) : (afterLoad m s).mem = s.mem := by
  unfold afterLoad; split <;> simp

@[simp] theorem afterLoad_driver (m : Mode) (s : State) : (afterLoad m s).driver = s.driver := by
  unfold afterLoad; split <;> simp

@[simp] theorem afterLoad_started (m : Mode) (s : State) : (afterLoad m s).started = s.started := by
  unfold afterLoad; split <;> simp

@[simp] theorem afterLoad_target (m : Mode) (s : State) : (afterLoad m s).target = s.target := by
  unfold afterLoad; split <;> simp

@[simp] theorem afterLoad_mounted (m : Mode) (s : State) : (afterLoad m s).mounted = s.mounted := by
  unfold afterLoad; split <;> simp

@[simp] theorem afterLoad_writable (m : Mode) (s : State) : (afterLoad m s).writable = s.writable := by
  unfold afterLoad; split <;> simp

/-- The reference of a mode does not depend on what reading its pointer changed. -/
theorem refFor_congr (m : Mode) {s t : State} (w : Word) (hx : t.x = s.x) (hy : t.y = s.y)
    (hp : t.pc = s.pc) : refFor m t w = refFor m s w := by
  cases m <;> simp [refFor, hx, hy, hp]

/-! ### Resolving -/

/-- A mode whose pointer can be read resolves (R120 to R133). -/
theorem resolve_ok {m : Mode} {s : State} (h : resolves m s = true) :
    resolve m s = .ok (operandRef m s, afterResolve m s) := by
  unfold resolves at h
  unfold resolve operandRef afterResolve
  split <;> rename_i hc <;> simp only [hc] at h ⊢
  rw [readPair_ok h]
  simp only [ok_bind]
  rw [refFor_congr (s := s) m _ (by simp) (by simp) (by simp)]

/-- A mode that resolves read a mounted pointer. -/
theorem resolve_eq_ok {m : Mode} {s t : State} {r : Ref} (h : resolve m s = .ok (r, t)) :
    resolves m s = true ∧ r = operandRef m s ∧ t = afterResolve m s := by
  cases hr : resolves m s
  · exfalso
    unfold resolves at hr
    unfold resolve at h
    split at h <;> rename_i hc <;> simp only [hc] at hr
    · cases hr
    · obtain ⟨e, -, hf⟩ := readPair_fault hr
      simp [hf] at h
  · rw [resolve_ok hr] at h
    cases h
    exact ⟨rfl, rfl, rfl⟩

/-- A mode that resolves makes no access that faults. -/
theorem faultOf_pointerReads {m : Mode} {s : State} (h : resolves m s = true) :
    faultOf s (pointerReads m s) = none := by
  unfold resolves at h
  unfold pointerReads
  split <;> rename_i hc <;> simp only [hc] at h
  · rfl
  · simp only [State.pairMounted, Bool.and_eq_true] at h
    simp [faultOf, h.1, h.2]

/-- A mode that does not resolve met an unmounted pointer byte (R136). -/
theorem resolve_fault {m : Mode} {s : State} (h : resolves m s = false) :
    ∃ e, faultOf s (pointerReads m s) = some e ∧ resolve m s = .error (.fault e) := by
  unfold resolves at h
  unfold resolve pointerReads
  split <;> rename_i hc <;> simp only [hc] at h ⊢
  · cases h
  · obtain ⟨e, he, hf⟩ := readPair_fault h
    exact ⟨e, he, by simp [hf]⟩

/-! ### Loading -/

/-- A loadable operand loads (R134). -/
theorem loadOperand_ok {m : Mode} {s : State} (h : loadable m s = true) :
    loadOperand m s = .ok (operandValue m s, afterLoad m s) := by
  simp only [loadable, Bool.and_eq_true] at h
  simp only [loadOperand, resolve_ok h.1, ok_bind, operandValue, afterLoad]
  have h2 := h.2
  cases hr : operandRef m s with
  | none => simp [hr] at h2
  | imm v => rfl
  | reg r => cases r <;> simp [load, State.reg]
  | mem ea =>
    simp only [hr] at h2
    simp [load, busRead_ok, h2]

/-- A load that ends well had a loadable operand. -/
theorem loadOperand_eq_ok {m : Mode} {s t : State} {v : Byte} (h : loadOperand m s = .ok (v, t)) :
    loadable m s = true ∧ v = operandValue m s ∧ t = afterLoad m s := by
  cases hl : loadable m s
  · exfalso
    obtain ⟨⟨r, u⟩, hr, hload⟩ := bind_eq_ok h
    obtain ⟨h1, rfl, rfl⟩ := resolve_eq_ok hr
    simp only [loadable, h1, Bool.true_and] at hl
    cases hr : operandRef m s <;> simp only [hr] at hl hload
    · simp [load] at hload
    · cases hl
    · cases hl
    · rw [load, busRead_fault (by simpa using hl)] at hload
      cases hload
  · rw [loadOperand_ok hl] at h
    cases h
    exact ⟨rfl, rfl, rfl⟩

/-- A load that does not end well met the first access of the load that faults (R136). -/
theorem loadOperand_fault {m : Mode} {s : State} (hm : m ≠ .implicit) (h : loadable m s = false) :
    ∃ e, faultOf s (loadAccesses m s) = some e ∧ loadOperand m s = .error (.fault e) := by
  cases hr : resolves m s
  · obtain ⟨e, he, hf⟩ := resolve_fault hr
    exact ⟨e, by simp [loadAccesses, faultOf_append, he], by simp [loadOperand, hf]⟩
  · simp only [loadable, hr, Bool.true_and] at h
    cases hm' : operandRef m s <;> simp only [hm'] at h
    · cases m <;> simp_all [operandRef, pointerCells, refFor]
    · cases h
    · cases h
    · rename_i ea
      exact ⟨.outOfRangeAccess ea, by simp [loadAccesses, faultOf_append, faultOf_pointerReads hr, memoryOperand, hm',
        faultOf, h], by simp [loadOperand, resolve_ok hr, hm', load, busRead_fault, h]⟩

/-! ### Storing -/

/-- A storable operand takes the byte (R134). -/
theorem storeOperand_ok {m : Mode} {s : State} (h : storable m s = true) (v : Byte) :
    storeOperand m v s = .ok (storedThrough m s v (afterResolve m s)) := by
  simp only [storable, Bool.and_eq_true] at h
  simp only [storeOperand, resolve_ok h.1, ok_bind, storedThrough]
  have h2 := h.2
  cases hr : operandRef m s with
  | none => simp [hr] at h2
  | imm v => simp [hr] at h2
  | reg r => rfl
  | mem ea =>
    simp only [hr] at h2
    simp [store, busWrite_ok, h2]

/-- A store that ends well had a storable operand. -/
theorem storeOperand_eq_ok {m : Mode} {s t : State} {v : Byte} (h : storeOperand m v s = .ok t) :
    storable m s = true ∧ t = storedThrough m s v (afterResolve m s) := by
  cases hl : storable m s
  · exfalso
    obtain ⟨⟨r, u⟩, hr, hstore⟩ := bind_eq_ok h
    obtain ⟨h1, rfl, rfl⟩ := resolve_eq_ok hr
    simp only [storable, h1, Bool.true_and] at hl
    cases hr : operandRef m s <;> simp only [hr] at hl hstore
    · simp [store] at hstore
    · cases hl
    · simp [store] at hstore
    · rename_i ea
      obtain ⟨e, -, hf⟩ := busWrite_fault (s := afterResolve m s) (a := ea) (by simpa using hl) v
      simp [store, hf] at hstore
  · rw [storeOperand_ok hl] at h
    cases h
    exact ⟨rfl, rfl⟩

/-- A store to memory that does not end well met the first access of the store that faults (R136,
R291). -/
theorem storeOperand_fault {m : Mode} {s : State} (hm : ∃ ea, operandRef m s = .mem ea)
    (h : storable m s = false) (v : Byte) :
    ∃ e, faultOf s (storeAccesses m s) = some e ∧ storeOperand m v s = .error (.fault e) := by
  cases hr : resolves m s
  · obtain ⟨e, he, hf⟩ := resolve_fault hr
    exact ⟨e, by simp [storeAccesses, faultOf_append, he], by simp [storeOperand, hf]⟩
  · obtain ⟨ea, hea⟩ := hm
    simp only [storable, hr, hea, Bool.true_and] at h
    obtain ⟨e, he, hf⟩ := busWrite_fault (s := afterResolve m s) (a := ea) (by simpa using h) v
    rw [faultOf_eq_of_target (afterResolve_target m s)] at he
    exact ⟨e, by simp [storeAccesses, faultOf_append, faultOf_pointerReads hr, memoryOperand, hea,
      he], by simp [storeOperand, resolve_ok hr, hea, store, hf]⟩

/-! ### Modifying -/

/-- A storable operand is also loadable. -/
theorem loadable_of_storable {m : Mode} {s : State} (h : storable m s = true) :
    loadable m s = true := by
  simp only [storable, Bool.and_eq_true] at h
  simp only [loadable, h.1, Bool.true_and]
  have h2 := h.2
  cases hr : operandRef m s <;> simp only [hr] at h2 ⊢
  · cases h2
  · exact State.mounted_of_writable h2

/-- A storable operand is modified: one load, one store, the flags (R64). -/
theorem modifyOperand_ok {m : Mode} {s : State} (h : storable m s = true) (f : Byte → Byte)
    (g : Byte → Flags → Flags) :
    modifyOperand m f g s =
      .ok ((storedThrough m s (f (operandValue m s)) (afterLoad m s)).setFlags
        (g (operandValue m s) s.flags)) := by
  have hl := loadable_of_storable h
  simp only [storable, Bool.and_eq_true] at h
  simp only [modifyOperand, resolve_ok h.1, ok_bind, operandValue, afterLoad, storedThrough]
  simp only [loadable, Bool.and_eq_true] at hl
  have h2 := h.2
  have hl2 := hl.2
  cases hr : operandRef m s with
  | none => simp [hr] at h2
  | imm v => simp [hr] at h2
  | reg r => cases r <;> simp [load, store, State.reg, State.setReg]
  | mem ea =>
    simp only [hr] at h2 hl2
    simp [load, store, busRead_ok, busWrite_ok, h2, hl2]

/-- A modification that ends well had a storable operand. -/
theorem modifyOperand_eq_ok {m : Mode} {s t : State} {f : Byte → Byte} {g : Byte → Flags → Flags}
    (h : modifyOperand m f g s = .ok t) :
    storable m s = true ∧
      t = (storedThrough m s (f (operandValue m s)) (afterLoad m s)).setFlags
        (g (operandValue m s) s.flags) := by
  cases hl : storable m s
  · exfalso
    obtain ⟨⟨r, u⟩, hr, h⟩ := bind_eq_ok h
    obtain ⟨⟨v, w⟩, hload, h⟩ := bind_eq_ok h
    obtain ⟨u', hstore, -⟩ := bind_eq_ok h
    obtain ⟨h1, rfl, rfl⟩ := resolve_eq_ok hr
    simp only [storable, h1, Bool.true_and] at hl
    cases hr : operandRef m s <;> simp only [hr] at hl hstore hload
    · simp [store] at hstore
    · cases hl
    · simp [store] at hstore
    · rename_i ea
      obtain ⟨-, rfl, rfl⟩ := busRead_eq_ok hload
      obtain ⟨hw, -⟩ := busWrite_eq_ok hstore
      simp [hl] at hw
  · rw [modifyOperand_ok hl] at h
    cases h
    exact ⟨rfl, rfl⟩

/-- A modification of a memory operand that does not end well met the first access of the store that
faults: its load makes the same accesses before (R64, R136, R291). -/
theorem modifyOperand_fault {m : Mode} {s : State} (hm : ∃ ea, operandRef m s = .mem ea)
    (h : storable m s = false) (f : Byte → Byte) (g : Byte → Flags → Flags) :
    ∃ e, faultOf s (storeAccesses m s) = some e ∧ modifyOperand m f g s = .error (.fault e) := by
  cases hr : resolves m s
  · obtain ⟨e, he, hf⟩ := resolve_fault hr
    exact ⟨e, by simp [storeAccesses, faultOf_append, he], by simp [modifyOperand, hf]⟩
  · obtain ⟨ea, hea⟩ := hm
    simp only [storable, hr, hea, Bool.true_and] at h
    have hacc : faultOf s (storeAccesses m s) = faultOf s [.write ea] := by
      simp [storeAccesses, faultOf_append, faultOf_pointerReads hr, memoryOperand, hea]
    rw [hacc]
    cases hmt : s.mounted ea
    · have : (afterResolve m s).mounted ea = false := by simpa using hmt
      exact ⟨.outOfRangeAccess ea, by simp [faultOf, hmt],
        by simp [modifyOperand, resolve_ok hr, hea, load, busRead_fault this]⟩
    · have h1 : (afterResolve m s).mounted ea = true := by simpa using hmt
      obtain ⟨e, he, hf⟩ := busWrite_fault (s := (afterResolve m s).afterRead ea) (a := ea)
        (by simpa using h) (f ((afterResolve m s).valueAt ea))
      rw [faultOf_eq_of_target (s := s) (by simp)] at he
      exact ⟨e, he, by simp [modifyOperand, resolve_ok hr, hea, load, store, busRead_ok h1, hf]⟩

end Sys2Proof.Machine
end

