-- ==== Sys2Proof/Laws/Exec.lean ====
section
/-! SUPPORT. What a step can do, said once: whatever every primitive operation keeps, every
instruction, every driver action and every step keeps. Invariants follow by checking the
primitives. -/

namespace Sys2Proof.Machine

/-- A property that the primitive operations of an instruction keep. -/
structure KeptByOps (P : State → Prop) : Prop where
  setA : ∀ {s : State} (v : Byte), P s → P (s.setA v)
  setX : ∀ {s : State} (v : Byte), P s → P (s.setX v)
  setY : ∀ {s : State} (v : Byte), P s → P (s.setY v)
  setSP : ∀ {s : State} (v : Byte), P s → P (s.setSP v)
  setPC : ∀ {s : State} (v : Word), P s → P (s.setPC v)
  setFlags : ∀ {s : State} (f : Flags), P s → P (s.setFlags f)
  afterRead : ∀ {s : State} (a : Word), P s → P (s.afterRead a)
  afterWrite : ∀ {s : State} (a : Word) (v : Byte), s.writable a = true → P s →
    P (s.afterWrite a v)

/-- A property that, besides, what the driver does keeps. -/
structure KeptByDriver (P : State → Prop) : Prop extends KeptByOps P where
  setDriver : ∀ {s : State} (d : List DriverAction), P s → P (s.setDriver d)
  start : ∀ {s : State}, P s → P s.start
  tick : ∀ {s : State}, P s → P (s.setDev (s.dev.tick s.cfg.geometry).1)

namespace KeptByOps

variable {P : State → Prop} (k : KeptByOps P)
include k

theorem setReg {s : State} (r : Reg) (v : Byte) (h : P s) : P (s.setReg r v) := by
  cases r
  exacts [k.setA v h, k.setX v h, k.setY v h, k.setSP v h]

theorem setZN {s : State} (v : Byte) (h : P s) : P (s.setZN v) := k.setFlags _ h

theorem afterPair {s : State} (lo hi : Word) (h : P s) : P (s.afterPair lo hi) :=
  k.afterRead hi (k.afterRead lo h)

theorem push {s t : State} {v : Byte} (h : push v s = .ok t) (hp : P s) : P t := by
  obtain ⟨hw, rfl⟩ := push_eq_ok h
  exact k.setSP _ (k.afterWrite _ v hw hp)

theorem pulled {s : State} (h : P s) : P s.pulled := k.afterRead _ (k.setSP _ h)

theorem pushWord {s t : State} {w : Word} (h : pushWord w s = .ok t) (hp : P s) : P t := by
  obtain ⟨u, h₁, h₂⟩ := bind_eq_ok h
  exact k.push h₂ (k.push h₁ hp)

theorem enter {s t : State} {vec : Word} {b : Bool} (h : enter vec b s = .ok t) (hp : P s) :
    P t := by
  obtain ⟨s₁, h₁, h⟩ := bind_eq_ok h
  obtain ⟨s₂, h₂, h⟩ := bind_eq_ok h
  obtain ⟨⟨w, s₃⟩, h₃, h⟩ := bind_eq_ok h
  obtain ⟨-, rfl, rfl⟩ := readPair_eq_ok h₃
  cases h
  exact k.setPC _ (k.afterPair _ _ (k.setFlags _ (k.push h₂ (k.pushWord h₁ hp))))

theorem left {s : State} (h : P s) : P s.left :=
  k.setPC _ (k.pulled (k.pulled (k.setFlags _ (k.pulled h))))

theorem resetEvent {s t : State} (start : ∀ {s : State}, P s → P s.start)
    (h : resetEvent s = .ok t) (hp : P s) : P t := by
  obtain ⟨⟨w, u⟩, h₁, h⟩ := bind_eq_ok h
  obtain ⟨-, rfl, rfl⟩ := readPair_eq_ok h₁
  cases h
  exact start (k.setPC _ (k.afterPair _ _ (k.setFlags _ (k.setSP _ hp))))

theorem afterResolve {s : State} (m : Mode) (h : P s) : P (afterResolve m s) := by
  unfold Machine.afterResolve
  split
  · exact h
  · exact k.afterPair _ _ h

theorem afterLoad {s : State} (m : Mode) (h : P s) : P (afterLoad m s) := by
  unfold Machine.afterLoad
  split
  · exact k.afterRead _ (k.afterResolve m h)
  all_goals exact k.afterResolve m h

theorem storedThrough {s t : State} {m : Mode} (v : Byte) (hs : storable m s = true)
    (hw : t.writable = s.writable) (h : P t) : P (storedThrough m s v t) := by
  unfold Machine.storedThrough
  split <;> rename_i hr
  · refine k.afterWrite _ v ?_ h
    simp only [storable, Bool.and_eq_true, hr] at hs
    rw [hw]; exact hs.2
  · exact k.setReg _ v h
  all_goals exact h

theorem storeOperand {s t : State} {m : Mode} {v : Byte} (h : storeOperand m v s = .ok t)
    (hp : P s) : P t := by
  obtain ⟨hs, rfl⟩ := storeOperand_eq_ok h
  exact k.storedThrough v hs (by simp) (k.afterResolve m hp)

theorem modifyOperand {s t : State} {m : Mode} {f : Byte → Byte} {g : Byte → Flags → Flags}
    (h : modifyOperand m f g s = .ok t) (hp : P s) : P t := by
  obtain ⟨hs, rfl⟩ := modifyOperand_eq_ok h
  exact k.setFlags _ (k.storedThrough _ hs (by simp) (k.afterLoad m hp))

theorem branch {s : State} (c : Bool) (off : Byte) (h : P s) : P (branch c off s) := by
  unfold Machine.branch
  split
  · exact k.setPC _ h
  · exact h

/-- Every instruction that ends in a next state keeps the property. -/
theorem exec {i : Instr} {s t : State} (h : exec i s = .next t) (hp : P s) : P t := by
  cases i
  case lda m | ldx m | ldy m | adc m | sbc m | and m | ora m | eor m =>
    obtain ⟨⟨v, u⟩, hl, h⟩ := bind_eq_ok (finish_eq_next.mp h)
    obtain ⟨-, rfl, rfl⟩ := loadOperand_eq_ok hl
    cases h
    first
      | exact k.setZN _ (k.setA _ (k.afterLoad m hp))
      | exact k.setZN _ (k.setX _ (k.afterLoad m hp))
      | exact k.setZN _ (k.setY _ (k.afterLoad m hp))
      | exact k.setFlags _ (k.setA _ (k.afterLoad m hp))
  case cmp m | cpx m | cpy m | bit m =>
    obtain ⟨⟨v, u⟩, hl, h⟩ := bind_eq_ok (finish_eq_next.mp h)
    obtain ⟨-, rfl, rfl⟩ := loadOperand_eq_ok hl
    cases h
    exact k.setFlags _ (k.afterLoad m hp)
  case lax m =>
    obtain ⟨⟨v, u⟩, hl, h⟩ := bind_eq_ok (finish_eq_next.mp h)
    obtain ⟨-, rfl, rfl⟩ := loadOperand_eq_ok hl
    cases h
    exact k.setZN _ (k.setX _ (k.setA _ (k.afterLoad m hp)))
  case sta m | stx m | sty m | sax m => exact k.storeOperand (finish_eq_next.mp h) hp
  case inc m | dec m | asl m | lsr m | rol m | ror m =>
    exact k.modifyOperand (finish_eq_next.mp h) hp
  case tax | tsx | inx | dex => cases h; exact k.setZN _ (k.setX _ hp)
  case tay | iny | dey => cases h; exact k.setZN _ (k.setY _ hp)
  case txa | tya => cases h; exact k.setZN _ (k.setA _ hp)
  case txs => cases h; exact k.setSP _ hp
  case axs imm => cases h; exact k.setFlags _ (k.setX _ hp)
  case jmp m =>
    obtain ⟨⟨r, u⟩, hr, h⟩ := bind_eq_ok (finish_eq_next.mp h)
    obtain ⟨-, rfl, rfl⟩ := resolve_eq_ok hr
    revert h
    cases operandRef m s <;> intro h <;> cases h
    exact k.setPC _ (k.afterResolve m hp)
  case jsr target =>
    obtain ⟨u, hu, h⟩ := bind_eq_ok (finish_eq_next.mp h)
    cases h
    exact k.setPC _ (k.pushWord hu hp)
  case rts =>
    obtain ⟨⟨w, u⟩, hu, h⟩ := bind_eq_ok (finish_eq_next.mp h)
    obtain ⟨-, rfl, rfl⟩ := pullWord_eq_ok hu
    cases h
    exact k.setPC _ (k.pulled (k.pulled hp))
  case bcc off | bcs off | beq off | bne off | bmi off | bpl off | bvc off | bvs off =>
    cases h; exact k.branch _ off hp
  case pha | php => exact k.push (finish_eq_next.mp h) hp
  case pla =>
    obtain ⟨⟨v, u⟩, hu, h⟩ := bind_eq_ok (finish_eq_next.mp h)
    obtain ⟨-, rfl, rfl⟩ := pull_eq_ok hu
    cases h
    exact k.setZN _ (k.setA _ (k.pulled hp))
  case plp =>
    obtain ⟨⟨v, u⟩, hu, h⟩ := bind_eq_ok (finish_eq_next.mp h)
    obtain ⟨-, rfl, rfl⟩ := pull_eq_ok hu
    cases h
    exact k.setFlags _ (k.pulled hp)
  case clc | sec | cli | sei | cld | sed | clv => cases h; exact k.setFlags _ hp
  case brk => exact k.enter (finish_eq_next.mp h) (k.setFlags _ hp)
  case rti =>
    obtain ⟨-, rfl⟩ := leave_eq_ok (finish_eq_next.mp h)
    exact k.left hp
  case nop => cases h; exact hp
  case unmapped op => cases h; exact hp

/-- A CPU step that ends in a next state keeps the property. -/
theorem cpuStep {s t : State} (h : cpuStep s = .next t) (hp : P s) : P t := by
  unfold Machine.cpuStep at h
  split at h
  · split at h
    · exact k.exec h (k.setPC _ hp)
    · simp at h
  · cases h

end KeptByOps

namespace KeptByDriver

variable {P : State → Prop} (k : KeptByDriver P)
include k

theorem irqEvent {s t : State} (h : irqEvent s = .ok t) (hp : P s) : P t := by
  unfold Machine.irqEvent at h
  split at h
  · cases h; exact hp
  · exact k.enter h hp

omit k in
theorem onlyIf_kept {c : Bool} {f : State → Result State} {s t : State}
    (h : onlyIf c f s = .ok t) (hf : f s = .ok t → P s → P t) (hp : P s) : P t := by
  unfold onlyIf at h
  split at h
  · exact hf h hp
  · cases h; exact hp

/-- Every action of the driver that ends in a next state keeps the property. -/
theorem act {a : DriverAction} {s t : State} (h : act a s = .next t) (hp : P s) : P t := by
  have o := k.toKeptByOps
  cases a with
  | cpu => exact o.cpuStep h hp
  | tick forward =>
    have h := finish_eq_next.mp h
    unfold tickDevice at h
    simp only at h
    split at h
    · exact o.enter h (k.tick hp)
    · cases h; exact k.tick hp
  | present e =>
    have h : presentEvents e s = .ok t := finish_eq_next.mp h
    obtain ⟨s₁, h₁, h⟩ := bind_eq_ok h
    obtain ⟨s₂, h₂, h⟩ := bind_eq_ok h
    have p₁ : P s₁ := onlyIf_kept h₁ (fun h => o.resetEvent k.start h) hp
    have p₂ : P s₂ := onlyIf_kept h₂ (fun h => o.enter h) p₁
    exact onlyIf_kept h (fun h => k.irqEvent h) p₂
  | inject start => cases h; exact k.start (o.setPC start hp)

/-- Every step that ends in a next state keeps the property. -/
theorem step {s t : State} (h : step s = .next t) (hp : P s) : P t := by
  unfold Machine.step at h
  split at h
  · exact k.toKeptByOps.cpuStep h hp
  · exact k.act h (k.setDriver _ hp)

end KeptByDriver

end Sys2Proof.Machine
end

