-- ==== Sys2Proof/Laws/Map.lean ====
section
/-! SUPPORT. The mount list: where a lookup lands, and that in a well-formed list two mounts share
no backing byte. -/

namespace Sys2Proof.Machine

/-- A lookup gives a mount of the list that covers the address (20_memory.md R53). -/
theorem lookup_covers {map : List Mount} {a : Word} {m : Mount} (h : lookup map a = some m) :
    m ∈ map ∧ m.start ≤ a.toNat ∧ a.toNat < m.stop := by
  refine ⟨List.mem_of_find?_eq_some h, ?_⟩
  simpa [Mount.covers] using List.find?_some h

/-- The reduced offset of a covered address lies in the window. -/
theorem reduced_lt {map : List Mount} {a : Word} {m : Mount} (h : lookup map a = some m) (n : Nat) :
    (a.toNat - m.start) % n < m.stop - m.start := by
  obtain ⟨-, h₁, h₂⟩ := lookup_covers h
  have := Nat.mod_le (a.toNat - m.start) n
  omega

/-- The key of an offset in the window is its bus address. -/
theorem Mount.key_of_lt {m : Mount} {off : Nat} (h : off < m.stop - m.start) :
    m.key off = m.start + off := if_pos h

/-- Two mounts of a well-formed list share no backing byte (20_memory.md R67). -/
theorem Mount.key_ne {map : List Mount} (hw : wellFormedMap map) {m k : Mount} (hm : m ∈ map)
    (hk : k ∈ map) (hne : m ≠ k) {i j : Nat} (hi : i < m.stop - m.start) : m.key i ≠ k.key j := by
  obtain ⟨hv, hp⟩ := hw
  have hov : m.overlaps k = false ∨ k.overlaps m = false := by
    rw [List.pairwise_iff_getElem] at hp
    obtain ⟨x, hx, rfl⟩ := List.getElem_of_mem hm
    obtain ⟨y, hy, rfl⟩ := List.getElem_of_mem hk
    rcases Nat.lt_trichotomy x y with h | h | h
    · exact .inl (hp x y hx hy h)
    · exact absurd (by simp [h]) hne
    · exact .inr (hp y x hy hx h)
  have hvm := hv m hm
  have hvk := hv k hk
  simp only [Mount.valid, Bool.and_eq_true, decide_eq_true_eq] at hvm hvk
  simp only [Mount.overlaps, Bool.and_eq_false_iff, decide_eq_false_iff_not] at hov
  rw [Mount.key_of_lt hi]
  unfold Mount.key
  split <;> omega

/-- A write leaves the byte at an address that reaches something else alone (R66, R67). -/
theorem State.byteAt_afterWrite_ne {s : State} {a b : Word} (hw : wellFormedMap s.cfg.map)
    (h : s.target a ≠ s.target b) (v : Byte) : (s.afterWrite a v).byteAt b = s.byteAt b := by
  rcases ha : s.target a with _ | (k | k | p)
  · rw [State.afterWrite_unmounted ha]
  · unfold State.byteAt
    simp only [State.afterWrite_target]
    rw [State.afterWrite_ram ha]
    have hne : ∀ j, s.target b = some (.ram j) ∨ s.target b = some (.rom j) → j ≠ k := by
      rintro j hb rfl
      rw [ha] at h
      simp only [State.target, Option.map_eq_some_iff] at ha hb
      obtain ⟨m, hm, hmt⟩ := ha
      have hb : s.target b = some (.rom j) := by
        rcases hb with hb | hb <;> simp_all [State.target]
      simp only [State.target, Option.map_eq_some_iff] at hb
      obtain ⟨q, hq, hqt⟩ := hb
      by_cases he : m = q
      · subst he
        unfold Mount.target at hmt hqt
        cases hd : m.dev <;> simp [hd] at hmt hqt
      · cases hm' : m.dev <;> simp only [Mount.target, hm', reduceCtorEq, Target.ram.injEq] at hmt
        cases hq' : q.dev <;> simp only [Mount.target, hq', reduceCtorEq, Target.rom.injEq] at hqt
        exact Mount.key_ne hw (lookup_covers hm).1 (lookup_covers hq).1 he (reduced_lt hm _)
          (hmt.trans hqt.symm)
    split <;> rename_i hb
    · rw [State.setMem_mem, Memory.get_set_ne _ _ (hne _ (.inl hb))]
    · rw [State.setMem_mem, Memory.get_set_ne _ _ (hne _ (.inr hb))]
    · rfl
    · rfl
  · rw [State.afterWrite_rom ha]
  · rw [State.afterWrite_port ha]; rfl

end Sys2Proof.Machine
end

