-- ==== Sys2Proof/Laws/Frame.lean ====
section
/-! SUPPORT. What an operation leaves alone outside the registers, as a relation between the state
before and the state after that composes. -/

namespace Sys2Proof.Machine

/-- Between `s` and `t`, no byte has changed but those reached at the addresses in `A`; the timing
device has kept every register whose port is not reached at one of them, its status register and its
counters; without a two-phase write its toggle can only have been reset; and the configuration, the
driver's actions and the latch are the same. -/
structure StoresOnly (A : List Word) (s t : State) : Prop where
  bytes : ∀ b, (∀ a ∈ A, s.target a ≠ s.target b) → t.byteAt b = s.byteAt b
  register : ∀ p, (∀ a ∈ A, s.target a ≠ some (.port p)) → t.dev.register p = s.dev.register p
  status : t.dev.status = s.dev.status
  scanline : t.dev.scanline = s.dev.scanline
  cycle : t.dev.cycle = s.dev.cycle
  toggle : (∀ a ∈ A, s.target a ≠ some (.port .scroll) ∧ s.target a ≠ some (.port .address)) →
    t.dev.w = true → s.dev.w = true
  cfg : t.cfg = s.cfg
  driver : t.driver = s.driver
  started : t.started = s.started

namespace StoresOnly

theorem refl (s : State) : StoresOnly [] s s :=
  ⟨fun _ _ => rfl, fun _ _ => rfl, rfl, rfl, rfl, fun _ => id, rfl, rfl, rfl⟩

/-- Two states with the same memory and device. -/
theorem of_eq {A : List Word} {s t : State} (hm : t.mem = s.mem) (hd : t.dev = s.dev)
    (hc : t.cfg = s.cfg) (hr : t.driver = s.driver) (hs : t.started = s.started) :
    StoresOnly A s t := by
  refine ⟨fun b _ => ?_, fun _ _ => by rw [hd], by rw [hd], by rw [hd], by rw [hd],
    fun _ => by rw [hd]; exact id, hc, hr, hs⟩
  unfold State.byteAt
  rw [State.target_eq_of_cfg hc, hm]

theorem trans {A B C : List Word} {s t u : State} (hA : A ⊆ C) (hB : B ⊆ C)
    (h : StoresOnly A s t) (k : StoresOnly B t u) : StoresOnly C s u := by
  have ht := State.target_eq_of_cfg h.cfg
  refine ⟨fun b hb => ?_, fun p hp => ?_, k.status.trans h.status, k.scanline.trans h.scanline,
    k.cycle.trans h.cycle, fun hd hw => ?_, k.cfg.trans h.cfg, k.driver.trans h.driver,
    k.started.trans h.started⟩
  · rw [k.bytes b fun a ha => by rw [ht]; exact hb a (hB ha), h.bytes b fun a ha => hb a (hA ha)]
  · rw [k.register p fun a ha => by rw [ht]; exact hp a (hB ha),
      h.register p fun a ha => hp a (hA ha)]
  · exact h.toggle (fun a ha => hd a (hA ha))
      (k.toggle (fun a ha => by rw [ht]; exact hd a (hB ha)) hw)

/-- What stores nothing after it adds nothing. -/
theorem andThen {A : List Word} {s t u : State} (h : StoresOnly A s t) (k : StoresOnly [] t u) :
    StoresOnly A s u := trans (List.Subset.refl _) (by simp) h k

theorem setFlags (s : State) (f : Flags) : StoresOnly [] s (s.setFlags f) :=
  of_eq rfl rfl rfl rfl rfl

theorem setPC (s : State) (w : Word) : StoresOnly [] s (s.setPC w) := of_eq rfl rfl rfl rfl rfl

theorem setSP (s : State) (v : Byte) : StoresOnly [] s (s.setSP v) := of_eq rfl rfl rfl rfl rfl

theorem afterRead (s : State) (a : Word) : StoresOnly [] s (s.afterRead a) := by
  have hd : (s.afterRead a).dev = s.dev ∨ (s.afterRead a).dev = { s.dev with w := false } := by
    rw [State.afterRead_dev]
    split <;> simp
  refine ⟨fun b _ => by unfold State.byteAt; simp, fun p _ => ?_, ?_, ?_, ?_, fun _ => ?_, by simp,
    by simp, by simp⟩
  · cases p <;> obtain hd | hd := hd <;> rw [hd] <;> rfl
  all_goals obtain hd | hd := hd <;> simp [hd]

theorem afterWrite {s : State} (hw : wellFormedMap s.cfg.map) (a : Word) (v : Byte) :
    StoresOnly [a] s (s.afterWrite a v) := by
  have hd : (s.afterWrite a v).dev = s.dev ∨
      ∃ p, s.target a = some (.port p) ∧ (s.afterWrite a v).dev = s.dev.afterWrite v p := by
    rcases ht : s.target a with _ | (k | k | p)
    · rw [State.afterWrite_unmounted ht]; exact .inl rfl
    · rw [State.afterWrite_ram ht]; exact .inl rfl
    · rw [State.afterWrite_rom ht]; exact .inl rfl
    · rw [State.afterWrite_port ht]; exact .inr ⟨p, rfl, rfl⟩
  refine ⟨fun b h => State.byteAt_afterWrite_ne hw (h a (by simp)) v, fun q h => ?_, ?_, ?_, ?_,
    fun h => ?_, by simp, by simp, by simp⟩
  · obtain hd | ⟨p, ht, hd⟩ := hd
    · rw [hd]
    · have hq : p ≠ q := fun e => h a (by simp) (e ▸ ht)
      rw [hd]
      cases p <;> cases q <;> first | rfl | exact absurd rfl hq
  iterate 3
    obtain hd | ⟨p, -, hd⟩ := hd
    · rw [hd]
    · rw [hd]; cases p <;> rfl
  obtain hd | ⟨p, ht, hd⟩ := hd
  · rw [hd]; exact id
  · obtain ⟨h₁, h₂⟩ := h a (by simp)
    rw [hd]
    cases p <;> first | exact id | exact absurd ht h₁ | exact absurd ht h₂

theorem afterPair (s : State) (lo hi : Word) : StoresOnly [] s (s.afterPair lo hi) :=
  (afterRead s lo).andThen (afterRead _ hi)

theorem afterResolve (m : Mode) (s : State) : StoresOnly [] s (afterResolve m s) := by
  unfold Machine.afterResolve
  split
  · exact refl s
  · exact afterPair _ _ _

theorem afterLoad (m : Mode) (s : State) : StoresOnly [] s (afterLoad m s) := by
  unfold Machine.afterLoad
  split
  · exact (afterResolve m s).andThen (afterRead _ _)
  all_goals exact afterResolve m s

theorem storedThrough {s t : State} {m : Mode} (hw : wellFormedMap t.cfg.map)
    (h : StoresOnly [] s t) (v : Byte) :
    StoresOnly (memoryOperand m s) s (storedThrough m s v t) := by
  unfold Machine.storedThrough memoryOperand
  cases operandRef m s with
  | none => exact h
  | imm _ => exact h
  | reg r => exact h.andThen (by cases r <;> exact of_eq rfl rfl rfl rfl rfl)
  | mem ea => exact trans (A := []) (by simp) (by simp) h (afterWrite hw _ _)

theorem pulled (s : State) : StoresOnly [] s s.pulled := (setSP s _).andThen (afterRead _ _)

theorem pushed {s : State} (hw : wellFormedMap s.cfg.map) (v : Byte) :
    StoresOnly [s.cfg.stackAddr s.sp] s (s.pushed v) := (afterWrite hw _ v).andThen (setSP _ _)

theorem pushedWord {s : State} (hw : wellFormedMap s.cfg.map) (w : Word) :
    StoresOnly [s.cfg.stackAddr s.sp, s.cfg.stackAddr (s.sp - 1)] s (s.pushedWord w) :=
  trans (by simp) (by simp) (pushed hw _)
    (pushed (s := s.pushed (hiByte w)) (by simpa using hw) (loByte w))

end StoresOnly

end Sys2Proof.Machine
end

