-- ==== Sys2Proof/Laws/PerInstr.lean ====
section
/-! SUPPORT. Facts about every instruction as syntax, one lemma per constructor: the bytes of a
well-formed instruction are as many as its length says. -/

namespace Sys2Proof.Laws

/-- The encoding of a well-formed instruction has `length` bytes (30_encoding.md R91, R92). -/
def EncodedLength.Statement (i : Instr) : Prop :=
  i.wellFormed = true → (encode i).length = i.length


theorem EncodedLength.lda (m : Mode) : EncodedLength.Statement (.lda m) := by
  rcases m with _ | (_ | _ | _ | _) | _ | _ | _ | _ | _ | _ | _ | _ | _ | _ | _ <;>
    first | exact fun _ => rfl | exact nofun

theorem EncodedLength.ldx (m : Mode) : EncodedLength.Statement (.ldx m) := by
  rcases m with _ | (_ | _ | _ | _) | _ | _ | _ | _ | _ | _ | _ | _ | _ | _ | _ <;>
    first | exact fun _ => rfl | exact nofun

theorem EncodedLength.ldy (m : Mode) : EncodedLength.Statement (.ldy m) := by
  rcases m with _ | (_ | _ | _ | _) | _ | _ | _ | _ | _ | _ | _ | _ | _ | _ | _ <;>
    first | exact fun _ => rfl | exact nofun

theorem EncodedLength.sta (m : Mode) : EncodedLength.Statement (.sta m) := by
  rcases m with _ | (_ | _ | _ | _) | _ | _ | _ | _ | _ | _ | _ | _ | _ | _ | _ <;>
    first | exact fun _ => rfl | exact nofun

theorem EncodedLength.stx (m : Mode) : EncodedLength.Statement (.stx m) := by
  rcases m with _ | (_ | _ | _ | _) | _ | _ | _ | _ | _ | _ | _ | _ | _ | _ | _ <;>
    first | exact fun _ => rfl | exact nofun

theorem EncodedLength.sty (m : Mode) : EncodedLength.Statement (.sty m) := by
  rcases m with _ | (_ | _ | _ | _) | _ | _ | _ | _ | _ | _ | _ | _ | _ | _ | _ <;>
    first | exact fun _ => rfl | exact nofun

theorem EncodedLength.tax : EncodedLength.Statement .tax := fun _ => rfl

theorem EncodedLength.tay : EncodedLength.Statement .tay := fun _ => rfl

theorem EncodedLength.txa : EncodedLength.Statement .txa := fun _ => rfl

theorem EncodedLength.tya : EncodedLength.Statement .tya := fun _ => rfl

theorem EncodedLength.tsx : EncodedLength.Statement .tsx := fun _ => rfl

theorem EncodedLength.txs : EncodedLength.Statement .txs := fun _ => rfl

theorem EncodedLength.adc (m : Mode) : EncodedLength.Statement (.adc m) := by
  rcases m with _ | (_ | _ | _ | _) | _ | _ | _ | _ | _ | _ | _ | _ | _ | _ | _ <;>
    first | exact fun _ => rfl | exact nofun

theorem EncodedLength.sbc (m : Mode) : EncodedLength.Statement (.sbc m) := by
  rcases m with _ | (_ | _ | _ | _) | _ | _ | _ | _ | _ | _ | _ | _ | _ | _ | _ <;>
    first | exact fun _ => rfl | exact nofun

theorem EncodedLength.and (m : Mode) : EncodedLength.Statement (.and m) := by
  rcases m with _ | (_ | _ | _ | _) | _ | _ | _ | _ | _ | _ | _ | _ | _ | _ | _ <;>
    first | exact fun _ => rfl | exact nofun

theorem EncodedLength.ora (m : Mode) : EncodedLength.Statement (.ora m) := by
  rcases m with _ | (_ | _ | _ | _) | _ | _ | _ | _ | _ | _ | _ | _ | _ | _ | _ <;>
    first | exact fun _ => rfl | exact nofun

theorem EncodedLength.eor (m : Mode) : EncodedLength.Statement (.eor m) := by
  rcases m with _ | (_ | _ | _ | _) | _ | _ | _ | _ | _ | _ | _ | _ | _ | _ | _ <;>
    first | exact fun _ => rfl | exact nofun

theorem EncodedLength.cmp (m : Mode) : EncodedLength.Statement (.cmp m) := by
  rcases m with _ | (_ | _ | _ | _) | _ | _ | _ | _ | _ | _ | _ | _ | _ | _ | _ <;>
    first | exact fun _ => rfl | exact nofun

theorem EncodedLength.cpx (m : Mode) : EncodedLength.Statement (.cpx m) := by
  rcases m with _ | (_ | _ | _ | _) | _ | _ | _ | _ | _ | _ | _ | _ | _ | _ | _ <;>
    first | exact fun _ => rfl | exact nofun

theorem EncodedLength.cpy (m : Mode) : EncodedLength.Statement (.cpy m) := by
  rcases m with _ | (_ | _ | _ | _) | _ | _ | _ | _ | _ | _ | _ | _ | _ | _ | _ <;>
    first | exact fun _ => rfl | exact nofun

theorem EncodedLength.bit (m : Mode) : EncodedLength.Statement (.bit m) := by
  rcases m with _ | (_ | _ | _ | _) | _ | _ | _ | _ | _ | _ | _ | _ | _ | _ | _ <;>
    first | exact fun _ => rfl | exact nofun

theorem EncodedLength.inc (m : Mode) : EncodedLength.Statement (.inc m) := by
  rcases m with _ | (_ | _ | _ | _) | _ | _ | _ | _ | _ | _ | _ | _ | _ | _ | _ <;>
    first | exact fun _ => rfl | exact nofun

theorem EncodedLength.dec (m : Mode) : EncodedLength.Statement (.dec m) := by
  rcases m with _ | (_ | _ | _ | _) | _ | _ | _ | _ | _ | _ | _ | _ | _ | _ | _ <;>
    first | exact fun _ => rfl | exact nofun

theorem EncodedLength.inx : EncodedLength.Statement .inx := fun _ => rfl

theorem EncodedLength.iny : EncodedLength.Statement .iny := fun _ => rfl

theorem EncodedLength.dex : EncodedLength.Statement .dex := fun _ => rfl

theorem EncodedLength.dey : EncodedLength.Statement .dey := fun _ => rfl

theorem EncodedLength.asl (m : Mode) : EncodedLength.Statement (.asl m) := by
  rcases m with _ | (_ | _ | _ | _) | _ | _ | _ | _ | _ | _ | _ | _ | _ | _ | _ <;>
    first | exact fun _ => rfl | exact nofun

theorem EncodedLength.lsr (m : Mode) : EncodedLength.Statement (.lsr m) := by
  rcases m with _ | (_ | _ | _ | _) | _ | _ | _ | _ | _ | _ | _ | _ | _ | _ | _ <;>
    first | exact fun _ => rfl | exact nofun

theorem EncodedLength.rol (m : Mode) : EncodedLength.Statement (.rol m) := by
  rcases m with _ | (_ | _ | _ | _) | _ | _ | _ | _ | _ | _ | _ | _ | _ | _ | _ <;>
    first | exact fun _ => rfl | exact nofun

theorem EncodedLength.ror (m : Mode) : EncodedLength.Statement (.ror m) := by
  rcases m with _ | (_ | _ | _ | _) | _ | _ | _ | _ | _ | _ | _ | _ | _ | _ | _ <;>
    first | exact fun _ => rfl | exact nofun

theorem EncodedLength.jmp (m : Mode) : EncodedLength.Statement (.jmp m) := by
  rcases m with _ | (_ | _ | _ | _) | _ | _ | _ | _ | _ | _ | _ | _ | _ | _ | _ <;>
    first | exact fun _ => rfl | exact nofun

theorem EncodedLength.jsr (target : Word) : EncodedLength.Statement (.jsr target) := fun _ => rfl

theorem EncodedLength.rts : EncodedLength.Statement .rts := fun _ => rfl

theorem EncodedLength.bcc (off : Byte) : EncodedLength.Statement (.bcc off) := fun _ => rfl

theorem EncodedLength.bcs (off : Byte) : EncodedLength.Statement (.bcs off) := fun _ => rfl

theorem EncodedLength.beq (off : Byte) : EncodedLength.Statement (.beq off) := fun _ => rfl

theorem EncodedLength.bne (off : Byte) : EncodedLength.Statement (.bne off) := fun _ => rfl

theorem EncodedLength.bmi (off : Byte) : EncodedLength.Statement (.bmi off) := fun _ => rfl

theorem EncodedLength.bpl (off : Byte) : EncodedLength.Statement (.bpl off) := fun _ => rfl

theorem EncodedLength.bvc (off : Byte) : EncodedLength.Statement (.bvc off) := fun _ => rfl

theorem EncodedLength.bvs (off : Byte) : EncodedLength.Statement (.bvs off) := fun _ => rfl

theorem EncodedLength.pha : EncodedLength.Statement .pha := fun _ => rfl

theorem EncodedLength.php : EncodedLength.Statement .php := fun _ => rfl

theorem EncodedLength.pla : EncodedLength.Statement .pla := fun _ => rfl

theorem EncodedLength.plp : EncodedLength.Statement .plp := fun _ => rfl

theorem EncodedLength.clc : EncodedLength.Statement .clc := fun _ => rfl

theorem EncodedLength.sec : EncodedLength.Statement .sec := fun _ => rfl

theorem EncodedLength.cli : EncodedLength.Statement .cli := fun _ => rfl

theorem EncodedLength.sei : EncodedLength.Statement .sei := fun _ => rfl

theorem EncodedLength.cld : EncodedLength.Statement .cld := fun _ => rfl

theorem EncodedLength.sed : EncodedLength.Statement .sed := fun _ => rfl

theorem EncodedLength.clv : EncodedLength.Statement .clv := fun _ => rfl

theorem EncodedLength.brk : EncodedLength.Statement .brk := fun _ => rfl

theorem EncodedLength.rti : EncodedLength.Statement .rti := fun _ => rfl

theorem EncodedLength.nop : EncodedLength.Statement .nop := fun _ => rfl

theorem EncodedLength.unmapped (op : Byte) : EncodedLength.Statement (.unmapped op) := by
  intro h
  have h : op ∈ unmappedBytes := by simpa [Instr.wellFormed] using h
  simp [encode, Instr.opcode, Instr.mode, Instr.length, h]

theorem EncodedLength.lax (m : Mode) : EncodedLength.Statement (.lax m) := by
  rcases m with _ | (_ | _ | _ | _) | _ | _ | _ | _ | _ | _ | _ | _ | _ | _ | _ <;>
    first | exact fun _ => rfl | exact nofun

theorem EncodedLength.sax (m : Mode) : EncodedLength.Statement (.sax m) := by
  rcases m with _ | (_ | _ | _ | _) | _ | _ | _ | _ | _ | _ | _ | _ | _ | _ | _ <;>
    first | exact fun _ => rfl | exact nofun

theorem EncodedLength.axs (imm : Byte) : EncodedLength.Statement (.axs imm) := fun _ => rfl

end Sys2Proof.Laws
end

