-- ==== Sys2Proof/Tests/Slice0.lean ====
section
/-! SUPPORT. Tests, each expected result taken from spec/ (the table or rule is named), and for every
statement of Certificates/ that has hypotheses a concrete state and operands that meet them. -/

namespace Sys2Proof.Tests

open Sys2Proof.Machine

-- Each test is checked before the next is read: hundreds of waiting checks would each hold a stack.
set_option Elab.async false

/-! ### WellFormed refuses a term no row of the table stands for (30_encoding.md R97, R95) -/

theorem test_wellFormed_refuses_alu_modes :
    [Instr.lda (.zeroPageY 0), .adc (.zeroPageY 0), .sbc .implicit, .and (.indirect 0),
      .ora (.relative 0), .eor (.register .a), .cmp (.register .x)].all (!·.wellFormed) := by decide

theorem test_wellFormed_refuses_load_modes :
    [Instr.ldx (.zeroPageX 0), .ldx (.absoluteX 0), .ldy (.zeroPageY 0), .ldy (.absoluteY 0),
      .lax (.immediate 0), .lax (.zeroPageX 0)].all (!·.wellFormed) := by decide

theorem test_wellFormed_refuses_store_modes :
    [Instr.sta (.immediate 0), .stx (.absoluteY 0), .sty (.absoluteX 0), .sax (.zeroPageX 0),
      .sax (.indirectIndexed 0)].all (!·.wellFormed) := by decide

theorem test_wellFormed_refuses_compare_modes :
    [Instr.cpx (.zeroPageX 0), .cpy (.absoluteX 0), .bit (.immediate 0)].all (!·.wellFormed) := by
  decide

theorem test_wellFormed_refuses_modify_modes :
    [Instr.inc (.register .a), .dec (.absoluteY 0), .asl (.register .x), .lsr (.immediate 0),
      .rol (.zeroPageY 0), .ror (.absoluteY 0)].all (!·.wellFormed) := by decide

theorem test_wellFormed_refuses_jump_modes :
    [Instr.jmp (.immediate 0), .jmp (.absoluteX 0), .jmp (.relative 0)].all (!·.wellFormed) := by
  decide

theorem test_wellFormed_refuses_mapped_byte :
    [Instr.unmapped 0xEA, .unmapped 0x00, .unmapped 0xCB].all (!·.wellFormed) := by decide

/-! ### Decoding: the rows of R97 and R98, with b1 = 0x34 and b2 = 0x12 (R91, R94) -/

/-- Each list of bytes decodes to the instruction beside it, which is well-formed, and encodes
back to the bytes. -/
def decodesTo (rows : List (List Byte × Instr)) : Bool :=
  rows.all fun p => decide (decode p.1 = .ok p.2) && p.2.wellFormed && decide (encode p.2 = p.1)

theorem test_decode_loads_stores_transfers : decodesTo [
    ([0xA1, 0x34], .lda (.indexedIndirect 0x34)), ([0xA5, 0x34], .lda (.zeroPage 0x34)),
    ([0xA9, 0x34], .lda (.immediate 0x34)), ([0xAD, 0x34, 0x12], .lda (.absolute 0x1234)),
    ([0xB1, 0x34], .lda (.indirectIndexed 0x34)), ([0xB5, 0x34], .lda (.zeroPageX 0x34)),
    ([0xB9, 0x34, 0x12], .lda (.absoluteY 0x1234)), ([0xBD, 0x34, 0x12], .lda (.absoluteX 0x1234)),
    ([0xA2, 0x34], .ldx (.immediate 0x34)), ([0xA6, 0x34], .ldx (.zeroPage 0x34)),
    ([0xAE, 0x34, 0x12], .ldx (.absolute 0x1234)), ([0xB6, 0x34], .ldx (.zeroPageY 0x34)),
    ([0xBE, 0x34, 0x12], .ldx (.absoluteY 0x1234)), ([0xA0, 0x34], .ldy (.immediate 0x34)),
    ([0xA4, 0x34], .ldy (.zeroPage 0x34)), ([0xAC, 0x34, 0x12], .ldy (.absolute 0x1234)),
    ([0xB4, 0x34], .ldy (.zeroPageX 0x34)), ([0xBC, 0x34, 0x12], .ldy (.absoluteX 0x1234)),
    ([0x81, 0x34], .sta (.indexedIndirect 0x34)), ([0x85, 0x34], .sta (.zeroPage 0x34)),
    ([0x8D, 0x34, 0x12], .sta (.absolute 0x1234)), ([0x91, 0x34], .sta (.indirectIndexed 0x34)),
    ([0x95, 0x34], .sta (.zeroPageX 0x34)), ([0x99, 0x34, 0x12], .sta (.absoluteY 0x1234)),
    ([0x9D, 0x34, 0x12], .sta (.absoluteX 0x1234)), ([0x86, 0x34], .stx (.zeroPage 0x34)),
    ([0x8E, 0x34, 0x12], .stx (.absolute 0x1234)), ([0x96, 0x34], .stx (.zeroPageY 0x34)),
    ([0x84, 0x34], .sty (.zeroPage 0x34)), ([0x8C, 0x34, 0x12], .sty (.absolute 0x1234)),
    ([0x94, 0x34], .sty (.zeroPageX 0x34)), ([0xAA], .tax), ([0xA8], .tay), ([0x8A], .txa),
    ([0x98], .tya), ([0xBA], .tsx), ([0x9A], .txs)] := by decide

theorem test_decode_arithmetic : decodesTo [
    ([0x61, 0x34], .adc (.indexedIndirect 0x34)), ([0x65, 0x34], .adc (.zeroPage 0x34)),
    ([0x69, 0x34], .adc (.immediate 0x34)), ([0x6D, 0x34, 0x12], .adc (.absolute 0x1234)),
    ([0x71, 0x34], .adc (.indirectIndexed 0x34)), ([0x75, 0x34], .adc (.zeroPageX 0x34)),
    ([0x79, 0x34, 0x12], .adc (.absoluteY 0x1234)), ([0x7D, 0x34, 0x12], .adc (.absoluteX 0x1234)),
    ([0xE1, 0x34], .sbc (.indexedIndirect 0x34)), ([0xE5, 0x34], .sbc (.zeroPage 0x34)),
    ([0xE9, 0x34], .sbc (.immediate 0x34)), ([0xED, 0x34, 0x12], .sbc (.absolute 0x1234)),
    ([0xF1, 0x34], .sbc (.indirectIndexed 0x34)), ([0xF5, 0x34], .sbc (.zeroPageX 0x34)),
    ([0xF9, 0x34, 0x12], .sbc (.absoluteY 0x1234)), ([0xFD, 0x34, 0x12], .sbc (.absoluteX 0x1234)),
    ([0xC1, 0x34], .cmp (.indexedIndirect 0x34)), ([0xC5, 0x34], .cmp (.zeroPage 0x34)),
    ([0xC9, 0x34], .cmp (.immediate 0x34)), ([0xCD, 0x34, 0x12], .cmp (.absolute 0x1234)),
    ([0xD1, 0x34], .cmp (.indirectIndexed 0x34)), ([0xD5, 0x34], .cmp (.zeroPageX 0x34)),
    ([0xD9, 0x34, 0x12], .cmp (.absoluteY 0x1234)), ([0xDD, 0x34, 0x12], .cmp (.absoluteX 0x1234)),
    ([0xE0, 0x34], .cpx (.immediate 0x34)), ([0xE4, 0x34], .cpx (.zeroPage 0x34)),
    ([0xEC, 0x34, 0x12], .cpx (.absolute 0x1234)), ([0xC0, 0x34], .cpy (.immediate 0x34)),
    ([0xC4, 0x34], .cpy (.zeroPage 0x34)), ([0xCC, 0x34, 0x12], .cpy (.absolute 0x1234)),
    ([0xE6, 0x34], .inc (.zeroPage 0x34)), ([0xEE, 0x34, 0x12], .inc (.absolute 0x1234)),
    ([0xF6, 0x34], .inc (.zeroPageX 0x34)), ([0xFE, 0x34, 0x12], .inc (.absoluteX 0x1234)),
    ([0xC6, 0x34], .dec (.zeroPage 0x34)), ([0xCE, 0x34, 0x12], .dec (.absolute 0x1234)),
    ([0xD6, 0x34], .dec (.zeroPageX 0x34)), ([0xDE, 0x34, 0x12], .dec (.absoluteX 0x1234)),
    ([0xE8], .inx), ([0xC8], .iny), ([0xCA], .dex), ([0x88], .dey)] := by decide

theorem test_decode_logic : decodesTo [
    ([0x21, 0x34], .and (.indexedIndirect 0x34)), ([0x25, 0x34], .and (.zeroPage 0x34)),
    ([0x29, 0x34], .and (.immediate 0x34)), ([0x2D, 0x34, 0x12], .and (.absolute 0x1234)),
    ([0x31, 0x34], .and (.indirectIndexed 0x34)), ([0x35, 0x34], .and (.zeroPageX 0x34)),
    ([0x39, 0x34, 0x12], .and (.absoluteY 0x1234)), ([0x3D, 0x34, 0x12], .and (.absoluteX 0x1234)),
    ([0x01, 0x34], .ora (.indexedIndirect 0x34)), ([0x05, 0x34], .ora (.zeroPage 0x34)),
    ([0x09, 0x34], .ora (.immediate 0x34)), ([0x0D, 0x34, 0x12], .ora (.absolute 0x1234)),
    ([0x11, 0x34], .ora (.indirectIndexed 0x34)), ([0x15, 0x34], .ora (.zeroPageX 0x34)),
    ([0x19, 0x34, 0x12], .ora (.absoluteY 0x1234)), ([0x1D, 0x34, 0x12], .ora (.absoluteX 0x1234)),
    ([0x41, 0x34], .eor (.indexedIndirect 0x34)), ([0x45, 0x34], .eor (.zeroPage 0x34)),
    ([0x49, 0x34], .eor (.immediate 0x34)), ([0x4D, 0x34, 0x12], .eor (.absolute 0x1234)),
    ([0x51, 0x34], .eor (.indirectIndexed 0x34)), ([0x55, 0x34], .eor (.zeroPageX 0x34)),
    ([0x59, 0x34, 0x12], .eor (.absoluteY 0x1234)), ([0x5D, 0x34, 0x12], .eor (.absoluteX 0x1234)),
    ([0x24, 0x34], .bit (.zeroPage 0x34)), ([0x2C, 0x34, 0x12], .bit (.absolute 0x1234))] := by decide

theorem test_decode_shifts : decodesTo [
    ([0x06, 0x34], .asl (.zeroPage 0x34)), ([0x0A], .asl (.register .a)),
    ([0x0E, 0x34, 0x12], .asl (.absolute 0x1234)), ([0x16, 0x34], .asl (.zeroPageX 0x34)),
    ([0x1E, 0x34, 0x12], .asl (.absoluteX 0x1234)), ([0x46, 0x34], .lsr (.zeroPage 0x34)),
    ([0x4A], .lsr (.register .a)), ([0x4E, 0x34, 0x12], .lsr (.absolute 0x1234)),
    ([0x56, 0x34], .lsr (.zeroPageX 0x34)), ([0x5E, 0x34, 0x12], .lsr (.absoluteX 0x1234)),
    ([0x26, 0x34], .rol (.zeroPage 0x34)), ([0x2A], .rol (.register .a)),
    ([0x2E, 0x34, 0x12], .rol (.absolute 0x1234)), ([0x36, 0x34], .rol (.zeroPageX 0x34)),
    ([0x3E, 0x34, 0x12], .rol (.absoluteX 0x1234)), ([0x66, 0x34], .ror (.zeroPage 0x34)),
    ([0x6A], .ror (.register .a)), ([0x6E, 0x34, 0x12], .ror (.absolute 0x1234)),
    ([0x76, 0x34], .ror (.zeroPageX 0x34)), ([0x7E, 0x34, 0x12], .ror (.absoluteX 0x1234))] := by decide

theorem test_decode_control_flow : decodesTo [
    ([0x4C, 0x34, 0x12], .jmp (.absolute 0x1234)), ([0x6C, 0x34, 0x12], .jmp (.indirect 0x1234)),
    ([0x20, 0x34, 0x12], .jsr 0x1234), ([0x60], .rts), ([0x90, 0x34], .bcc 0x34),
    ([0xB0, 0x34], .bcs 0x34), ([0xF0, 0x34], .beq 0x34), ([0xD0, 0x34], .bne 0x34),
    ([0x30, 0x34], .bmi 0x34), ([0x10, 0x34], .bpl 0x34), ([0x50, 0x34], .bvc 0x34),
    ([0x70, 0x34], .bvs 0x34)] := by decide

theorem test_decode_stack_and_flags : decodesTo [
    ([0x48], .pha), ([0x08], .php), ([0x68], .pla), ([0x28], .plp), ([0x18], .clc), ([0x38], .sec),
    ([0x58], .cli), ([0x78], .sei), ([0xD8], .cld), ([0xF8], .sed), ([0xB8], .clv)] := by decide

theorem test_decode_system : decodesTo [
    ([0x00], .brk), ([0x40], .rti), ([0xEA], .nop)] := by decide

theorem test_decode_undocumented : decodesTo [
    ([0xA3, 0x34], .lax (.indexedIndirect 0x34)), ([0xA7, 0x34], .lax (.zeroPage 0x34)),
    ([0xAF, 0x34, 0x12], .lax (.absolute 0x1234)), ([0xB3, 0x34], .lax (.indirectIndexed 0x34)),
    ([0xB7, 0x34], .lax (.zeroPageY 0x34)), ([0xBF, 0x34, 0x12], .lax (.absoluteY 0x1234)),
    ([0x83, 0x34], .sax (.indexedIndirect 0x34)), ([0x87, 0x34], .sax (.zeroPage 0x34)),
    ([0x8F, 0x34, 0x12], .sax (.absolute 0x1234)), ([0x97, 0x34], .sax (.zeroPageY 0x34)),
    ([0xCB, 0x34], .axs 0x34)] := by decide

theorem test_decode_unmapped :
    unmappedBytes.all (fun op => decide (decode [op] = .ok (.unmapped op))) := by decide

theorem test_decode_refuses_short_slices :
    decode [] = .error .emptySlice ∧ decode [0xA9] = .error (.truncated 2 1) ∧
      decode [0x4C, 0x00] = .error (.truncated 3 2) := by decide

/-- A decode table other than R97's (R8, U11): AXS is unmapped, and the unmapped byte 0xEB is another
SBC immediate. -/
def otherTable : TableChanges := [(0xCB, none), (0xEB, some (.sbc (.immediate 0)))]

theorem test_decode_other_table :
    decodeWith otherTable [0xCB, 0x34] = .ok (.unmapped 0xCB) ∧
      decodeWith otherTable [0xEB, 0x34, 0x12] = .ok (.sbc (.immediate 0x34)) ∧
      decodeWith otherTable [0xEB] = .error (.truncated 2 1) ∧
      decodeWith otherTable [0xAD, 0x34, 0x12] = .ok (.lda (.absolute 0x1234)) := by decide

/-! ### Words for the vectors of 95_test_vectors.md -/

/-- Every flag 0. -/
def noFlags : Flags :=
  { c := false, z := false, i := false, d := false, b := false, v := false, n := false }

/-- The start state of a vector: the instruction's bytes at 0x8000, these memory bytes, SP 0xFF and
every flag 0. -/
def vector (code : List Byte) (cells : List Host.Cell) : State :=
  let mem := cells.foldl (fun m p => Memory.set m p.1 p.2) []
  State.placeAtPC { State.reset with pc := 0x8000, flags := noFlags, mem := mem } code

/-- What a vector's end state lists: A, X, Y, SP, PC and the flag byte with the stored B in bit 4,
and the bytes at these RAM or ROM addresses. -/
def seen (o : Host.Outcome State Fault Refusal) (addrs : List Word) :
    Option (List Nat × List Byte) :=
  (nextState o).map fun s =>
    ([s.a.toNat, s.x.toNat, s.y.toNat, s.sp.toNat, s.pc.toNat, s.flags.display.toNat],
      addrs.filterMap s.byteAt)

/-! ### 95_test_vectors.md, table V-LS: loads, stores, transfers -/

theorem test_lda_pointer_wraps_in_zero_page :
    seen (step { vector [0xA1, 0xFE] [(0x00FF, 0x34), (0x0000, 0x02), (0x0234, 0xAB), (0x0100, 0x07)]
        with x := 0x01 })
      [] = some ([0xAB, 0x01, 0x00, 0xFF, 0x8002, 0xA0], []) := by decide +kernel

theorem test_lda_indirect_y :
    seen (step { vector [0xB1, 0xFF] [(0x00FF, 0xF8), (0x0000, 0x02), (0x0308, 0xCD)]
        with y := 0x10 })
      [] = some ([0xCD, 0x00, 0x10, 0xFF, 0x8002, 0xA0], []) := by decide +kernel

theorem test_ldx_immediate_zero :
    seen (step { vector [0xA2, 0x00] [] with x := 0x05 })
      [] = some ([0x00, 0x00, 0x00, 0xFF, 0x8002, 0x22], []) := by decide +kernel

theorem test_ldx_zeroPageY_wraps :
    seen (step { vector [0xB6, 0xF0] [(0x0001, 0x80)] with y := 0x11 })
      [] = some ([0x00, 0x80, 0x11, 0xFF, 0x8002, 0xA0], []) := by decide +kernel

theorem test_ldy_immediate :
    seen (step (vector [0xA0, 0x7F] []))
      [] = some ([0x00, 0x00, 0x7F, 0xFF, 0x8002, 0x20], []) := by decide +kernel

theorem test_sta_indirect_y :
    seen (step { vector [0x91, 0x20] [(0x0020, 0x01), (0x0021, 0x02)] with a := 0x5A, y := 0xFF })
      [0x0300] = some ([0x5A, 0x00, 0xFF, 0xFF, 0x8002, 0x20], [0x5A]) := by decide +kernel

theorem test_sta_rom_unchanged :
    seen (step { vector [0x8D, 0x00, 0x80] [] with a := 0x3C })
      [0x8000] = some ([0x3C, 0x00, 0x00, 0xFF, 0x8003, 0x20], [0x8D]) := by decide +kernel

theorem test_stx_no_flags :
    seen (step { vector [0x86, 0x10] [] with flags := { noFlags with n := true } })
      [0x0010] = some ([0x00, 0x00, 0x00, 0xFF, 0x8002, 0xA0], [0x00]) := by decide +kernel

theorem test_sty_zeroPageX_wraps :
    seen (step { vector [0x94, 0xFF] [] with x := 0x02, y := 0xEE })
      [0x0001] = some ([0x00, 0x02, 0xEE, 0xFF, 0x8002, 0x20], [0xEE]) := by decide +kernel

theorem test_tax :
    seen (step { vector [0xAA] [] with a := 0x80 })
      [] = some ([0x80, 0x80, 0x00, 0xFF, 0x8001, 0xA0], []) := by decide +kernel

theorem test_tay :
    seen (step { vector [0xA8] [] with y := 0x09 })
      [] = some ([0x00, 0x00, 0x00, 0xFF, 0x8001, 0x22], []) := by decide +kernel

theorem test_txa :
    seen (step { vector [0x8A] [] with x := 0x7F })
      [] = some ([0x7F, 0x7F, 0x00, 0xFF, 0x8001, 0x20], []) := by decide +kernel

theorem test_tya :
    seen (step { vector [0x98] [] with y := 0xFF })
      [] = some ([0xFF, 0x00, 0xFF, 0xFF, 0x8001, 0xA0], []) := by decide +kernel

theorem test_tsx :
    seen (step { vector [0xBA] [] with x := 0x07, sp := 0x00 })
      [] = some ([0x00, 0x00, 0x00, 0x00, 0x8001, 0x22], []) := by decide +kernel

theorem test_txs_no_flags :
    seen (step { vector [0x9A] [] with flags := { noFlags with n := true } })
      [] = some ([0x00, 0x00, 0x00, 0x00, 0x8001, 0xA0], []) := by decide +kernel


/-! ### 95_test_vectors.md, table V-AL: arithmetic and logic -/

theorem test_adc_signed_overflow :
    seen (step { vector [0x69, 0x01] [] with a := 0x7F })
      [] = some ([0x80, 0x00, 0x00, 0xFF, 0x8002, 0xE0], []) := by decide +kernel

theorem test_adc_decimal_carry_in :
    seen (step { vector [0x69, 0x46] []
        with a := 0x58, flags := { noFlags with c := true, d := true } })
      [] = some ([0x05, 0x00, 0x00, 0xFF, 0x8002, 0x69], []) := by decide +kernel

theorem test_sbc_signed_overflow :
    seen (step { vector [0xE9, 0x01] [] with a := 0x80, flags := { noFlags with c := true } })
      [] = some ([0x7F, 0x00, 0x00, 0xFF, 0x8002, 0x61], []) := by decide +kernel

theorem test_sbc_decimal_borrow :
    seen (step { vector [0xE9, 0x01] [] with flags := { noFlags with c := true, d := true } })
      [] = some ([0x99, 0x00, 0x00, 0xFF, 0x8002, 0xA8], []) := by decide +kernel

theorem test_and :
    seen (step { vector [0x29, 0x0F] [] with a := 0xF0 })
      [] = some ([0x00, 0x00, 0x00, 0xFF, 0x8002, 0x22], []) := by decide +kernel

theorem test_ora :
    seen (step { vector [0x09, 0x80] [] with a := 0x01 })
      [] = some ([0x81, 0x00, 0x00, 0xFF, 0x8002, 0xA0], []) := by decide +kernel

theorem test_eor :
    seen (step { vector [0x49, 0xFF] [] with a := 0xFF })
      [] = some ([0x00, 0x00, 0x00, 0xFF, 0x8002, 0x22], []) := by decide +kernel

theorem test_cmp_less :
    seen (step { vector [0xC9, 0x11] [] with a := 0x10 })
      [] = some ([0x10, 0x00, 0x00, 0xFF, 0x8002, 0xA0], []) := by decide +kernel

theorem test_cmp_keeps_v :
    seen (step { vector [0xC9, 0x01] [] with a := 0x80, flags := { noFlags with v := true } })
      [] = some ([0x80, 0x00, 0x00, 0xFF, 0x8002, 0x61], []) := by decide +kernel

theorem test_cpx :
    seen (step (vector [0xE0, 0xFF] []))
      [] = some ([0x00, 0x00, 0x00, 0xFF, 0x8002, 0x20], []) := by decide +kernel

theorem test_cpy_equal :
    seen (step (vector [0xC0, 0x00] []))
      [] = some ([0x00, 0x00, 0x00, 0xFF, 0x8002, 0x23], []) := by decide +kernel

theorem test_bit_sets_n_v :
    seen (step { vector [0x24, 0x10] [(0x0010, 0xC0)] with a := 0x01 })
      [] = some ([0x01, 0x00, 0x00, 0xFF, 0x8002, 0xE2], []) := by decide +kernel

theorem test_bit_clears_n_v :
    seen (step { vector [0x2C, 0x00, 0x02] [(0x0200, 0x3F)]
        with a := 0xFF, flags := { noFlags with v := true, n := true } })
      [] = some ([0xFF, 0x00, 0x00, 0xFF, 0x8003, 0x20], []) := by decide +kernel

theorem test_inc_absoluteX :
    seen (step { vector [0xFE, 0xFF, 0x02] [(0x0300, 0x7F)] with x := 0x01 })
      [0x0300] = some ([0x00, 0x01, 0x00, 0xFF, 0x8003, 0xA0], [0x80]) := by decide +kernel

theorem test_dec_wraps :
    seen (step (vector [0xC6, 0x10] [(0x0010, 0x00)]))
      [0x0010] = some ([0x00, 0x00, 0x00, 0xFF, 0x8002, 0xA0], [0xFF]) := by decide +kernel

theorem test_inx_wraps :
    seen (step { vector [0xE8] [] with x := 0xFF })
      [] = some ([0x00, 0x00, 0x00, 0xFF, 0x8001, 0x22], []) := by decide +kernel

theorem test_iny_negative :
    seen (step { vector [0xC8] [] with y := 0x7F })
      [] = some ([0x00, 0x00, 0x80, 0xFF, 0x8001, 0xA0], []) := by decide +kernel

theorem test_dex_wraps :
    seen (step (vector [0xCA] []))
      [] = some ([0x00, 0xFF, 0x00, 0xFF, 0x8001, 0xA0], []) := by decide +kernel

theorem test_dey_zero :
    seen (step { vector [0x88] [] with y := 0x01 })
      [] = some ([0x00, 0x00, 0x00, 0xFF, 0x8001, 0x22], []) := by decide +kernel


/-! ### 95_test_vectors.md, table V-SH: shifts and rotates -/

theorem test_asl_accumulator :
    seen (step { vector [0x0A] [] with a := 0x81 })
      [] = some ([0x02, 0x00, 0x00, 0xFF, 0x8001, 0x21], []) := by decide +kernel

theorem test_asl_memory :
    seen (step (vector [0x06, 0x10] [(0x0010, 0x80)]))
      [0x0010] = some ([0x00, 0x00, 0x00, 0xFF, 0x8002, 0x23], [0x00]) := by decide +kernel

theorem test_lsr_accumulator :
    seen (step { vector [0x4A] [] with a := 0x01, flags := { noFlags with n := true } })
      [] = some ([0x00, 0x00, 0x00, 0xFF, 0x8001, 0x23], []) := by decide +kernel

theorem test_lsr_ignores_c :
    seen (step { vector [0x4E, 0x00, 0x02] [(0x0200, 0xFE)]
        with flags := { noFlags with c := true } })
      [0x0200] = some ([0x00, 0x00, 0x00, 0xFF, 0x8003, 0x20], [0x7F]) := by decide +kernel

theorem test_rol_accumulator :
    seen (step { vector [0x2A] [] with a := 0x80, flags := { noFlags with c := true } })
      [] = some ([0x01, 0x00, 0x00, 0xFF, 0x8001, 0x21], []) := by decide +kernel

theorem test_rol_memory :
    seen (step (vector [0x26, 0x10] [(0x0010, 0x40)]))
      [0x0010] = some ([0x00, 0x00, 0x00, 0xFF, 0x8002, 0xA0], [0x80]) := by decide +kernel

theorem test_ror_accumulator :
    seen (step { vector [0x6A] [] with a := 0x01, flags := { noFlags with c := true } })
      [] = some ([0x80, 0x00, 0x00, 0xFF, 0x8001, 0xA1], []) := by decide +kernel

theorem test_ror_zeroPageX :
    seen (step { vector [0x76, 0x0F] [(0x0010, 0x02)]
        with x := 0x01, flags := { noFlags with c := true } })
      [0x0010] = some ([0x00, 0x01, 0x00, 0xFF, 0x8002, 0xA0], [0x81]) := by decide +kernel


/-! ### 95_test_vectors.md, table V-CF: jumps, calls, branches -/

theorem test_jmp_indirect_page_wrap :
    seen (step (vector [0x6C, 0xFF, 0x02] [(0x02FF, 0x40), (0x0200, 0x80), (0x0300, 0x90)]))
      [] = some ([0x00, 0x00, 0x00, 0xFF, 0x8040, 0x20], []) := by decide +kernel

theorem test_jmp_indirect_no_wrap :
    seen (step { vector [0x6C, 0xFF, 0x02] [(0x02FF, 0x40), (0x0200, 0x80), (0x0300, 0x90)]
        with cfg := { defaultConfig with jmpIndirectPageWrap := false } })
      [] = some ([0x00, 0x00, 0x00, 0xFF, 0x9040, 0x20], []) := by decide +kernel

theorem test_jsr_sp_wraps :
    seen (step { vector [0x20, 0x00, 0x90] [] with sp := 0x00 })
      [0x0100, 0x01FF] = some ([0x00, 0x00, 0x00, 0xFE, 0x9000, 0x20], [0x80, 0x02]) := by decide +kernel

theorem test_rts_pc_wraps :
    seen (step { vector [0x60] [(0x01FE, 0xFF), (0x01FF, 0xFF)] with sp := 0xFD })
      [] = some ([0x00, 0x00, 0x00, 0xFF, 0x0000, 0x20], []) := by decide +kernel

theorem test_bcc_taken :
    seen (step (vector [0x90, 0x10] []))
      [] = some ([0x00, 0x00, 0x00, 0xFF, 0x8012, 0x20], []) := by decide +kernel

theorem test_bcc_not :
    seen (step { vector [0x90, 0x10] [] with flags := { noFlags with c := true } })
      [] = some ([0x00, 0x00, 0x00, 0xFF, 0x8002, 0x21], []) := by decide +kernel

theorem test_bcs_not :
    seen (step (vector [0xB0, 0x10] []))
      [] = some ([0x00, 0x00, 0x00, 0xFF, 0x8002, 0x20], []) := by decide +kernel

theorem test_bcs_taken :
    seen (step { vector [0xB0, 0x10] [] with flags := { noFlags with c := true } })
      [] = some ([0x00, 0x00, 0x00, 0xFF, 0x8012, 0x21], []) := by decide +kernel

theorem test_beq_not :
    seen (step (vector [0xF0, 0x10] []))
      [] = some ([0x00, 0x00, 0x00, 0xFF, 0x8002, 0x20], []) := by decide +kernel

theorem test_beq_taken_forward :
    seen (step { vector [0xF0, 0x7F] [] with flags := { noFlags with z := true } })
      [] = some ([0x00, 0x00, 0x00, 0xFF, 0x8081, 0x22], []) := by decide +kernel

theorem test_bne_taken_backward :
    seen (step (vector [0xD0, 0x80] []))
      [] = some ([0x00, 0x00, 0x00, 0xFF, 0x7F82, 0x20], []) := by decide +kernel

theorem test_bne_not :
    seen (step { vector [0xD0, 0x10] [] with flags := { noFlags with z := true } })
      [] = some ([0x00, 0x00, 0x00, 0xFF, 0x8002, 0x22], []) := by decide +kernel

theorem test_bmi_not :
    seen (step (vector [0x30, 0x10] []))
      [] = some ([0x00, 0x00, 0x00, 0xFF, 0x8002, 0x20], []) := by decide +kernel

theorem test_bmi_taken :
    seen (step { vector [0x30, 0x10] [] with flags := { noFlags with n := true } })
      [] = some ([0x00, 0x00, 0x00, 0xFF, 0x8012, 0xA0], []) := by decide +kernel

theorem test_bpl_taken :
    seen (step (vector [0x10, 0x10] []))
      [] = some ([0x00, 0x00, 0x00, 0xFF, 0x8012, 0x20], []) := by decide +kernel

theorem test_bpl_not :
    seen (step { vector [0x10, 0x10] [] with flags := { noFlags with n := true } })
      [] = some ([0x00, 0x00, 0x00, 0xFF, 0x8002, 0xA0], []) := by decide +kernel

theorem test_bvc_taken :
    seen (step (vector [0x50, 0x10] []))
      [] = some ([0x00, 0x00, 0x00, 0xFF, 0x8012, 0x20], []) := by decide +kernel

theorem test_bvc_not :
    seen (step { vector [0x50, 0x10] [] with flags := { noFlags with v := true } })
      [] = some ([0x00, 0x00, 0x00, 0xFF, 0x8002, 0x60], []) := by decide +kernel

theorem test_bvs_not :
    seen (step (vector [0x70, 0x10] []))
      [] = some ([0x00, 0x00, 0x00, 0xFF, 0x8002, 0x20], []) := by decide +kernel

theorem test_bvs_taken :
    seen (step { vector [0x70, 0x10] [] with flags := { noFlags with v := true } })
      [] = some ([0x00, 0x00, 0x00, 0xFF, 0x8012, 0x60], []) := by decide +kernel


/-! ### 95_test_vectors.md, table V-SF: stack and flags -/

theorem test_pha_sp_wraps :
    seen (step { vector [0x48] [] with a := 0xAB, sp := 0x00 })
      [0x0100] = some ([0xAB, 0x00, 0x00, 0xFF, 0x8001, 0x20], [0xAB]) := by decide +kernel

theorem test_php_pushes_bits_5_and_4 :
    seen (step { vector [0x08] []
        with flags := { noFlags with z := true, i := true, d := true, v := true } })
      [0x01FF] = some ([0x00, 0x00, 0x00, 0xFE, 0x8001, 0x6E], [0x7E]) := by decide +kernel

theorem test_pla_sp_wraps :
    seen (step (vector [0x68] [(0x0100, 0x80)]))
      [] = some ([0x80, 0x00, 0x00, 0x00, 0x8001, 0xA0], []) := by decide +kernel

theorem test_plp_sets :
    seen (step { vector [0x28] [(0x01FF, 0xC3)] with sp := 0xFE })
      [] = some ([0x00, 0x00, 0x00, 0xFF, 0x8001, 0xE3], []) := by decide +kernel

theorem test_plp_clears :
    seen (step { vector [0x28] [(0x01FF, 0x00)]
        with sp := 0xFE, flags := { noFlags with c := true, z := true, i := true, d := true, v := true, n := true } })
      [] = some ([0x00, 0x00, 0x00, 0xFF, 0x8001, 0x20], []) := by decide +kernel

theorem test_clc :
    seen (step { vector [0x18] [] with flags := { noFlags with c := true } })
      [] = some ([0x00, 0x00, 0x00, 0xFF, 0x8001, 0x20], []) := by decide +kernel

theorem test_sec :
    seen (step (vector [0x38] []))
      [] = some ([0x00, 0x00, 0x00, 0xFF, 0x8001, 0x21], []) := by decide +kernel

theorem test_cli :
    seen (step { vector [0x58] [] with flags := { noFlags with i := true } })
      [] = some ([0x00, 0x00, 0x00, 0xFF, 0x8001, 0x20], []) := by decide +kernel

theorem test_sei :
    seen (step (vector [0x78] []))
      [] = some ([0x00, 0x00, 0x00, 0xFF, 0x8001, 0x24], []) := by decide +kernel

theorem test_cld :
    seen (step { vector [0xD8] [] with flags := { noFlags with d := true } })
      [] = some ([0x00, 0x00, 0x00, 0xFF, 0x8001, 0x20], []) := by decide +kernel

theorem test_sed :
    seen (step (vector [0xF8] []))
      [] = some ([0x00, 0x00, 0x00, 0xFF, 0x8001, 0x28], []) := by decide +kernel

theorem test_clv :
    seen (step { vector [0xB8] [] with flags := { noFlags with v := true } })
      [] = some ([0x00, 0x00, 0x00, 0xFF, 0x8001, 0x20], []) := by decide +kernel


/-! ### 95_test_vectors.md, table V-SY and V-UN: system, unmapped, undocumented -/

theorem test_brk_not_masked :
    seen (step { vector [0x00] [(0xFFFE, 0x00), (0xFFFF, 0x90)]
        with flags := { noFlags with i := true, d := true } })
      [0x01FF, 0x01FE, 0x01FD] = some ([0x00, 0x00, 0x00, 0xFC, 0x9000, 0x3C], [0x80, 0x01, 0x3C]) := by decide +kernel

theorem test_rti_no_adjustment :
    seen (step { vector [0x40] [(0x01FD, 0xCB), (0x01FE, 0x34), (0x01FF, 0x12)]
        with sp := 0xFC, flags := { noFlags with i := true } })
      [] = some ([0x00, 0x00, 0x00, 0xFF, 0x1234, 0xEB], []) := by decide +kernel

theorem test_nop :
    seen (step (vector [0xEA] []))
      [] = some ([0x00, 0x00, 0x00, 0xFF, 0x8001, 0x20], []) := by decide +kernel

theorem test_unmapped_02 :
    seen (step (vector [0x02] []))
      [] = some ([0x00, 0x00, 0x00, 0xFF, 0x8001, 0x20], []) := by decide +kernel

theorem test_unmapped_AB :
    seen (step { vector [0xAB, 0x55] [] with a := 0x01, x := 0x02 })
      [] = some ([0x01, 0x02, 0x00, 0xFF, 0x8001, 0x20], []) := by decide +kernel

theorem test_lax_old_x_forms_pointer :
    seen (step { vector [0xA3, 0x10] [(0x0014, 0x00), (0x0015, 0x03), (0x0300, 0x55)]
        with x := 0x04 })
      [] = some ([0x55, 0x55, 0x00, 0xFF, 0x8002, 0x20], []) := by decide +kernel

theorem test_lax_zero :
    seen (step { vector [0xB7, 0xF0] [(0x0010, 0x00)] with y := 0x20 })
      [] = some ([0x00, 0x00, 0x20, 0xFF, 0x8002, 0x22], []) := by decide +kernel

theorem test_sax :
    seen (step { vector [0x87, 0x20] [] with a := 0xF0, x := 0x3C })
      [0x0020] = some ([0xF0, 0x3C, 0x00, 0xFF, 0x8002, 0x20], [0x30]) := by decide +kernel

theorem test_sax_no_flags :
    seen (step { vector [0x8F, 0x00, 0x02] [] with a := 0x0F, x := 0xF0 })
      [0x0200] = some ([0x0F, 0xF0, 0x00, 0xFF, 0x8003, 0x20], [0x00]) := by decide +kernel

theorem test_axs_borrow :
    seen (step { vector [0xCB, 0x40] [] with a := 0xF0, x := 0x3C })
      [] = some ([0xF0, 0xF0, 0x00, 0xFF, 0x8002, 0xA0], []) := by decide +kernel

theorem test_axs_ignores_d :
    seen (step { vector [0xCB, 0x30] []
        with a := 0xF0, x := 0x3C, flags := { noFlags with d := true, v := true } })
      [] = some ([0xF0, 0x00, 0x00, 0xFF, 0x8002, 0x6B], []) := by decide +kernel


/-! ### 95_test_vectors.md, table V-FT: faults -/

theorem test_read_unmounted_faults :
    stopOf (step (vector [0xAD, 0x00, 0x40] [])) = some (.fault (.outOfRangeAccess 0x4000)) := by decide +kernel

theorem test_write_unmounted_faults :
    stopOf (step { vector [0x8D, 0xFF, 0x7F] [] with a := 0x01 }) = some (.fault (.outOfRangeAccess 0x7FFF)) := by decide +kernel

theorem test_status_write_faults :
    stopOf (step { vector [0x8D, 0x02, 0x20] [] with a := 0x01 }) = some (.fault (.illegalStatusWrite 0x2002)) := by decide +kernel

theorem test_modify_status_faults_on_write :
    stopOf (step (vector [0xEE, 0x02, 0x20] [])) = some (.fault (.illegalStatusWrite 0x2002)) := by decide +kernel

/-! ### 95_test_vectors.md, tables V-FE, V-IN and V-TM -/

theorem test_fetch_uses_no_mirror_byte :
    stopOf (step { vector [] [(0x7FF, 0xA9)] with pc := 0x0FFF }) =
      some (.fault (.addressSpaceExhaustion 0x0FFF)) := by decide

theorem test_fetch_from_registers_exhausts :
    stopOf (step { vector [] [] with pc := 0x2000 }) =
      some (.fault (.addressSpaceExhaustion 0x2000)) := by decide

theorem test_fetch_unmounted_faults :
    stopOf (step { vector [] [] with pc := 0x4000 }) = some (.fault (.outOfRangeAccess 0x4000)) := by
  decide

theorem test_pc_wraps :
    (nextState (step { vector [] [(0xFFFE, 0xA9), (0xFFFF, 0x05)] with pc := 0xFFFE })).map (·.pc) =
      some 0x0000 := by decide +kernel

/-- The vectors of table V-IN. -/
def vectors : List Host.Cell :=
  [(0xFFFA, 0x00), (0xFFFB, 0x90), (0xFFFC, 0x00), (0xFFFD, 0x80), (0xFFFE, 0x00), (0xFFFF, 0xA0)]

theorem test_nmi :
    seen (step { vector [] vectors with
        pc := 0x8123, flags := { noFlags with c := true, d := true, n := true },
        driver := [.present ⟨false, true, false⟩] }) [0x01FF, 0x01FE, 0x01FD] =
      some ([0, 0, 0, 0xFC, 0x9000, 0xAD], [0x81, 0x23, 0xA9]) := by decide +kernel

theorem test_irq :
    seen (step { vector [] vectors with
        pc := 0x8123, flags := { noFlags with z := true, v := true },
        driver := [.present ⟨false, false, true⟩] }) [0x01FF, 0x01FE, 0x01FD] =
      some ([0, 0, 0, 0xFC, 0xA000, 0x66], [0x81, 0x23, 0x62]) := by decide +kernel

theorem test_irq_masked :
    seen (step { vector [] vectors with
        pc := 0x8123, flags := resetFlags, driver := [.present ⟨false, false, true⟩] }) [0x01FF] =
      some ([0, 0, 0, 0xFF, 0x8123, 0x24], [0x00]) := by decide +kernel

theorem test_nmi_with_irq :
    seen (step { vector [] vectors with
        pc := 0x8123, driver := [.present ⟨false, true, true⟩] }) [0x01FF, 0x01FE, 0x01FD] =
      some ([0, 0, 0, 0xFC, 0x9000, 0x24], [0x81, 0x23, 0x20]) := by decide +kernel

theorem test_reset_event :
    seen (step { vector [] vectors with
        a := 1, x := 2, y := 3, sp := 0x80, pc := 0x1234,
        flags := { c := true, z := true, i := false, d := true, b := true, v := true, n := true },
        driver := [.present ⟨true, false, false⟩] }) [] =
      some ([1, 2, 3, 0xFF, 0x8000, 0x24], []) := by decide +kernel

/-- A tick at these counters, with NMI generation enabled: the counters, status and result. -/
def ticked (scanline : Int) (cycle : Nat) (status : Byte) : Int × Nat × Byte × TickResult :=
  let r := Timing.tick sourceGeometry
    { Timing.constructed with control := 0x80, status, scanline, cycle }
  (r.1.scanline, r.1.cycle, r.1.status, r.2)

theorem test_tick_wraps_line : ticked 0 340 0x00 = (1, 0, 0x00, .normal) := by decide
theorem test_tick_sets_vblank : ticked 241 0 0x00 = (241, 1, 0x80, .nmi) := by decide
theorem test_tick_wraps_frame : ticked 261 340 0x80 = (-1, 0, 0x80, .normal) := by decide
theorem test_tick_clears_vblank : ticked (-1) 0 0x80 = (-1, 1, 0x00, .normal) := by decide

/-- The device after these bus writes. -/
def written (s : State) (ws : List (Word × Byte)) : Option Timing :=
  (ws.foldlM (fun s w => busWrite w.1 w.2 s) s).toOption.map (·.dev)

theorem test_address_high_byte_first :
    (written State.reset [(0x2006, 0x21), (0x2006, 0x08)]).map (fun t => (t.address, t.w)) =
      some (0x2108, false) := by decide

theorem test_toggle_shared :
    (written State.reset [(0x2005, 0x12), (0x2006, 0x34)]).map
      (fun t => (t.scroll, t.address, t.w)) = some (0x1200, 0x0034, false) := by decide

theorem test_ports_mirror :
    (written State.reset [(0x2008, 0x01), (0x3FFF, 0x55)]).map (fun t => (t.control, t.data)) =
      some (0x01, 0x55) := by decide

theorem test_status_read_resets_toggle :
    (busRead 0x3FFA { State.reset with dev := { Timing.constructed with status := 0x80, w := true } }
      ).toOption.map (fun r => (r.1, r.2.dev.status, r.2.dev.w)) = some (0x80, 0x80, false) := by
  decide

theorem test_build_refuses_overlap :
    buildMap [] [⟨0, 0x2000, .ram 2048⟩, ⟨0x1FFF, 0x3000, .rom 16⟩] =
      .error (.configurationError 0x1FFF 0x3000) := by decide

theorem test_build_admits_default_map : buildMap [] defaultMap = .ok defaultMap := by decide

/-! ### Witnesses: for each statement with hypotheses, states and operands that meet them -/

theorem exists_next {o : Host.Outcome State Fault Refusal} (h : (nextState o).isSome = true) :
    ∃ t, o = .next t := by
  match o, h with
  | .next t, _ => exact ⟨t, rfl⟩

theorem exists_ok {α : Type} {r : Result α} (h : r.toOption.isSome = true) : ∃ a, r = .ok a := by
  match r, h with
  | .ok a, _ => exact ⟨a, rfl⟩

/-- Only the ROM is mounted: nothing can be pushed, and no zero-page pointer read. -/
def romOnly : State :=
  { State.reset with cfg := { defaultConfig with map := [⟨0x8000, 0x10000, .rom 32768⟩] } }

/-- The stack is mounted, the vectors are not. -/
def noVectors : State :=
  { State.reset with cfg := { defaultConfig with map := [⟨0, 0x2000, .ram 2048⟩] } }

/-- Of the reset vector only the low byte is mounted. -/
def halfVector : State :=
  { State.reset with
    cfg := { defaultConfig with map := [⟨0, 0x2000, .ram 2048⟩, ⟨0xFFFC, 0xFFFD, .rom 1⟩] } }

/-- The stack page is the register file: a push at SP = 2 meets the status port. -/
def portStack : State :=
  { State.reset with cfg := { defaultConfig with map := [⟨0, 0x2000, .registers⟩] }, sp := 2 }

/-- Another decode table, an unmapped AXS next. -/
def otherDecode : State :=
  { State.reset with cfg := { defaultConfig with tableChanges := otherTable }, mem := [(0, 0xCB)] }

/-- One instruction at 0x0000, run as the driver's action. -/
def cpuThen (op : Byte) : State := { State.reset with mem := [(0, op)], driver := [.cpu] }

/-- The machine with its driver presenting these events and I as given. -/
def presenting (e : Events) (i : Bool) (s : State) : State :=
  { s with driver := [.present e], flags := { noFlags with i := i } }

/-- The machine with a tick next that sets VBlank, NMI generation enabled. -/
def beforeVblank (forward : Bool) (s : State) : State :=
  { s with
    driver := [.tick forward],
    dev := { Timing.constructed with control := 0x80, scanline := 241, cycle := 0 } }

theorem witness_DecodeOfEncode :
    (Instr.adc (.absoluteX 0xFFFF)).wellFormed = true ∧ (Instr.unmapped 0xFF).wellFormed = true ∧
      (Instr.ror (.register .a)).wellFormed = true := by decide +kernel

theorem witness_EncodeOfDecode :
    decode [0x9D, 0xFF, 0xFF, 0x00] = .ok (.sta (.absoluteX 0xFFFF)) := by decide +kernel

theorem witness_LengthFixedByFirstByte :
    (decode [0xAD, 0x01, 0x02] = .ok (.lda (.absolute 0x0201)) ∧
      decode [0xAD, 0xFF, 0xFF, 0x00] = .ok (.lda (.absolute 0xFFFF))) ∧
    (decode [0x02] = .ok (.unmapped 0x02) ∧ decode [0x02, 0x05] = .ok (.unmapped 0x02)) ∧
    decodeWith otherTable [0xEB, 0x01] = .ok (.sbc (.immediate 0x01)) ∧
      decodeWith otherTable [0xEB, 0xFF] = .ok (.sbc (.immediate 0xFF)) := by decide +kernel

theorem witness_UnmappedByteSkipsOne :
    let s := { State.reset with pc := 0x1FFF, mem := [(0x07FF, 0xFF)] }
    (s.driver = [] ∧ s.started = true ∧ busSlice s.pc 3 s = .ok [0xFF] ∧
      s.cfg.tableChanges.lookup 0xFF = none ∧ (0xFF : Byte) ∈ unmappedBytes) ∧
    otherDecode.driver = [] ∧ otherDecode.started = true ∧
      busSlice otherDecode.pc 3 otherDecode = .ok [0xCB, 0x00, 0x00] ∧
      otherDecode.cfg.tableChanges.lookup 0xCB = some none := by decide +kernel

theorem witness_StepRunsDecodedInstruction_lengths :
    (decodeOpcode [] 0xAD 0x34 0x12).length ≤ 2 + 1 ∧ 1 + 1 < (decodeOpcode [] 0xAD 0x34 0).length ∧
      0 + 1 < (decodeOpcode [] 0xA9 0 0).length ∧
      1 + 1 ≥ (decodeOpcode otherTable 0xEB 0x34 0).length := by decide +kernel

theorem witness_StepRunsDecodedInstruction_stops :
    let s := { State.reset with mem := [(0x07FF, 0xA9)] }
    s.driver = [] ∧ s.started = true ∧ lookup s.cfg.map 0x4000 = none ∧
      busSlice 0x3FFF 3 s = .ok [] ∧ busSlice 0x07FF 3 s = .ok [0xA9] ∧
      decodeWith s.cfg.tableChanges [0xA9] = .error (.truncated 2 1) := by decide +kernel

theorem witness_StepRunsDecodedInstruction_runs :
    let s := { State.reset with pc := 0x07FE, mem := [(0x07FE, 0xA9), (0x07FF, 0x05)] }
    s.driver = [] ∧ s.started = true ∧ busSlice s.pc 3 s = .ok [0xA9, 0x05] ∧
      decodeWith s.cfg.tableChanges [0xA9, 0x05] = .ok (.lda (.immediate 0x05)) := by decide +kernel

theorem witness_PlacedWordRunsFirst :
    decodeTableWord 24 0x1234AD = some (.lda (.absolute 0x1234)) ∧
      decodeTableWord 8 0x0A = some (.asl (.register .a)) := by decide +kernel

theorem witness_RegisterWindowNotExecutable :
    State.reset.driver = [] ∧ State.reset.started = true ∧
      [0x2000, 0x3FFF].all fun pc =>
        decide (lookup State.reset.cfg.map pc = some ⟨0x2000, 0x4000, .registers⟩) := by decide +kernel

theorem witness_BusReadByDevice :
    let map := State.reset.cfg.map
    lookup map 0x4000 = none ∧ lookup map 0x7FFF = none ∧
      lookup map 0x0000 = some ⟨0, 0x2000, .ram 2048⟩ ∧
      lookup map 0x1FFF = some ⟨0, 0x2000, .ram 2048⟩ ∧
      lookup map 0x8000 = some ⟨0x8000, 0x10000, .rom 32768⟩ ∧
      lookup map 0xFFFF = some ⟨0x8000, 0x10000, .rom 32768⟩ ∧
      (lookup map 0x3FFA = some ⟨0x2000, 0x4000, .registers⟩ ∧ (0x3FFA - 0x2000) % 8 = 2) ∧
      lookup map 0x2000 = some ⟨0x2000, 0x4000, .registers⟩ ∧ (0x2000 - 0x2000) % 8 ≠ 2 := by decide +kernel

theorem witness_BusWriteByDevice :
    [(0x2000, 0), (0x2001, 1), (0x200A, 2), (0x2003, 3), (0x3FFC, 4), (0x3FFF, 7)].all
      fun p : Nat × Nat =>
        decide (lookup State.reset.cfg.map (BitVec.ofNat 16 p.1) =
          some ⟨0x2000, 0x4000, .registers⟩ ∧ (p.1 - 0x2000) % 8 = p.2) := by decide +kernel

theorem witness_TwoPhaseWrites :
    State.reset.target 0x2005 = some (.port .scroll) ∧
      State.reset.target 0x3FFE = some (.port .address) ∧ State.reset.dev.w = false ∧
      ∃ t u, busWrite 0x2006 0x21 State.reset = .ok t ∧ busWrite 0x3FFE 0x08 t = .ok u :=
  ⟨by decide +kernel, by decide +kernel, by decide +kernel, _, _, rfl, rfl⟩

theorem witness_RamMirrorsAndSlices :
    Memory.wf State.reset.mem ∧
      lookup State.reset.cfg.map 0x1FFF = some ⟨0, 0x2000, .ram 2048⟩ ∧
      lookup State.reset.cfg.map 0x07FF = some ⟨0, 0x2000, .ram 2048⟩ ∧
      ∃ t, busWrite 0x1FFF 0x3C State.reset = .ok t :=
  ⟨by decide +kernel, by decide +kernel, by decide +kernel, exists_ok (by decide +kernel)⟩

theorem witness_RamMirrorsAndSlices_rom :
    [0x8000, 0xFFFF].all fun a =>
      decide (lookup State.reset.cfg.map a = some ⟨0x8000, 0x10000, .rom 32768⟩) := by decide +kernel

/-- A 16 KiB ROM at 0x8000 appears twice, and a slice from its second image runs to the end of the
backing (R59, R60). -/
theorem test_rom_slice :
    let s := { State.reset with
      cfg := { defaultConfig with map := [⟨0x8000, 0x10000, .rom 16384⟩] },
      mem := [(0x8000, 0x11), (0xBFFE, 0x4C), (0xBFFF, 0x22)] }
    busSlice 0xFFFE 3 s = .ok [0x4C, 0x22] ∧ busSlice 0xC000 2 s = .ok [0x11, 0x00] := by
  decide +kernel

theorem witness_DeviceIsolation :
    wellFormedMap State.reset.cfg.map ∧
      (lookup State.reset.cfg.map 0x0800 = some ⟨0, 0x2000, .ram 2048⟩ ∧
        lookup State.reset.cfg.map 0x8000 ≠ some ⟨0, 0x2000, .ram 2048⟩ ∧
        ∃ t, busWrite 0x0800 0x3C State.reset = .ok t) ∧
      lookup State.reset.cfg.map 0x2000 = some ⟨0x2000, 0x4000, .registers⟩ ∧
      ∃ t, busWrite 0x2000 0x80 State.reset = .ok t :=
  ⟨by decide +kernel, ⟨by decide +kernel, by decide +kernel, exists_ok (by decide +kernel)⟩, by decide +kernel, exists_ok (by decide +kernel)⟩

theorem witness_StoreSeenByNextFetch :
    Memory.wf State.reset.mem ∧
      lookup State.reset.cfg.map 0x1000 = some ⟨0, 0x2000, .ram 2048⟩ ∧
      lookup State.reset.cfg.map 0x0000 = some ⟨0, 0x2000, .ram 2048⟩ ∧
      (0x0000 - 0) % 2048 = (0x1000 - 0) % 2048 ∧ ∃ t, busWrite 0x1000 0xEA State.reset = .ok t :=
  ⟨by decide +kernel, by decide +kernel, by decide +kernel, by decide +kernel, exists_ok (by decide +kernel)⟩

theorem witness_OneNmiPerFrame :
    (0x80 : Byte).getLsbD 7 = true ∧ (0xFF : Byte).getLsbD 7 = true := by decide +kernel

theorem witness_StatusChangedByTickOnly :
    (∀ forward rest, State.reset.driver ≠ .tick forward :: rest) ∧ ∃ t, step State.reset = .next t :=
  ⟨nofun, exists_next (by decide +kernel)⟩

theorem witness_ResetEventLoadsVector :
    State.reset.pairMounted 0xFFFC 0xFFFD = true ∧
      (State.reset.byteAt 0xFFFC = some 0x00 ∧ State.reset.byteAt 0xFFFD = some 0x00) ∧
      noVectors.mounted 0xFFFC = false ∧
      halfVector.mounted 0xFFFC = true ∧ halfVector.mounted 0xFFFD = false := by decide +kernel

theorem stackRam_reset : State.reset.stackRam :=
  ⟨0x1FF, 0x1FE, 0x1FD, by decide +kernel, by decide +kernel, by decide +kernel, by decide +kernel, by decide +kernel, by decide +kernel⟩

theorem stackRam_wrapping : State.stackRam { State.reset with sp := 1 } :=
  ⟨0x101, 0x100, 0x1FF, by decide +kernel, by decide +kernel, by decide +kernel, by decide +kernel, by decide +kernel, by decide +kernel⟩

theorem witness_EntrySequence :
    State.pushable { State.reset with sp := 1 } 3 = true ∧
      State.reset.pairMounted 0xFFFA (0xFFFA + 1) = true ∧ Memory.wf State.reset.mem ∧
      State.stackRam { State.reset with sp := 1 } :=
  ⟨by decide +kernel, by decide +kernel, by decide +kernel, stackRam_wrapping⟩

theorem witness_EntrySequence_faults :
    romOnly.pushable 3 = false ∧ portStack.pushable 3 = false ∧
      noVectors.pairMounted 0xFFFA (0xFFFA + 1) = false := by decide +kernel

theorem witness_NmiEntersAlwaysIrqIfEnabled :
    let nmi := presenting ⟨false, true, false⟩ true State.reset
    let irq := presenting ⟨false, false, true⟩ false State.reset
    (nmi.driver = .present ⟨false, true, false⟩ :: [] ∧ nmi.pushable 3 = true ∧
      nmi.pairMounted 0xFFFA 0xFFFB = true) ∧
    (irq.driver = .present ⟨false, false, true⟩ :: [] ∧ irq.flags.i = false ∧
      irq.pushable 3 = true ∧ irq.pairMounted 0xFFFE 0xFFFF = true) ∧
    (presenting ⟨false, false, true⟩ true State.reset).flags.i = true := by decide +kernel

theorem witness_NmiEntersAlwaysIrqIfEnabled_faults :
    [romOnly, portStack].all (fun s =>
      !(presenting ⟨false, true, false⟩ true s).pushable 3 &&
        !(presenting ⟨false, false, true⟩ false s).pushable 3) ∧
      (presenting ⟨false, true, false⟩ true noVectors).pairMounted 0xFFFA 0xFFFB = false ∧
      (presenting ⟨false, false, true⟩ false noVectors).pairMounted 0xFFFE 0xFFFF = false := by
  decide +kernel

theorem witness_EventsApplyInOrder :
    (∃ t, act (.present ⟨true, false, false⟩) State.reset = .next t) ∧
      ∃ t, act (.present ⟨false, true, false⟩) State.reset = .next t :=
  ⟨exists_next (by decide +kernel), exists_next (by decide +kernel)⟩

/-- A tick at the head of the driver's actions: its result, and whether an entry can end well. -/
def tickMeets (s : State) (result : TickResult) (enters : Bool) : Bool :=
  decide ((s.dev.tick s.cfg.geometry).2 = result) &&
    (s.pushable 3 && s.pairMounted 0xFFFA 0xFFFB) == enters

theorem witness_DriverTick_alone :
    tickMeets { State.reset with driver := [.tick true] } .normal true ∧
      tickMeets (beforeVblank true State.reset) .nmi true ∧
      tickMeets (beforeVblank false State.reset) .nmi true ∧
      tickMeets (beforeVblank true romOnly) .nmi false ∧
      tickMeets (beforeVblank true noVectors) .nmi false := by decide +kernel

theorem witness_DriverTick_after_step :
    [(true, 0, TickResult.normal), (true, 241, .nmi), (false, 241, .nmi)].all fun p =>
      let dev := { Timing.constructed with control := 0x80, scanline := p.2.1 }
      (nextState (cpuStep { State.reset with
          mem := [(0, 0xEA)], dev := dev, driver := [.tick p.1] })).any
        fun t => tickMeets t p.2.2 true &&
          State.pushable { t with dev := (t.dev.tick t.cfg.geometry).1, driver := [] } 3 := by
  decide +kernel

theorem witness_RunStartsByInjectionOrReset :
    let s := State.constructed defaultConfig [] 0 0 0 noFlags 0
    s.driver = [] ∧ s.started = false ∧
      ({ s with driver := [.inject 0x8000] } : State).driver = .inject 0x8000 :: [] := by decide +kernel

theorem witness_PushThenPull :
    let s := { State.reset with sp := 0 }
    s.cfg.stackBase = 0x0100 ∧ s.writable (s.cfg.stackAddr s.sp) = true ∧
      State.reset.mounted (State.reset.cfg.stackAddr (State.reset.sp + 1)) = true ∧ Memory.wf s.mem ∧
      s.target (s.cfg.stackAddr s.sp) = some (.ram 0x100) ∧ ∃ t, push 0xAB s = .ok t :=
  ⟨rfl, by decide +kernel, by decide +kernel, by decide +kernel, by decide +kernel,
    exists_ok (by decide +kernel)⟩

/-- With other values of `STACK_BASE` and `SP_INIT` (R8) a push goes to the other page, and the reset
event sets the other SP. -/
theorem test_other_stack :
    let s := { State.reset with
      cfg := { defaultConfig with stackBase := 0x0300, spInit := 0xFD }, a := 0x5A, mem := [(0, 0x48)] }
    seen (step s) [0x03FF] = some ([0x5A, 0x00, 0x00, 0xFE, 0x0001, 0x24], [0x5A]) ∧
      (nextState (step { s with driver := [.present ⟨true, false, false⟩] })).map (·.sp) =
        some 0xFD := by decide +kernel

theorem witness_PointerModesResolve :
    State.reset.pairMounted 0x02FF 0x0200 = true ∧
      (∃ p, readPair 0x02FF 0x0200 State.reset = .ok p) ∧
      ∃ p, readPair 0x00FF 0x0000 State.reset = .ok p :=
  ⟨by decide +kernel, exists_ok (by decide +kernel), exists_ok (by decide +kernel)⟩

theorem witness_OperandAccess :
    let m : Mode := .indirectIndexed 0xFF
    resolves m State.reset = true ∧ loadable m State.reset = true ∧ storable m State.reset = true ∧
      operandRef m State.reset = .mem 0 ∧ pointerCells m State.reset = some (0x00FF, 0x0000) ∧
      pointerCells (.absolute 0xFFFF) State.reset = none := by decide +kernel

/-! Operands that can be loaded, and operands that cannot, at the edges of the map. -/

theorem witness_loadable :
    [Mode.immediate 0xFF, .zeroPage 0xFF, .zeroPageX 0xFF, .zeroPageY 0xFF, .absolute 0x1FFF,
      .absolute 0x2002, .absolute 0x3FFF, .absolute 0x8000, .absoluteX 0xFFFF, .absoluteY 0xFFFF,
      .indexedIndirect 0xFF, .indirectIndexed 0xFF].all (loadable · State.reset) := by decide +kernel

theorem witness_not_loadable :
    [Mode.absolute 0x4000, .absolute 0x7FFF].all (fun m => !loadable m State.reset &&
      [Instr.lda m, .ldx m, .ldy m, .lax m, .adc m, .sbc m, .and m, .ora m, .eor m, .cmp m, .cpx m,
        .cpy m, .bit m].all (·.wellFormed)) ∧
      loadable (.indirectIndexed 0) romOnly = false ∧
      (Instr.lda (.indirectIndexed 0)).wellFormed = true := by decide +kernel

theorem witness_storable :
    [Mode.zeroPage 0xFF, .zeroPageX 0xFF, .zeroPageY 0xFF, .absolute 0x1FFF, .absolute 0x2000,
      .absolute 0x3FFF, .absolute 0x8000, .absoluteX 0xFFFF, .absoluteY 0xFFFF,
      .indexedIndirect 0xFF, .indirectIndexed 0xFF].all (storable · State.reset) ∧
      operandRef (.absoluteX 0xFFFF) State.reset = .mem 0xFFFF ∧
      operandRef (.indirectIndexed 0xFF) State.reset = .mem 0x0000 ∧
      storable (.register .a) State.reset = true := by decide +kernel

theorem witness_not_storable :
    [Mode.absolute 0x4000, .absolute 0x2002, .absolute 0x3FFA].all fun m =>
      !storable m State.reset && [Instr.sta m, .stx m, .sty m, .sax m, .inc m, .dec m, .asl m,
        .lsr m, .rol m, .ror m].all (·.wellFormed) := by decide +kernel

theorem witness_DecimalModeIsBcdArithmetic :
    [(0x99, 0x99), (0x00, 0x00), (0x09, 0x90)].all fun p : Byte × Byte =>
      let s := { State.reset with a := p.1, flags := { resetFlags with d := true } }
      decide (s.flags.d = true ∧ s.a.toNat % 16 < 10 ∧ s.a.toNat / 16 < 10 ∧
        p.2.toNat % 16 < 10 ∧ p.2.toNat / 16 < 10) := by decide +kernel

theorem witness_SbcIsAdcOfComplement : State.reset.flags.d = false := rfl

theorem witness_JmpGoesToTarget :
    let s := { State.reset with cfg := { defaultConfig with jmpIndirectPageWrap := false } }
    State.reset.pairMounted 0x3FFF (mkWord (hiByte 0x3FFF) (loByte 0x3FFF + 1)) = true ∧
      State.reset.pairMounted 0x4000 (mkWord (hiByte 0x4000) (loByte 0x4000 + 1)) = false ∧
      s.pairMounted 0x3FFE (0x3FFE + 1) = true ∧ s.pairMounted 0x3FFF (0x3FFF + 1) = false := by
  decide +kernel

theorem witness_pushable_pullable :
    [1, 2, 3].all fun n =>
      State.reset.pushable n && State.pushable { State.reset with sp := 0 } n &&
        State.reset.pullable n && State.pullable { State.reset with sp := 0xFE } n &&
        !romOnly.pushable n && !portStack.pushable n && !romOnly.pullable n := by decide +kernel

theorem witness_JsrAndRts :
    State.reset.pushable 2 = true ∧ romOnly.pushable 2 = false ∧
      State.reset.pullable 2 = true ∧ romOnly.pullable 2 = false := by decide +kernel

theorem witness_RtsReturnsAfterJsr :
    Memory.wf State.reset.mem ∧ State.reset.target (State.reset.cfg.stackAddr State.reset.sp) = some (.ram 0x1FF) ∧
      State.reset.target (State.reset.cfg.stackAddr (State.reset.sp - 1)) = some (.ram 0x1FE) ∧
      ∃ t, exec (.jsr 0x9000) State.reset = .next t :=
  ⟨by decide +kernel, by decide +kernel, by decide +kernel, exists_next (by decide +kernel)⟩

theorem witness_PushAndPullInstructions :
    State.reset.pushable 1 = true ∧ romOnly.pushable 1 = false ∧
      State.reset.pullable 1 = true ∧ romOnly.pullable 1 = false := by decide +kernel

theorem witness_PhpThenPlpKeepsFlags :
    Memory.wf State.reset.mem ∧ State.reset.target (State.reset.cfg.stackAddr State.reset.sp) = some (.ram 0x1FF) ∧
      ∃ t, exec .php State.reset = .next t :=
  ⟨by decide +kernel, by decide +kernel, exists_next (by decide +kernel)⟩

theorem witness_BrkAndRti :
    (State.reset.pushable 3 = true ∧ State.reset.pairMounted 0xFFFE 0xFFFF = true) ∧
      portStack.pushable 3 = false ∧ noVectors.pairMounted 0xFFFE 0xFFFF = false ∧
      State.reset.pullable 3 = true ∧ romOnly.pullable 3 = false := by decide +kernel

/-- An NMI handler at 0x9000 that is an RTI. -/
def rtiHandler : State :=
  { State.reset with
    driver := [.present ⟨false, true, false⟩], mem := [(0x9000, 0x40), (0xFFFB, 0x90)] }

theorem witness_NmiThenRtiResumes :
    rtiHandler.started = true ∧ Memory.wf rtiHandler.mem ∧ rtiHandler.stackRam ∧
      rtiHandler.pairMounted 0xFFFA 0xFFFB = true ∧
      fetch (State.entered { rtiHandler with driver := [] } 0xFFFA false) = .ok .rti :=
  ⟨rfl, by decide +kernel, stackRam_reset, by decide +kernel, by decide +kernel⟩

theorem storesTo_inc : storesTo (.inc (.absolute 0x1FFF)) State.reset = [0x1FFF] := rfl

theorem witness_frames :
    wellFormedMap State.reset.cfg.map ∧ (Instr.inc (.absolute 0x1FFF)).wellFormed = true ∧
      (∃ t, exec (.inc (.absolute 0x1FFF)) State.reset = .next t) ∧
      (writes (.inc (.absolute 0x1FFF))).a = false ∧
      (∀ a ∈ storesTo (.inc (.absolute 0x1FFF)) State.reset,
        State.reset.target a ≠ State.reset.target 0x07FE) ∧
      ∀ a ∈ storesTo (.inc (.absolute 0x1FFF)) State.reset,
        ∀ p, State.reset.target a ≠ some (.port p) := by
  rw [storesTo_inc]
  simp only [List.mem_singleton, forall_eq]
  exact ⟨by decide, rfl, exists_next (by decide), rfl, by decide, nofun⟩

theorem storesTo_sta_mask : storesTo (.sta (.absolute 0x2001)) State.reset = [0x2001] := rfl

/-- A store to port 1 leaves the other registers alone, and the toggle. -/
theorem witness_MemoryAndDeviceFrame_port :
    (∃ t, exec (.sta (.absolute 0x2001)) State.reset = .next t) ∧
      (∀ p ∈ [Port.control, .status, .oamaddr, .oamdata, .scroll, .address, .data],
        ∀ a ∈ storesTo (.sta (.absolute 0x2001)) State.reset,
          State.reset.target a ≠ some (.port p)) ∧
      State.reset.target 0x2001 = some (.port .mask) := by
  rw [storesTo_sta_mask]
  simp only [List.mem_singleton, forall_eq]
  exact ⟨exists_next (by decide), by decide +kernel, by decide +kernel⟩

theorem witness_InvariantKeptByStep :
    State.reset.Inv ∧ ∃ t, step State.reset = .next t :=
  ⟨by decide +kernel, exists_next (by decide +kernel)⟩

theorem witness_RomAndConfigNeverChange :
    lookup State.reset.cfg.map 0xFFFF = some ⟨0x8000, 0x10000, .rom 32768⟩ ∧
      ∃ t, step { State.reset with mem := [(0, 0x8D), (2, 0x80)] } = .next t :=
  ⟨by decide +kernel, exists_next (by decide +kernel)⟩

theorem witness_BreakFlagUnobservable_step :
    (∃ t, step State.reset = .next t) ∧ fetch State.reset = .ok .brk ∧
      (∃ t, step (cpuThen 0x08) = .next t) ∧
      (∃ t, step (presenting ⟨true, false, false⟩ true State.reset) = .next t) ∧
      (∃ t, step (presenting ⟨false, true, true⟩ false State.reset) = .next t) ∧
      ∃ t, step (beforeVblank true State.reset) = .next t :=
  ⟨exists_next (by decide +kernel), by decide +kernel, exists_next (by decide +kernel),
    exists_next (by decide +kernel), exists_next (by decide +kernel),
    exists_next (by decide +kernel)⟩

theorem witness_BreakFlagUnobservable_exec : ∃ t, exec .php State.reset = .next t :=
  exists_next (by decide +kernel)

/-- The stored B does not reach the byte an NMI or an IRQ pushes (R31, R34). -/
theorem test_entry_pushes_bit4_clear :
    [⟨false, true, false⟩, ⟨false, false, true⟩].all (fun e : Events =>
      (nextState (step (State.withBreak (presenting e false State.reset) true))).any fun t =>
        t.byteAt 0x01FD = some 0x20 && t.flags.b) := by decide +kernel

end Sys2Proof.Tests
end

section
/-! PROOFS. The reset event, and a pull after a push (00_scope.md R8; 10_state.md R23, R32, R33;
60_exceptions.md R270). -/

namespace Sys2Proof.Machine

/-! ### A pair of reads, by what stands at its two addresses -/

/-- A pair of RAM or ROM bytes can be read, and reading it changes nothing. -/
theorem State.pair_of_byteAt {s : State} {lo hi : Word} {l h : Byte}
    (hl : s.byteAt lo = some l) (hh : s.byteAt hi = some h) :
    s.pairMounted lo hi = true ∧ s.pairValue lo hi = mkWord h l ∧ s.afterPair lo hi = s := by
  obtain ⟨ml, vl, al⟩ := State.read_of_byteAt hl
  obtain ⟨mh, vh, ah⟩ := State.read_of_byteAt hh
  simp [State.pairMounted, State.pairValue, State.afterPair, ml, vl, al, mh, vh, ah]

/-- A pair of reads whose first address is unmounted faults there (R58). -/
theorem readPair_fault_lo {s : State} {lo hi : Word} (hl : s.mounted lo = false) :
    readPair lo hi s = .error (.fault (.outOfRangeAccess lo)) := by
  simp [readPair, busRead_fault hl]

/-- A pair of reads whose second address alone is unmounted faults there (R58). -/
theorem readPair_fault_hi {s : State} {lo hi : Word} (hl : s.mounted lo = true)
    (hh : s.mounted hi = false) : readPair lo hi s = .error (.fault (.outOfRangeAccess hi)) := by
  have hh' : (s.afterRead lo).mounted hi = false := by simpa using hh
  simp [readPair, busRead_ok hl, busRead_fault hh']

/-! ### The reset event -/

/-- The state in which the reset event reads its vector: SP and the flags are set (R270). -/
def State.resetRegisters (s : State) : State := (s.setSP s.cfg.spInit).setFlags resetFlags

/-- The reset event reads its vector, goes there, and starts the machine (R270, R320). -/
theorem resetEvent_eq (s : State) :
    resetEvent s = readPair 0xFFFC 0xFFFD s.resetRegisters >>= fun p =>
      .ok (p.2.setPC p.1).start := rfl

/-- A step whose next driver action presents events is those events, on the state without the
action. -/
theorem step_present {s : State} {e : Events} {rest : List DriverAction}
    (h : s.driver = .present e :: rest) : step s = finish (presentEvents e (s.setDriver rest)) := by
  simp only [step, h, act]

/-- A reset presented alone is the reset event (R275). -/
theorem presentEvents_reset (s : State) :
    presentEvents ⟨true, false, false⟩ s = resetEvent s := by
  show (resetEvent s >>= fun t => .ok t) = resetEvent s
  cases resetEvent s <;> rfl

/-- Settles O19: the step is the reset event, and its vector is read where SP and the flags are
already set, so each case is the one of that pair of reads. -/
theorem resetEventLoadsVector : Obligations.ResetEventLoadsVector := by
  intro s rest hd
  let u := (s.setDriver rest).resetRegisters
  have hs : step s = finish (readPair 0xFFFC 0xFFFD u >>= fun p => .ok (p.2.setPC p.1).start) := by
    rw [step_present hd, presentEvents_reset, resetEvent_eq]
  rw [hs]
  refine ⟨rfl, fun hm => ?mounted, fun lo hi hlo hhi => ?bytes, fun hl => ?lo, fun hl hh => ?hi⟩
  case mounted => rw [readPair_ok (s := u) hm]; rfl
  case bytes =>
    obtain ⟨hm, hv, ha⟩ := State.pair_of_byteAt (s := u) hlo hhi
    rw [readPair_ok hm, hv, ha]; rfl
  case lo => rw [readPair_fault_lo (s := u) hl]; rfl
  case hi => rw [readPair_fault_hi (s := u) hl hh]; rfl

/-! ### A pull after a push -/

/-- On a RAM cell a pull after a push gives the byte back and restores SP (R32, R33). -/
theorem pull_pushed_ram {s : State} {k : Nat} (hw : Memory.wf s.mem)
    (ht : s.target (s.cfg.stackAddr s.sp) = some (.ram k)) (v : Byte) :
    pull (s.pushed v) = .ok (v, (s.pushed v).setSP s.sp) := by
  have hpull : pull (s.pushed v) =
      busRead (s.cfg.stackAddr s.sp) ((s.pushed v).setSP s.sp) := by simp [pull]
  have hram : ((s.pushed v).setSP s.sp).target (s.cfg.stackAddr s.sp) = some (.ram k) := by
    simpa using ht
  have hval : Memory.get ((s.pushed v).setSP s.sp).mem k = v := by
    simp [State.pushed, State.afterWrite_ram ht, Memory.get_set_same hw]
  rw [hpull, busRead_ok (by simp [State.mounted, ht]), State.valueAt_ram hram, hval,
    State.afterRead_ram hram]

/-- Settles O26: the model's laws of push and pull, and `pull_pushed_ram`. -/
theorem pushThenPull : Obligations.PushThenPull := by
  refine ⟨rfl, fun c sp h => Config.stackAddr_toNat h sp, fun s v h => push_ok h v,
    fun s h => pull_ok h, fun s t v k hw ht h => ?inverse, fun s t v hz h => ?wrap⟩
  case inverse =>
    obtain ⟨-, rfl⟩ := push_eq_ok h
    exact pull_pushed_ram hw ht v
  case wrap =>
    obtain ⟨-, rfl⟩ := push_eq_ok h
    rw [State.pushed_sp, hz]; rfl

end Sys2Proof.Machine
end

section
/-! PROOFS. The stored Break flag (10_state.md R31, R34): replacing it before an operation, an
instruction or a step is replacing it afterwards. -/

namespace Sys2Proof.Machine

/-! ### Replacing the stored Break flag -/

section
variable (s : State) (v : Bool)

@[simp] theorem State.withBreak_cfg : (s.withBreak v).cfg = s.cfg := rfl
@[simp] theorem State.withBreak_dev : (s.withBreak v).dev = s.dev := rfl
@[simp] theorem State.withBreak_driver : (s.withBreak v).driver = s.driver := rfl
@[simp] theorem State.withBreak_started : (s.withBreak v).started = s.started := rfl
@[simp] theorem State.withBreak_flags_i : (s.withBreak v).flags.i = s.flags.i := rfl
@[simp] theorem State.withBreak_target : (s.withBreak v).target = s.target := rfl
@[simp] theorem State.withBreak_mounted : (s.withBreak v).mounted = s.mounted := rfl
@[simp] theorem pointerCells_withBreak (m : Mode) :
    pointerCells m (s.withBreak v) = pointerCells m s := rfl
@[simp] theorem fetch_withBreak : fetch (s.withBreak v) = fetch s := rfl

end

/-- Replacing the stored Break flag by itself changes nothing. -/
@[simp] theorem State.withBreak_self (s : State) : s.withBreak s.flags.b = s := rfl

/-- Where a replacement made no difference, the flag had that value. -/
theorem State.flags_b_of_withBreak_eq {s : State} {v : Bool} (h : s = s.withBreak v) :
    s.flags.b = v := congrArg (·.flags.b) h

theorem State.afterRead_withBreak (s : State) (v : Bool) (a : Word) :
    (s.withBreak v).afterRead a = (s.afterRead a).withBreak v := by
  unfold State.afterRead
  rw [State.withBreak_target]
  split <;> rfl

theorem State.afterWrite_withBreak (s : State) (v : Bool) (a : Word) (w : Byte) :
    (s.withBreak v).afterWrite a w = (s.afterWrite a w).withBreak v := by
  unfold State.afterWrite
  rw [State.withBreak_target]
  split <;> rfl

/-! ### Operations on a machine whose Break flag is replaced -/

/-- The result of an operation, with the Break flag of the state it ends in replaced. -/
abbrev stateWithBreak (v : Bool) (r : Result State) : Result State := r.map (·.withBreak v)

/-- The result of an operation that also gives a value, with the Break flag of the state it ends in
replaced. -/
abbrev pairWithBreak {α : Type} (v : Bool) (r : Result (α × State)) : Result (α × State) :=
  r.map (Prod.map id (·.withBreak v))

/-- The outcome of a step, with the Break flag of its next state replaced. -/
def outcomeWithBreak (v : Bool) (o : Host.Outcome State Fault Refusal) :
    Host.Outcome State Fault Refusal :=
  match o with
  | .next s => .next (s.withBreak v)
  | .fault f => .fault f
  | .refused r => .refused r

/-- A change `p` of what the first part of a sequence gives moves behind the sequence, as `q`, if the
second part lets it pass. -/
theorem bind_map_eq {α β : Type} {p : α → α} {q : β → β} {r r' : Result α} {f g : α → Result β}
    (hr : r' = r.map p) (h : ∀ x, f (p x) = (g x).map q) : (r' >>= f) = (r >>= g).map q := by
  subst hr
  cases r with
  | ok x => exact h x
  | error e => rfl

/-- A step whose operations let the replacement pass lets it pass. -/
theorem finish_withBreak (v : Bool) {r r' : Result State} (h : r' = stateWithBreak v r) :
    finish r' = outcomeWithBreak v (finish r) := by
  subst h
  rcases r with (_ | _) | _ <;> rfl

section
variable (s : State) (v : Bool)

theorem busRead_withBreak (a : Word) :
    busRead a (s.withBreak v) = pairWithBreak v (busRead a s) := by
  unfold busRead
  rw [State.afterRead_withBreak, State.withBreak_mounted]
  split <;> rfl

theorem busWrite_withBreak (a : Word) (w : Byte) :
    busWrite a w (s.withBreak v) = stateWithBreak v (busWrite a w s) := by
  unfold busWrite
  rw [State.afterWrite_withBreak, State.withBreak_mounted, State.withBreak_target]
  split
  · split <;> rfl
  · rfl

theorem push_withBreak (w : Byte) : push w (s.withBreak v) = stateWithBreak v (push w s) :=
  bind_map_eq (busWrite_withBreak s v _ w) fun _ => rfl

theorem pull_withBreak : pull (s.withBreak v) = pairWithBreak v (pull s) :=
  busRead_withBreak (s.setSP (s.sp + 1)) v _

theorem pushWord_withBreak (w : Word) :
    pushWord w (s.withBreak v) = stateWithBreak v (pushWord w s) :=
  bind_map_eq (push_withBreak s v _) fun t => push_withBreak t v _

theorem pullWord_withBreak : pullWord (s.withBreak v) = pairWithBreak v (pullWord s) :=
  bind_map_eq (pull_withBreak s v) fun (_, t) =>
    bind_map_eq (pull_withBreak t v) fun _ => rfl

theorem readPair_withBreak (lo hi : Word) :
    readPair lo hi (s.withBreak v) = pairWithBreak v (readPair lo hi s) :=
  bind_map_eq (busRead_withBreak s v lo) fun (_, t) =>
    bind_map_eq (busRead_withBreak t v hi) fun _ => rfl

/-- An entry pushes a byte that does not hold the stored Break flag (R31, R271). -/
theorem enter_withBreak (vec : Word) (b : Bool) :
    enter vec b (s.withBreak v) = stateWithBreak v (enter vec b s) :=
  bind_map_eq (pushWord_withBreak s v _) fun t =>
    bind_map_eq (push_withBreak t v _) fun u =>
      bind_map_eq (readPair_withBreak (u.setFlags { u.flags with i := true }) v _ _) fun _ => rfl

/-- Loading the flag byte keeps the stored Break flag (R31, R277). -/
theorem leave_withBreak : leave (s.withBreak v) = stateWithBreak v (leave s) :=
  bind_map_eq (pull_withBreak s v) fun (p, t) =>
    bind_map_eq (pullWord_withBreak (t.setFlags (t.flags.load p)) v) fun _ => rfl

/-- A reset event clears the stored Break flag whatever it was (R270). -/
theorem resetEvent_withBreak : resetEvent (s.withBreak v) = stateWithBreak false (resetEvent s) :=
  bind_map_eq (readPair_withBreak s.resetRegisters false _ _) fun _ => rfl

theorem resolve_withBreak (m : Mode) :
    resolve m (s.withBreak v) = pairWithBreak v (resolve m s) := by
  unfold resolve
  rw [pointerCells_withBreak]
  split
  · rfl
  · exact bind_map_eq (readPair_withBreak s v _ _) fun _ => rfl

theorem load_withBreak (r : Ref) : load r (s.withBreak v) = pairWithBreak v (load r s) := by
  cases r with
  | none => rfl
  | reg r => cases r <;> rfl
  | imm w => rfl
  | mem ea => exact busRead_withBreak s v ea

theorem store_withBreak (r : Ref) (w : Byte) :
    store r w (s.withBreak v) = stateWithBreak v (store r w s) := by
  cases r with
  | none => rfl
  | reg r => cases r <;> rfl
  | imm w => rfl
  | mem ea => exact busWrite_withBreak s v ea w

theorem loadOperand_withBreak (m : Mode) :
    loadOperand m (s.withBreak v) = pairWithBreak v (loadOperand m s) :=
  bind_map_eq (resolve_withBreak s v m) fun (r, t) => load_withBreak t v r

theorem storeOperand_withBreak (m : Mode) (w : Byte) :
    storeOperand m w (s.withBreak v) = stateWithBreak v (storeOperand m w s) :=
  bind_map_eq (resolve_withBreak s v m) fun (r, t) => store_withBreak t v r w

/-- A modification whose flag computation keeps the stored Break flag and does not read it. -/
theorem modifyOperand_withBreak (m : Mode) (f : Byte → Byte) {g : Byte → Flags → Flags}
    (hg : ∀ w (fl : Flags), g w { fl with b := v } = { g w fl with b := v }) :
    modifyOperand m f g (s.withBreak v) = stateWithBreak v (modifyOperand m f g s) :=
  bind_map_eq (resolve_withBreak s v m) fun (r, t) =>
    bind_map_eq (load_withBreak t v r) fun (w, t) =>
      bind_map_eq (store_withBreak t v r (f w)) fun t =>
        congrArg (fun fl => Except.ok (t.setFlags fl)) (hg w t.flags)

/-! ### Instructions -/

/-- BRK sets the stored Break flag, whatever it was. -/
theorem execBrk_withBreak : execBrk (s.withBreak v) = outcomeWithBreak true (execBrk s) :=
  finish_withBreak true (enter_withBreak (s.withBreak true) true vecIrq true)

theorem branch_withBreak (taken : Bool) (off : Byte) :
    branch taken off (s.withBreak v) = (branch taken off s).withBreak v := by
  cases taken <;> rfl

/-- An instruction other than BRK neither reads nor writes the stored Break flag. -/
theorem exec_withBreak_of_ne_brk {i : Instr} (hi : i ≠ .brk) :
    exec i (s.withBreak v) = outcomeWithBreak v (exec i s) := by
  cases i
  case lda m | ldx m | ldy m | lax m | adc m | sbc m | and m | ora m | eor m | cmp m | cpx m
      | cpy m | bit m =>
    exact finish_withBreak v (bind_map_eq (loadOperand_withBreak s v m) fun _ => rfl)
  case sta m | stx m | sty m | sax m => exact finish_withBreak v (storeOperand_withBreak s v m _)
  case inc m | dec m | asl m | lsr m | rol m | ror m =>
    exact finish_withBreak v (modifyOperand_withBreak s v m _ fun _ _ => rfl)
  case jmp m =>
    exact finish_withBreak v
      (bind_map_eq (resolve_withBreak s v m) fun (r, _) => by cases r <;> rfl)
  case jsr target =>
    exact finish_withBreak v (bind_map_eq (pushWord_withBreak s v _) fun _ => rfl)
  case rts =>
    exact finish_withBreak v (bind_map_eq (pullWord_withBreak s v) fun _ => rfl)
  case bcc off | bcs off | beq off | bne off | bmi off | bpl off | bvc off | bvs off =>
    exact congrArg Host.Outcome.next (branch_withBreak s v _ off)
  case pha | php => exact finish_withBreak v (push_withBreak s v _)
  case pla | plp =>
    exact finish_withBreak v (bind_map_eq (pull_withBreak s v) fun _ => rfl)
  case brk => exact absurd rfl hi
  case rti => exact finish_withBreak v (leave_withBreak s v)
  case tax | tay | txa | tya | tsx | txs | inx | iny | dex | dey | axs imm => rfl
  case clc | sec | cli | sei | cld | sed | clv => rfl
  case nop | unmapped op => rfl

/-- The stored Break flag influences nothing an instruction does, and BRK alone writes it. -/
theorem exec_withBreak (i : Instr) :
    exec i (s.withBreak v) = outcomeWithBreak (if i = .brk then true else v) (exec i s) := by
  split
  · next hi => subst hi; exact execBrk_withBreak s v
  · next hi => exact exec_withBreak_of_ne_brk s v hi

/-! ### Steps -/

theorem cpuStep_withBreak : cpuStep (s.withBreak v) =
    outcomeWithBreak (if fetch s = .ok .brk then true else v) (cpuStep s) := by
  unfold cpuStep
  rw [fetch_withBreak, State.withBreak_started]
  split
  · cases fetch s with
    | ok i =>
      simp only [Except.ok.injEq]
      exact exec_withBreak (s.advance i.length) v i
    | error e => rcases e with _ | _ <;> rfl
  · rfl

theorem tickDevice_withBreak (forward : Bool) :
    tickDevice forward (s.withBreak v) = stateWithBreak v (tickDevice forward s) := by
  unfold tickDevice
  rw [State.withBreak_dev, State.withBreak_cfg]
  generalize s.dev.tick s.cfg.geometry = r
  dsimp only
  split
  · exact enter_withBreak (s.setDev r.1) v vecNmi false
  · rfl

theorem irqEvent_withBreak :
    irqEvent (s.withBreak v) = stateWithBreak v (irqEvent s) := by
  unfold irqEvent
  rw [State.withBreak_flags_i]
  split
  · rfl
  · exact enter_withBreak s v vecIrq false

/-- An event that keeps the stored Break flag keeps it whether presented or not. -/
theorem onlyIf_withBreak (presented : Bool) {event : State → Result State}
    (h : event (s.withBreak v) = stateWithBreak v (event s)) :
    onlyIf presented event (s.withBreak v) = stateWithBreak v (onlyIf presented event s) := by
  cases presented
  · rfl
  · exact h

theorem onlyIf_resetEvent_withBreak (presented : Bool) :
    onlyIf presented resetEvent (s.withBreak v) =
      stateWithBreak (if presented then false else v) (onlyIf presented resetEvent s) := by
  cases presented
  · rfl
  · exact resetEvent_withBreak s v

theorem presentEvents_withBreak (e : Events) : presentEvents e (s.withBreak v) =
    stateWithBreak (if e.reset then false else v) (presentEvents e s) :=
  bind_map_eq (onlyIf_resetEvent_withBreak s v e.reset) fun t =>
    bind_map_eq (onlyIf_withBreak t _ e.nmi (enter_withBreak t _ vecNmi false)) fun u =>
      onlyIf_withBreak u _ e.irq (irqEvent_withBreak u _)

/-- The stored Break flag influences nothing a step does, and `breakAfter` says what becomes of
it. -/
theorem step_withBreak :
    step (s.withBreak v) = outcomeWithBreak (breakAfter s v) (step s) := by
  unfold step breakAfter
  rw [State.withBreak_driver]
  rcases s.driver with _ | ⟨_ | forward | e | start, rest⟩
  · exact cpuStep_withBreak s v
  · exact cpuStep_withBreak (s.setDriver rest) v
  · exact finish_withBreak v (tickDevice_withBreak (s.setDriver rest) v forward)
  · exact finish_withBreak _ (presentEvents_withBreak (s.setDriver rest) v e)
  · rfl

end

/-! ### What follows of an outcome -/

@[simp] theorem stopOf_outcomeWithBreak (v : Bool) (o : Host.Outcome State Fault Refusal) :
    stopOf (outcomeWithBreak v o) = stopOf o := by cases o <;> rfl

/-- After an instruction the stored Break flag is 1 if it is BRK, and else as it was (R30, R34):
replacing the flag by itself before it changes nothing. -/
theorem exec_flags_b {i : Instr} {s t : State} (h : exec i s = .next t) :
    t.flags.b = if i = .brk then true else s.flags.b := by
  have hw := exec_withBreak s s.flags.b i
  rw [State.withBreak_self, h] at hw
  exact State.flags_b_of_withBreak_eq (Host.Outcome.next.inj hw)

/-- After a step the stored Break flag is what `breakAfter` says. -/
theorem step_flags_b {s t : State} (h : step s = .next t) :
    t.flags.b = breakAfter s s.flags.b := by
  have hw := step_withBreak s s.flags.b
  rw [State.withBreak_self, h] at hw
  exact State.flags_b_of_withBreak_eq (Host.Outcome.next.inj hw)

/-- Settles O60, by the commutation of every operation with the replacement of the flag. -/
theorem breakFlagUnobservable : Obligations.BreakFlagUnobservable := by
  refine ⟨fun s v => ⟨fun t h => ⟨step_flags_b h, ?_⟩, ?_⟩, fun i s v => ⟨fun t h => ?_, ?_⟩⟩
  · rw [step_withBreak, h]; rfl
  · rw [step_withBreak, stopOf_outcomeWithBreak]
  · rw [exec_withBreak, h]; rfl
  · rw [exec_withBreak, stopOf_outcomeWithBreak]

end Sys2Proof.Machine
end

section
/-! PROOFS. The configuration and every ROM byte stay (10_state.md R39; 20_memory.md R59, R60). -/

namespace Sys2Proof.Machine

/-- Machine `t` has the configuration of `s`, and every backing byte of its ROMs, those past a mount's
window included, is the one `s` has. -/
structure SameRom (s t : State) : Prop where
  cfg : t.cfg = s.cfg
  byte : ∀ m ∈ s.cfg.map, ∀ n, m.dev = .rom n → ∀ j,
    Memory.get t.mem (m.key j) = Memory.get s.mem (m.key j)

namespace SameRom

/-- What keeps the configuration and the memory keeps the ROMs. -/
theorem of_eq {s t u : State} (hc : u.cfg = t.cfg) (hm : u.mem = t.mem) (h : SameRom s t) :
    SameRom s u :=
  ⟨hc.trans h.cfg, fun m hmem n hd j => by rw [hm]; exact h.byte m hmem n hd j⟩

/-- In a well-formed map a bus write changes no ROM byte: a RAM byte it writes is no backing byte of
another mount, and a ROM byte keeps its value (20_memory.md R60, R67). -/
theorem afterWrite {s t : State} (hw : wellFormedMap s.cfg.map) (a : Word) (v : Byte)
    (h : SameRom s t) : SameRom s (t.afterWrite a v) := by
  rcases ha : t.target a with _ | (k | k | p)
  · rwa [State.afterWrite_unmounted ha]
  · refine ⟨by simpa using h.cfg, fun m hm n hd j => ?_⟩
    have hne : m.key j ≠ k := by
      simp only [State.target, h.cfg, Option.map_eq_some_iff] at ha
      obtain ⟨q, hq, hqt⟩ := ha
      cases hqd : q.dev <;> simp only [Mount.target, hqd, reduceCtorEq, Target.ram.injEq] at hqt
      have hqm : q ≠ m := by rintro rfl; simp [hd] at hqd
      rw [← hqt]
      exact (Mount.key_ne hw (lookup_covers hq).1 hm hqm (reduced_lt hq _)).symm
    rw [State.afterWrite_ram ha, State.setMem_mem, Memory.get_set_ne _ _ hne]
    exact h.byte m hm n hd j
  · rwa [State.afterWrite_rom ha]
  · rw [State.afterWrite_port ha]; exact of_eq (t := t) rfl rfl h

/-- Every operation of an instruction and of the driver keeps the ROMs. -/
theorem keptByDriver {s : State} (hw : wellFormedMap s.cfg.map) : KeptByDriver (SameRom s) where
  setA _ := of_eq rfl rfl
  setX _ := of_eq rfl rfl
  setY _ := of_eq rfl rfl
  setSP _ := of_eq rfl rfl
  setPC _ := of_eq rfl rfl
  setFlags _ := of_eq rfl rfl
  afterRead _ := of_eq (by simp) (by simp)
  afterWrite a v _ := afterWrite hw a v
  setDriver _ := of_eq rfl rfl
  start := of_eq rfl rfl
  tick := of_eq rfl rfl

variable {s t : State} (h : SameRom s t) {a : Word} {m : Mount} {n : Nat}
  (hm : lookup s.cfg.map a = some m) (hd : m.dev = .rom n)
include h hm hd

/-- The byte at a ROM address is the same. -/
theorem byteAt : t.byteAt a = s.byteAt a := by
  have hs : s.target a = some (.rom (m.key ((a.toNat - m.start) % n))) := by
    simp [State.target, hm, Mount.target, hd]
  have ht : t.target a = some (.rom (m.key ((a.toNat - m.start) % n))) := by
    rwa [State.target_eq_of_cfg h.cfg]
  rw [State.byteAt_rom ht, State.byteAt_rom hs, h.byte m (lookup_covers hm).1 n hd]

/-- What is fetched from a ROM address is the same. -/
theorem busSlice (k : Nat) : busSlice a k t = busSlice a k s := by
  simp [Machine.busSlice, h.cfg, hm, Mount.slice, hd, h.byte m (lookup_covers hm).1 n hd]

end SameRom

/-- Settles O59: every step keeps the ROMs, since every operation does. -/
theorem romAndConfigNeverChange : Obligations.RomAndConfigNeverChange := by
  intro s t hw hstep
  have h : SameRom s t := (SameRom.keptByDriver hw).step hstep ⟨rfl, fun _ _ _ _ _ => rfl⟩
  exact ⟨h.cfg, fun a m n hm hd => ⟨h.byteAt hm hd, h.busSlice hm hd⟩⟩

end Sys2Proof.Machine
end

section
/-! PROOFS. The flag byte (10_state.md R29, R31) and the reset state (10_state.md R40;
60_exceptions.md R270). -/

namespace Sys2Proof.Machine

/-! ### Bits of a byte -/

/-- A byte is 0 if its number is. -/
theorem byte_beq_zero (v : Byte) : (v == 0) = decide (v.toNat = 0) := by
  rw [Bool.eq_iff_iff, beq_iff_eq, decide_eq_true_iff]
  exact BitVec.toNat_eq

/-- What is left of a byte's number above bit `k` is what is left above the next bit, and bit `k`. -/
theorem byte_div_two_pow (v : Byte) (k : Nat) :
    v.toNat / 2 ^ k = v.toNat / 2 ^ (k + 1) * 2 + (v.getLsbD k).toNat := by
  rw [BitVec.getLsbD, Nat.toNat_testBit, pow_succ, ← Nat.div_div_eq_div_mul]
  omega

/-- Bit 7 of a byte says whether its number is at least 128. -/
theorem byte_getLsbD_seven (v : Byte) : v.getLsbD 7 = decide (128 ≤ v.toNat) :=
  (BitVec.msb_eq_getLsbD_last v).symm.trans (BitVec.msb_eq_decide v)

/-- The number of a byte from its bits. -/
theorem byte_toNat_eq_bits (v : Byte) : v.toNat = (v.getLsbD 7).toNat * 128 +
    (v.getLsbD 6).toNat * 64 + (v.getLsbD 5).toNat * 32 + (v.getLsbD 4).toNat * 16 +
    (v.getLsbD 3).toNat * 8 + (v.getLsbD 2).toNat * 4 + (v.getLsbD 1).toNat * 2 +
    (v.getLsbD 0).toNat := by
  have step := byte_div_two_pow v
  have h0 : v.toNat / 2 ^ 0 = v.toNat := Nat.div_one _
  have h8 : v.toNat / 2 ^ 8 = 0 := Nat.div_eq_of_lt v.isLt
  linarith [step 0, step 1, step 2, step 3, step 4, step 5, step 6, step 7]

/-- A flag as a byte is bit 0 alone. -/
theorem bitByte_getLsbD (b : Bool) (k : Nat) :
    (bitByte b).getLsbD k = (decide (k = 0) && b) := by
  cases b <;> simp [bitByte, BitVec.getLsbD_one]

/-! ### SetZN and the flag byte -/

/-- The eight bits of the flag byte, bit 0 first (R31). -/
def Flags.bits (f : Flags) (b : Bool) : List Bool := [f.c, f.z, f.i, f.d, b, true, f.v, f.n]

theorem Flags.toByte_getElem (f : Flags) (b : Bool) {k : Nat} (hk : k < 8) :
    (f.toByte b)[k] = (f.bits b).getD k false := by
  rw [← BitVec.getLsbD_eq_getElem]
  simp only [Flags.toByte, BitVec.getLsbD_or, BitVec.getLsbD_shiftLeft, bitByte_getLsbD]
  interval_cases k <;> simp [Flags.bits]

/-- The flag byte as a number (R31). -/
theorem Flags.toByte_toNat (f : Flags) (b : Bool) : (f.toByte b).toNat =
    f.n.toNat * 128 + f.v.toNat * 64 + 32 + b.toNat * 16 + f.d.toNat * 8 + f.i.toNat * 4 +
      f.z.toNat * 2 + f.c.toNat := by
  rw [byte_toNat_eq_bits]
  simp [Flags.toByte_getElem, Flags.bits]

/-- Loading a flag byte back gives its six flags, and keeps the stored B (R31). -/
theorem Flags.load_toByte (f g : Flags) (b : Bool) : g.load (f.toByte b) = { f with b := g.b } := by
  simp [Flags.load, Flags.toByte_getElem, Flags.bits]

/-- Settles O25, from the bits of the flag byte. -/
theorem flagByteAndZeroNegative : Obligations.FlagByteAndZeroNegative :=
  ⟨fun _ v => ⟨byte_beq_zero v, byte_getLsbD_seven v, rfl⟩, Flags.toByte_toNat, Flags.load_toByte⟩

/-! ### The reset state -/

/-- The machine just built, once the reset event has set SP and the flags, has the bytes of the reset
vector at 0. -/
theorem constructed_resetVector (p : Flags) (pc : Word) :
    let u := (State.constructed defaultConfig [] 0 0 0 p pc).resetRegisters
    u.byteAt 0xFFFC = some 0 ∧ u.byteAt 0xFFFD = some 0 := ⟨rfl, rfl⟩

/-- Settles O57: the invariant is a check of `State.reset`, and the event reads its vector as
0x0000. -/
theorem resetStateIsSound : Obligations.ResetStateIsSound := by
  refine ⟨by decide, fun p pc => ?_⟩
  obtain ⟨hlo, hhi⟩ := constructed_resetVector p pc
  obtain ⟨hm, hv, ha⟩ := State.pair_of_byteAt hlo hhi
  rw [resetEvent_eq, readPair_ok hm, hv, ha]
  rfl

end Sys2Proof.Machine
end

section
/-! PROOFS. Which registers and flags an instruction writes (10_state.md R21, R22, R23, R27, R30). -/

namespace Sys2Proof.Machine

/-! ### Operands that are registers -/

/-- A mode refers to a register only if it is the register mode. -/
theorem eq_register_of_operandRef {m : Mode} {s : State} {r : Reg}
    (h : operandRef m s = .reg r) : m = .register r := by
  cases m <;> simp_all [operandRef, pointerCells, refFor]

/-- A register that a well-formed instruction has as its mode is the accumulator, and is listed as
written (R99, R21). -/
theorem writes_a_of_register_mode {i : Instr} {r : Reg} (hw : i.wellFormed = true)
    (hm : i.mode = some (.register r)) : r = .a ∧ (writes i).a = true := by
  cases i
  case lda m | ldx m | ldy m | lax m | sta m | stx m | sty m | sax m | adc m | sbc m | and m | ora m
      | eor m | cmp m | cpx m | cpy m | bit m | inc m | dec m | asl m | lsr m | rol m | ror m | jmp m =>
    obtain rfl : m = .register r := Option.some.inj hm
    revert hw
    cases r <;> decide
  all_goals cases hm

theorem State.reg_setReg_ne (s : State) {r q : Reg} (v : Byte) (h : r ≠ q) :
    (s.setReg q v).reg r = s.reg r := by
  cases q <;> cases r <;> simp_all [State.reg, State.setReg]

/-- Storing to a mode that is not a register leaves the register alone. -/
theorem storedThrough_reg {m : Mode} {r : Reg} (h : m ≠ .register r) (s : State) (v : Byte)
    (t : State) : (storedThrough m s v t).reg r = t.reg r := by
  unfold storedThrough
  split
  · cases r <;> simp [State.reg]
  · next q hq =>
    refine State.reg_setReg_ne t v ?_
    rintro rfl
    exact h (eq_register_of_operandRef hq)
  all_goals rfl

/-! ### What an instruction may write -/

/-- From `s` to `t` no register was written but those listed for `i`, and SP moved by the bytes `i`
pushes or pulls (R21, R22, R23). -/
structure RegistersKept (i : Instr) (s t : State) : Prop where
  a : (writes i).a = false → t.a = s.a
  x : (writes i).x = false → t.x = s.x
  y : (writes i).y = false → t.y = s.y
  sp : i ≠ .txs → t.sp = s.sp + (writes i).sp

/-- From `f` to `g` no flag was written but those that `w` lists, B apart (R27, R30). -/
structure FlagsKept (w : Writes) (f g : Flags) : Prop where
  c : w.c = false → g.c = f.c
  zn : w.zn = false → g.z = f.z ∧ g.n = f.n
  i : w.i = false → g.i = f.i
  d : w.d = false → g.d = f.d
  v : w.v = false → g.v = f.v

namespace FlagsKept

variable {w : Writes} {f g : Flags}

theorem of_eq (h : g = f) : FlagsKept w f g := by
  subst h
  exact ⟨fun _ => rfl, fun _ => ⟨rfl, rfl⟩, fun _ => rfl, fun _ => rfl, fun _ => rfl⟩

/-- A computation that writes Z and N alone (R29). -/
theorem setZN {r : Byte} (hzn : w.zn = true) (h : g = f.setZN r) : FlagsKept w f g := by
  subst h
  exact ⟨fun _ => rfl, by simp [hzn], fun _ => rfl, fun _ => rfl, fun _ => rfl⟩

/-- A computation that writes C, Z and N: a comparison's or a shift's (R168, R190). -/
theorem carry {c : Bool} {r : Byte} (hc : w.c = true) (hzn : w.zn = true)
    (h : g = { f with c := c }.setZN r) : FlagsKept w f g := by
  subst h
  exact ⟨by simp [hc], by simp [hzn], fun _ => rfl, fun _ => rfl, fun _ => rfl⟩

/-- The computation of ADC and SBC (R161, R163). -/
theorem afterSum {r : Sum} (hc : w.c = true) (hzn : w.zn = true) (hv : w.v = true)
    (h : g = f.afterSum r) : FlagsKept w f g := by
  subst h
  exact ⟨by simp [hc], by simp [hzn], fun _ => rfl, fun _ => rfl, by simp [hv]⟩

/-- The computation of BIT (R171). -/
theorem afterBit {a m : Byte} (hzn : w.zn = true) (hv : w.v = true) (h : g = f.afterBit a m) :
    FlagsKept w f g := by
  subst h
  exact ⟨fun _ => rfl, by simp [hzn], fun _ => rfl, fun _ => rfl, by simp [hv]⟩

end FlagsKept

theorem RegistersKept.setFlags {i : Instr} {s t : State} (h : RegistersKept i s t) (f : Flags) :
    RegistersKept i s (t.setFlags f) := ⟨h.a, h.x, h.y, h.sp⟩

/-- A store through the operand of a well-formed instruction that moves no SP writes at most the
accumulator, and that only where it is listed. -/
theorem RegistersKept.storedThrough {i : Instr} {m : Mode} {s u : State} (hw : i.wellFormed = true)
    (hm : i.mode = some m) (hsp : (writes i).sp = 0) (hu : ∀ r, u.reg r = s.reg r) (v : Byte) :
    RegistersKept i s (storedThrough m s v u) := by
  have kept : ∀ r, (r = .a → (writes i).a = false) →
      (Machine.storedThrough m s v u).reg r = s.reg r := by
    intro r ha
    rw [storedThrough_reg ?_ s v u, hu]
    rintro rfl
    obtain ⟨hr, hwr⟩ := writes_a_of_register_mode hw hm
    rw [ha hr] at hwr
    cases hwr
  exact ⟨fun h => kept .a fun _ => h, fun _ => kept .x nofun, fun _ => kept .y nofun,
    fun _ => (kept .sp nofun).trans (by rw [hsp]; exact (BitVec.add_zero _).symm)⟩

/-! ### Entry and return -/

@[simp] theorem State.pushedWord_a (s : State) (w : Word) : (s.pushedWord w).a = s.a := by
  simp [State.pushedWord]

@[simp] theorem State.pushedWord_x (s : State) (w : Word) : (s.pushedWord w).x = s.x := by
  simp [State.pushedWord]

@[simp] theorem State.pushedWord_y (s : State) (w : Word) : (s.pushedWord w).y = s.y := by
  simp [State.pushedWord]

@[simp] theorem State.pushedWord_sp (s : State) (w : Word) :
    (s.pushedWord w).sp = s.sp + -2#8 := by
  simp [State.pushedWord, BitVec.sub_eq_add_neg, BitVec.add_assoc]

@[simp] theorem State.pushedWord_flags (s : State) (w : Word) :
    (s.pushedWord w).flags = s.flags := by
  simp [State.pushedWord]

@[simp] theorem State.entered_a (s : State) (vec : Word) (b : Bool) :
    (s.entered vec b).a = s.a := by simp [State.entered]

@[simp] theorem State.entered_x (s : State) (vec : Word) (b : Bool) :
    (s.entered vec b).x = s.x := by simp [State.entered]

@[simp] theorem State.entered_y (s : State) (vec : Word) (b : Bool) :
    (s.entered vec b).y = s.y := by simp [State.entered]

@[simp] theorem State.entered_sp (s : State) (vec : Word) (b : Bool) :
    (s.entered vec b).sp = s.sp + -3#8 := by
  simp [State.entered, BitVec.sub_eq_add_neg, BitVec.add_assoc]

@[simp] theorem State.entered_flags (s : State) (vec : Word) (b : Bool) :
    (s.entered vec b).flags = { s.flags with i := true } := by
  simp [State.entered]

@[simp] theorem State.left_a (s : State) : s.left.a = s.a := by simp [State.left]

@[simp] theorem State.left_x (s : State) : s.left.x = s.x := by simp [State.left]

@[simp] theorem State.left_y (s : State) : s.left.y = s.y := by simp [State.left]

@[simp] theorem State.left_sp (s : State) : s.left.sp = s.sp + 3#8 := by
  simp [State.left, BitVec.add_assoc]

/-! ### Branches and operands -/

@[simp] theorem branch_a (c : Bool) (off : Byte) (s : State) : (branch c off s).a = s.a := by
  cases c <;> rfl

@[simp] theorem branch_x (c : Bool) (off : Byte) (s : State) : (branch c off s).x = s.x := by
  cases c <;> rfl

@[simp] theorem branch_y (c : Bool) (off : Byte) (s : State) : (branch c off s).y = s.y := by
  cases c <;> rfl

@[simp] theorem branch_sp (c : Bool) (off : Byte) (s : State) : (branch c off s).sp = s.sp := by
  cases c <;> rfl

@[simp] theorem branch_flags (c : Bool) (off : Byte) (s : State) :
    (branch c off s).flags = s.flags := by
  cases c <;> rfl

@[simp] theorem storedThrough_flags (m : Mode) (s : State) (v : Byte) (t : State) :
    (storedThrough m s v t).flags = t.flags := by
  unfold storedThrough
  split <;> simp

/-- Loading through the operand, or resolving it, leaves the registers alone. -/
theorem afterLoad_reg (m : Mode) (s : State) (r : Reg) : (afterLoad m s).reg r = s.reg r := by
  cases r <;> simp [State.reg]

theorem afterResolve_reg (m : Mode) (s : State) (r : Reg) :
    (afterResolve m s).reg r = s.reg r := by
  cases r <;> simp [State.reg]

/-! ### Every instruction -/

/-- An instruction that loads its operand and ends well goes on from the loaded operand. -/
theorem next_of_loadOperand {m : Mode} {s t : State} {f : Byte × State → Result State}
    (h : finish (loadOperand m s >>= f) = .next t) :
    f (operandValue m s, afterLoad m s) = .ok t := by
  obtain ⟨p, hl, h⟩ := bind_eq_ok (finish_eq_next.mp h)
  obtain ⟨-, hv, hu⟩ := loadOperand_eq_ok (v := p.1) (t := p.2) hl
  rwa [← hv, ← hu]

/-- An instruction that pulls a byte and ends well goes on from the pulled byte. -/
theorem next_of_pull {s t : State} {f : Byte × State → Result State}
    (h : finish (pull s >>= f) = .next t) : f (s.pullValue, s.pulled) = .ok t := by
  obtain ⟨p, hl, h⟩ := bind_eq_ok (finish_eq_next.mp h)
  obtain ⟨-, hv, hu⟩ := pull_eq_ok (v := p.1) (t := p.2) hl
  rwa [← hv, ← hu]

/-- What an instruction that ends in a next state has written of the flags, and, if it is well-formed,
of the registers. -/
theorem exec_kept {i : Instr} {s t : State} (h : exec i s = .next t) :
    FlagsKept (writes i) s.flags t.flags ∧ (i.wellFormed = true → RegistersKept i s t) := by
  cases i
  case lda m | ldx m | ldy m | lax m | and m | ora m | eor m =>
    cases next_of_loadOperand h
    exact ⟨.setZN rfl (congrArg (Flags.setZN · _) (afterLoad_flags m s)),
      fun _ => by constructor <;> simp [writes]⟩
  case adc m | sbc m =>
    cases next_of_loadOperand h
    exact ⟨.afterSum rfl rfl rfl (congrArg (Flags.afterSum · _) (afterLoad_flags m s)),
      fun _ => by constructor <;> simp [writes]⟩
  case cmp m | cpx m | cpy m =>
    cases next_of_loadOperand h
    exact ⟨.carry rfl rfl (congrArg (Flags.afterCompare · _ _) (afterLoad_flags m s)),
      fun _ => by constructor <;> simp [writes]⟩
  case bit m =>
    cases next_of_loadOperand h
    exact ⟨.afterBit rfl rfl (congrArg (Flags.afterBit · _ _) (afterLoad_flags m s)),
      fun _ => by constructor <;> simp [writes]⟩
  case sta m | stx m | sty m | sax m =>
    obtain ⟨-, rfl⟩ := storeOperand_eq_ok (finish_eq_next.mp h)
    exact ⟨.of_eq (by simp), fun hw => .storedThrough hw rfl rfl (afterResolve_reg m s) _⟩
  case inc m | dec m =>
    obtain ⟨-, rfl⟩ := modifyOperand_eq_ok (finish_eq_next.mp h)
    exact ⟨.setZN rfl rfl, fun hw => .setFlags (.storedThrough hw rfl rfl (afterLoad_reg m s) _) _⟩
  case asl m | lsr m | rol m | ror m =>
    obtain ⟨-, rfl⟩ := modifyOperand_eq_ok (finish_eq_next.mp h)
    exact ⟨.carry rfl rfl rfl,
      fun hw => .setFlags (.storedThrough hw rfl rfl (afterLoad_reg m s) _) _⟩
  case tax | tay | txa | tya | tsx | inx | iny | dex | dey =>
    cases h
    exact ⟨.setZN rfl rfl, fun _ => by constructor <;> simp [writes]⟩
  case txs =>
    cases h
    exact ⟨.of_eq rfl, fun _ => by constructor <;> simp⟩
  case axs imm =>
    cases h
    exact ⟨.carry rfl rfl rfl, fun _ => by constructor <;> simp [writes]⟩
  case jmp m =>
    obtain ⟨⟨r, u⟩, hr, h⟩ := bind_eq_ok (finish_eq_next.mp h)
    obtain ⟨-, rfl, rfl⟩ := resolve_eq_ok hr
    revert h
    cases operandRef m s <;> intro h <;> cases h
    exact ⟨.of_eq (by simp), fun _ => by constructor <;> simp [writes]⟩
  case jsr target =>
    obtain ⟨u, hu, h⟩ := bind_eq_ok (finish_eq_next.mp h)
    obtain ⟨-, rfl⟩ := pushWord_eq_ok hu
    cases h
    exact ⟨.of_eq (by simp), fun _ => by constructor <;> simp [writes]⟩
  case rts =>
    obtain ⟨⟨w, u⟩, hu, h⟩ := bind_eq_ok (finish_eq_next.mp h)
    obtain ⟨-, rfl, rfl⟩ := pullWord_eq_ok hu
    cases h
    exact ⟨.of_eq (by simp), fun _ => by constructor <;> simp [writes, BitVec.add_assoc]⟩
  case bcc off | bcs off | beq off | bne off | bmi off | bpl off | bvc off | bvs off =>
    cases h
    exact ⟨.of_eq (by simp), fun _ => by constructor <;> simp [writes]⟩
  case pha | php =>
    obtain ⟨-, rfl⟩ := push_eq_ok (finish_eq_next.mp h)
    exact ⟨.of_eq (by simp), fun _ => by constructor <;> simp [writes, BitVec.sub_eq_add_neg]⟩
  case pla =>
    cases next_of_pull h
    exact ⟨.setZN rfl (congrArg (Flags.setZN · _) s.pulled_flags),
      fun _ => by constructor <;> simp [writes]⟩
  case plp =>
    cases next_of_pull h
    exact ⟨⟨nofun, nofun, nofun, nofun, nofun⟩, fun _ => by constructor <;> simp [writes]⟩
  case clc | sec | cli | sei | cld | sed | clv =>
    cases h
    exact ⟨by constructor <;> simp [writes], fun _ => by constructor <;> simp [writes]⟩
  case brk =>
    obtain ⟨-, -, rfl⟩ := enter_eq_ok (finish_eq_next.mp h)
    exact ⟨by constructor <;> simp [writes], fun _ => by constructor <;> simp [writes]⟩
  case rti =>
    obtain ⟨-, rfl⟩ := leave_eq_ok (finish_eq_next.mp h)
    exact ⟨⟨nofun, nofun, nofun, nofun, nofun⟩, fun _ => by constructor <;> simp [writes]⟩
  case nop | unmapped op =>
    cases h
    exact ⟨.of_eq rfl, fun _ => by constructor <;> simp [writes]⟩

/-- Settles O54, by what every instruction writes of the registers. -/
theorem registersWrittenOnlyByListed : Obligations.RegistersWrittenOnlyByListed := by
  intro i s t hw h
  obtain ⟨-, hr⟩ := exec_kept h
  obtain ⟨ha, hx, hy, hsp⟩ := hr hw
  exact ⟨ha, hx, hy, hsp⟩

/-- Settles O55, by what every instruction writes of the flags; for the stored B, replacing it by itself
shows that BRK alone writes it. -/
theorem flagsWrittenOnlyByListed : Obligations.FlagsWrittenOnlyByListed := by
  intro i s t h
  obtain ⟨⟨hc, hzn, hi, hd, hv⟩, -⟩ := exec_kept h
  exact ⟨hc, hzn, hi, hd, hv, exec_flags_b h⟩

end Sys2Proof.Machine
end

section
/-! PROOFS. The invariant of the machine: every operation keeps it (10_state.md R37; 60_exceptions.md
R286, R292). -/

namespace Sys2Proof.Machine

/-! ### The timing device -/

/-- A tick counts as `advance` does; the events it evaluates move no counter (R292). -/
theorem Timing.tick_counters (g : Geometry) (t : Timing) :
    (t.tick g).1.scanline = (t.advance g).scanline ∧ (t.tick g).1.cycle = (t.advance g).cycle := by
  unfold Timing.tick
  dsimp only
  split_ifs <;> exact ⟨rfl, rfl⟩

theorem Timing.advance_status (g : Geometry) (t : Timing) : (t.advance g).status = t.status := by
  unfold Timing.advance
  split <;> rfl

/-- The counters stay in range: the cycle starts over past its limit, and the scanline after its
maximum is the pre-render line, which is not past it (R292). -/
theorem Timing.advance_inRange {g : Geometry} {t : Timing} (hg : g.valid) (h : t.inRange g) :
    (t.advance g).inRange g := by
  obtain ⟨hlo, hhi, hcyc⟩ := h
  unfold Timing.advance
  split
  · refine ⟨?_, ?_, Nat.zero_le _⟩ <;> dsimp only <;> split <;> omega
  · exact ⟨hlo, hhi, by dsimp only; omega⟩

theorem Timing.tick_inRange {g : Geometry} {t : Timing} (hg : g.valid) (h : t.inRange g) :
    (t.tick g).1.inRange g := by
  obtain ⟨hs, hc⟩ := Timing.tick_counters g t
  have ha := Timing.advance_inRange hg h
  rwa [Timing.inRange, hs, hc]

/-- Clearing a bit of a byte whose bits 6 to 0 are 0, here VBlank, leaves them 0 (R293). -/
theorem clearVblank_clean {v : Byte} (h : v &&& 0x7F = 0) : v &&& ~~~vblankMask &&& 0x7F = 0 := by
  rw [BitVec.and_assoc, BitVec.and_comm (~~~vblankMask), ← BitVec.and_assoc, h]
  exact BitVec.zero_and

/-- VBlank is bit 7, so setting it leaves bits 6 to 0 (R294). -/
theorem setVblank_clean {v : Byte} (h : v &&& 0x7F = 0) : (v ||| vblankMask) &&& 0x7F = 0 := by
  have hm : vblankMask &&& 0x7F = 0 := rfl
  rw [BitVec.and_or_distrib_right, h, hm]
  exact BitVec.zero_or

/-- A tick clears VBlank, sets it, does both where the two lines are one, or leaves it (R293, R294);
what it returns does not matter to the register. -/
theorem Timing.tick_statusClean (g : Geometry) {t : Timing} (h : t.statusClean) :
    (t.tick g).1.statusClean := by
  have ha : (t.advance g).status &&& 0x7F = 0 := by rwa [Timing.advance_status]
  unfold Timing.tick
  dsimp only
  have hc := clearVblank_clean ha
  split_ifs
  exacts [setVblank_clean hc, setVblank_clean hc, hc, setVblank_clean ha, setVblank_clean ha, ha]

/-- A write to a port reaches neither the status register nor the counters (R288, R289, R291). -/
theorem Timing.afterWrite_kept (t : Timing) (v : Byte) (p : Port) :
    (t.afterWrite v p).status = t.status ∧ (t.afterWrite v p).scanline = t.scanline ∧
      (t.afterWrite v p).cycle = t.cycle := by
  cases p <;> exact ⟨rfl, rfl, rfl⟩

/-! ### The machine -/

/-- The invariant depends on the configuration, the memory, the status register and the counters
alone. -/
theorem State.Inv.of_eq {s t : State} (h : s.Inv) (hc : t.cfg = s.cfg) (hm : Memory.wf t.mem)
    (hd : t.dev.status = s.dev.status ∧ t.dev.scanline = s.dev.scanline ∧
      t.dev.cycle = s.dev.cycle) : t.Inv := by
  obtain ⟨hmap, hgeo, -, hclean, hrange⟩ := h
  obtain ⟨hst, hsc, hcy⟩ := hd
  refine ⟨by rwa [hc], by rwa [hc], hm, by rwa [Timing.statusClean, hst], ?_⟩
  rwa [Timing.inRange, hc, hsc, hcy]

theorem State.Inv.mem_wf {s : State} (h : s.Inv) : Memory.wf s.mem := by
  obtain ⟨-, -, hm, -⟩ := h
  exact hm

/-- A bus read at most resets the write toggle (R290). -/
theorem State.Inv.afterRead {s : State} (h : s.Inv) (a : Word) : (s.afterRead a).Inv := by
  refine h.of_eq (by simp) (by simpa using h.mem_wf) ?_
  rw [State.afterRead_dev]
  split <;> exact ⟨rfl, rfl, rfl⟩

/-- A bus write sets one RAM byte or one port (R56). -/
theorem State.Inv.afterWrite {s : State} (h : s.Inv) (a : Word) (v : Byte) :
    (s.afterWrite a v).Inv := by
  rcases ha : s.target a with _ | (k | k | p)
  · rwa [State.afterWrite_unmounted ha]
  · rw [State.afterWrite_ram ha]
    exact h.of_eq rfl (Memory.set_wf h.mem_wf k v) ⟨rfl, rfl, rfl⟩
  · rwa [State.afterWrite_rom ha]
  · rw [State.afterWrite_port ha]
    exact h.of_eq rfl h.mem_wf (s.dev.afterWrite_kept v p)

theorem State.Inv.tick {s : State} (h : s.Inv) : (s.setDev (s.dev.tick s.cfg.geometry).1).Inv := by
  obtain ⟨hmap, hgeo, hm, hclean, hrange⟩ := h
  exact ⟨hmap, hgeo, hm, Timing.tick_statusClean _ hclean, Timing.tick_inRange hgeo hrange⟩

/-- Every operation of an instruction and of the driver keeps the invariant. -/
theorem State.Inv.keptByDriver : KeptByDriver State.Inv where
  setA _ h := h
  setX _ h := h
  setY _ h := h
  setSP _ h := h
  setPC _ h := h
  setFlags _ h := h
  afterRead a h := h.afterRead a
  afterWrite a v _ h := h.afterWrite a v
  setDriver _ h := h
  start h := h
  tick h := h.tick

/-- Settles O58: every step keeps the invariant, since every operation does. -/
theorem invariantKeptByStep : Obligations.InvariantKeptByStep :=
  fun _ _ hs hstep => State.Inv.keptByDriver.step hstep hs

end Sys2Proof.Machine
end

section
/-! PROOFS. The bus, device by device (20_memory.md R53 to R61, R66, R67, R70; 60_exceptions.md R286
to R291, R299, R300). -/

namespace Sys2Proof.Machine

/-! ### Ports by their offset -/

/-- The ports repeat every 8 offsets (R299). -/
theorem portAt_mod (off : Nat) : portAt (off % 8) = portAt off := by
  simp [portAt, regWindow]

/-- The status port is offset 2 modulo 8, and no other (R286, R299). -/
theorem portAt_eq_status {off : Nat} : portAt off = .status ↔ off % 8 = 2 := by
  rw [← portAt_mod]
  have h : off % 8 < 8 := Nat.mod_lt _ (by decide)
  generalize off % 8 = k at h ⊢
  interval_cases k <;> decide

/-! ### What stands at an address of a mount -/

section
variable {s : State} {m : Mount} {a : Word} {n : Nat}

theorem State.mounted_of_target {d : Target} (h : s.target a = some d) : s.mounted a = true := by
  simp [State.mounted, h]

theorem State.mounted_of_lookup_none (h : lookup s.cfg.map a = none) : s.mounted a = false := by
  simp [State.mounted, State.target, h]

theorem State.target_of_lookup_ram (hm : lookup s.cfg.map a = some m) (hd : m.dev = .ram n) :
    s.target a = some (.ram (m.key ((a.toNat - m.start) % n))) := by
  simp [State.target, hm, Mount.target, hd]

theorem State.target_of_lookup_rom (hm : lookup s.cfg.map a = some m) (hd : m.dev = .rom n) :
    s.target a = some (.rom (m.key ((a.toNat - m.start) % n))) := by
  simp [State.target, hm, Mount.target, hd]

/-- An offset of the register file reaches the port of any offset equal to it modulo 8 (R61, R299). -/
theorem State.target_of_lookup_registers (hm : lookup s.cfg.map a = some m)
    (hd : m.dev = .registers) {k : Nat} (hk : (a.toNat - m.start) % 8 = k) :
    s.target a = some (.port (portAt k)) := by
  simp [State.target, hm, Mount.target, hd, ← hk, portAt_mod]

/-- An address of a memory reaches the byte at the reduced offset (R59, R60). -/
theorem State.byteAt_of_lookup_memory (hm : lookup s.cfg.map a = some m)
    (hd : m.dev = .ram n ∨ m.dev = .rom n) :
    s.byteAt a = some (Memory.get s.mem (m.key ((a.toNat - m.start) % n))) := by
  rcases hd with hd | hd
  · exact State.byteAt_ram (State.target_of_lookup_ram hm hd)
  · exact State.byteAt_rom (State.target_of_lookup_rom hm hd)

theorem State.valueAt_of_lookup_memory (hm : lookup s.cfg.map a = some m)
    (hd : m.dev = .ram n ∨ m.dev = .rom n) :
    s.valueAt a = Memory.get s.mem (m.key ((a.toNat - m.start) % n)) := by
  obtain ⟨-, hv, -⟩ := State.read_of_byteAt (State.byteAt_of_lookup_memory hm hd)
  exact hv

/-- A bus read of a memory gives the byte at the reduced offset and changes nothing (R59, R60). -/
theorem busRead_of_lookup_memory (hm : lookup s.cfg.map a = some m)
    (hd : m.dev = .ram n ∨ m.dev = .rom n) :
    busRead a s = .ok (Memory.get s.mem (m.key ((a.toNat - m.start) % n)), s) := by
  obtain ⟨hmt, hv, hr⟩ := State.read_of_byteAt (State.byteAt_of_lookup_memory hm hd)
  rw [busRead_ok hmt, hv, hr]

/-- A slice of a memory runs from the reduced offset to the end of the backing (R59, R60). -/
theorem busSlice_of_lookup_memory (hm : lookup s.cfg.map a = some m)
    (hd : m.dev = .ram n ∨ m.dev = .rom n) (k : Nat) :
    busSlice a k s = .ok ((List.range (min k (n - (a.toNat - m.start) % n))).map fun j =>
      Memory.get s.mem (m.key ((a.toNat - m.start) % n + j))) := by
  rcases hd with hd | hd <;> simp [busSlice, hm, Mount.slice, hd]

/-- A slice of the register file is empty (R61, R300). -/
theorem busSlice_of_lookup_registers (hm : lookup s.cfg.map a = some m) (hd : m.dev = .registers)
    (k : Nat) : busSlice a k s = .ok [] := by
  simp [busSlice, hm, Mount.slice, hd]

end

/-! ### The ports -/

/-- A read of the status port gives the register and resets the toggle (R290). -/
theorem busRead_status {s : State} {a : Word} (h : s.target a = some (.port .status)) :
    busRead a s = .ok (s.dev.status, s.setDev { s.dev with w := false }) := by
  rw [busRead_ok (State.mounted_of_target h)]
  simp [State.valueAt, State.afterRead, h, Timing.afterRead]

/-- A read of another port draws a byte and leaves the device alone (R287). -/
theorem busRead_port {s : State} {a : Word} {p : Port} (h : s.target a = some (.port p))
    (hp : p ≠ .status) : busRead a s = .ok (Config.freeByte s.draws, s.drawn) := by
  rw [busRead_ok (State.mounted_of_target h), State.valueAt, State.afterRead, h]
  cases p
  case status => exact absurd rfl hp
  all_goals rfl

/-- A write to the status port faults (R291). -/
theorem busWrite_status {s : State} {a : Word} (h : s.target a = some (.port .status)) (v : Byte) :
    busWrite a v s = .error (.fault (.illegalStatusWrite a)) := by
  simp [busWrite, State.mounted_of_target h, h]

/-- A write to a target that is not the status port lands there (R56). -/
theorem busWrite_of_target {s : State} {a : Word} {d : Target} (h : s.target a = some d)
    (hd : d ≠ .port .status) (v : Byte) : busWrite a v s = .ok (s.afterWrite a v) :=
  busWrite_ok (by simp [State.writable, State.mounted_of_target h, h, hd]) v

/-- A write to another port is the device's (R288). -/
theorem busWrite_port {s : State} {a : Word} {p : Port} (h : s.target a = some (.port p))
    (hp : p ≠ .status) (v : Byte) : busWrite a v s = .ok (s.setDev (s.dev.afterWrite v p)) := by
  rw [busWrite_of_target h (by simpa using hp), State.afterWrite_port h]

/-! ### Reads, writes and fetches -/

/-- Settles O9: one case for each kind of device, and for the register file the port at the
offset. -/
theorem busReadByDevice : Obligations.BusReadByDevice := by
  intro s a
  refine ⟨fun hn => busRead_fault (State.mounted_of_lookup_none hn), fun m hm => ?_⟩
  refine ⟨fun n hd => busRead_of_lookup_memory hm hd, fun hd hk => ?status, fun hd hk => ?other⟩
  case status => exact busRead_status (State.target_of_lookup_registers hm hd hk)
  case other =>
    refine busRead_port (State.target_of_lookup_registers hm hd rfl) fun hs => hk ?_
    rwa [portAt_mod, portAt_eq_status] at hs

/-- Settles O10: one case for each kind of device, and for each port of the register file that is
neither scroll nor address. -/
theorem busWriteByDevice : Obligations.BusWriteByDevice := by
  intro s a v
  refine ⟨fun hn => ?unmounted, fun m hm => ⟨fun n hd => ?ram, fun n hd => ?rom, fun hd => ?ports⟩⟩
  case unmounted => simp [busWrite, State.mounted_of_lookup_none hn]
  case ram =>
    have ht := State.target_of_lookup_ram hm hd
    rw [busWrite_of_target ht nofun, State.afterWrite_ram ht]
    rfl
  case rom =>
    have ht := State.target_of_lookup_rom hm hd
    rw [busWrite_of_target ht nofun, State.afterWrite_rom ht]
  case ports =>
    have hport {k : Nat} (hk : (a.toNat - m.start) % 8 = k) :=
      State.target_of_lookup_registers hm hd hk
    exact ⟨fun hk => busWrite_port (hport hk) nofun v, fun hk => busWrite_port (hport hk) nofun v,
      fun hk => busWrite_status (hport hk) v, fun hk => busWrite_port (hport hk) nofun v,
      fun hk => busWrite_port (hport hk) nofun v, fun hk => busWrite_port (hport hk) nofun v⟩

/-- Settles O8: the empty slice decodes to nothing, so the fetch stops the CPU step. -/
theorem registerWindowNotExecutable : Obligations.RegisterWindowNotExecutable := by
  intro s m hdriver hstarted hm hd
  have hslice := busSlice_of_lookup_registers hm hd 3
  have hfetch : fetch s = .error (.fault (.addressSpaceExhaustion s.pc)) := by
    rw [fetch, hslice]; rfl
  refine ⟨hslice, ?_⟩
  simp [step, hdriver, cpuStep, hstarted, hfetch, finish]

/-! ### A byte written, seen from its mount -/

/-- Two offsets in a mount's window have the same key only if they are the same. -/
theorem Mount.key_inj_of_lt {m : Mount} {i j : Nat} (hi : i < m.stop - m.start)
    (hj : j < m.stop - m.start) : m.key i = m.key j ↔ i = j := by
  rw [Mount.key_of_lt hi, Mount.key_of_lt hj, Nat.add_left_cancel_iff]

/-- After a write to a RAM the memory read at the offset of any address of its window is the byte
written, if the reduced offsets agree, and else what it was (R59). -/
theorem State.afterWrite_valueAt_ram {s : State} {m : Mount} {n : Nat} {a b : Word} {v : Byte}
    (hw : Memory.wf s.mem) (ha : lookup s.cfg.map a = some m) (hb : lookup s.cfg.map b = some m)
    (hd : m.dev = .ram n) : (s.afterWrite a v).valueAt b =
      if (b.toNat - m.start) % n = (a.toNat - m.start) % n then v else s.valueAt b := by
  have hkeys := Mount.key_inj_of_lt (reduced_lt hb n) (reduced_lt ha n)
  have hb' : lookup (s.afterWrite a v).cfg.map b = some m := by rwa [State.afterWrite_cfg]
  rw [State.valueAt_of_lookup_memory hb (.inl hd), State.valueAt_of_lookup_memory hb' (.inl hd),
    State.afterWrite_ram (State.target_of_lookup_ram ha hd), State.setMem_mem]
  split
  · next he => rw [he, Memory.get_set_same hw]
  · next hne => rw [Memory.get_set_ne _ _ (mt hkeys.mp hne)]

/-- The first byte of a slice of a memory is the one a read there returns (R57). -/
theorem busSlice_head {s : State} {m : Mount} {n : Nat} {a : Word}
    (hm : lookup s.cfg.map a = some m) (hd : m.dev = .ram n ∨ m.dev = .rom n) (hn : 1 ≤ n)
    (k : Nat) : ∃ rest, busSlice a (k + 1) s = .ok (s.valueAt a :: rest) := by
  have hlt := Nat.mod_lt (a.toNat - m.start) hn
  obtain ⟨l, hl⟩ : ∃ l, min (k + 1) (n - (a.toNat - m.start) % n) = l + 1 :=
    Nat.exists_eq_add_of_le' (by omega)
  rw [busSlice_of_lookup_memory hm hd, hl, State.valueAt_of_lookup_memory hm hd,
    List.range_succ_eq_map]
  exact ⟨_, rfl⟩

/-- Settles O12: the byte written is seen at the same key alone, and a slice is the backing from the
reduced offset on. -/
theorem ramMirrorsAndSlices : Obligations.RamMirrorsAndSlices := by
  refine ⟨fun s t m n a b v hw ha hb hd h => ?mirrors, fun s m n a hm hd k => ?slice⟩
  case mirrors =>
    obtain ⟨-, rfl⟩ := busWrite_eq_ok h
    exact ⟨State.afterWrite_cfg s a v, State.afterWrite_valueAt_ram hw ha hb hd⟩
  case slice =>
    refine ⟨_, busSlice_of_lookup_memory hm hd k, by simp, fun hn hk => ?_, fun j hj => ?_⟩
    · obtain ⟨k, rfl⟩ := Nat.exists_eq_add_of_le' hk
      obtain ⟨rest, hrest⟩ := busSlice_head hm hd hn k
      rw [busSlice_of_lookup_memory hm hd] at hrest
      rw [Except.ok.inj hrest, List.head?_cons]
    · rw [List.getElem?_eq_getElem hj]
      simp

/-- Settles O14: the first byte of the slice is the byte read there, which is the one written. -/
theorem storeSeenByNextFetch : Obligations.StoreSeenByNextFetch := by
  intro s t m n k a b v hw hn ha hb hd hmirror h
  obtain ⟨-, rfl⟩ := busWrite_eq_ok h
  have hslice := busSlice_head (s := s.afterWrite a v) (by simpa using hb) (.inl hd) hn k
  rwa [State.afterWrite_valueAt_ram hw ha hb hd, if_pos hmirror] at hslice

/-! ### A byte written, seen from another mount -/

/-- A write leaves every backing byte of another mount alone, those past its window included (R67). -/
theorem State.afterWrite_get_of_ne {s : State} (hw : wellFormedMap s.cfg.map) {m q : Mount}
    {a : Word} (ha : lookup s.cfg.map a = some m) (hq : q ∈ s.cfg.map) (hne : m ≠ q) (v : Byte)
    (j : Nat) : Memory.get (s.afterWrite a v).mem (q.key j) = Memory.get s.mem (q.key j) := by
  cases hd : m.dev with
  | ram n =>
    rw [State.afterWrite_ram (State.target_of_lookup_ram ha hd), State.setMem_mem]
    exact Memory.get_set_ne _ _
      (Mount.key_ne hw (lookup_covers ha).1 hq hne (reduced_lt ha n)).symm
  | rom n => rw [State.afterWrite_rom (State.target_of_lookup_rom ha hd)]
  | registers => rw [State.afterWrite_port (State.target_of_lookup_registers ha hd rfl)]; rfl

/-- What is sliced from another mount is the same after a write (R67). -/
theorem busSlice_afterWrite_of_ne {s : State} (hw : wellFormedMap s.cfg.map) {m : Mount}
    {a b : Word} (ha : lookup s.cfg.map a = some m) (hb : lookup s.cfg.map b ≠ some m) (v : Byte)
    (k : Nat) : busSlice b k (s.afterWrite a v) = busSlice b k s := by
  unfold busSlice
  rw [State.afterWrite_cfg]
  cases hq : lookup s.cfg.map b with
  | none => rfl
  | some q =>
    have hne : m ≠ q := by rintro rfl; exact hb hq
    simp [Mount.slice, State.afterWrite_get_of_ne hw ha (lookup_covers hq).1 hne]

/-- The byte at an address of another mount is the same after a write (R67). -/
theorem State.byteAt_afterWrite_of_ne {s : State} (hw : wellFormedMap s.cfg.map) {m : Mount}
    {a b : Word} (ha : lookup s.cfg.map a = some m) (hb : lookup s.cfg.map b ≠ some m) (v : Byte) :
    (s.afterWrite a v).byteAt b = s.byteAt b := by
  unfold State.byteAt
  rw [State.afterWrite_target]
  cases hq : lookup s.cfg.map b with
  | none => simp [State.target, hq]
  | some q =>
    have hne : m ≠ q := by rintro rfl; exact hb hq
    have hget := State.afterWrite_get_of_ne hw ha (lookup_covers hq).1 hne v
    cases hd : q.dev <;> simp [State.target, hq, Mount.target, hd, hget]

/-- Settles O13: a write changes backing bytes of the mount it goes to, or the timing device. -/
theorem deviceIsolation : Obligations.DeviceIsolation := by
  intro s t m a v hw ha h
  obtain ⟨-, rfl⟩ := busWrite_eq_ok h
  refine ⟨fun b hb => ⟨State.byteAt_afterWrite_of_ne hw ha hb v,
    busSlice_afterWrite_of_ne hw ha hb v⟩, fun hd => ?memory, fun hd => ?registers⟩
  case memory =>
    cases hdev : m.dev with
    | ram n => rw [State.afterWrite_ram (State.target_of_lookup_ram ha hdev)]; rfl
    | rom n => rw [State.afterWrite_rom (State.target_of_lookup_rom ha hdev)]
    | registers => exact absurd hdev hd
  case registers => rw [State.afterWrite_port (State.target_of_lookup_registers ha hd rfl)]; rfl

end Sys2Proof.Machine
end

section
/-! PROOFS. What an instruction changes outside the registers: the bytes and ports it stores to
(20_memory.md R66, R67; 40_addressing.md R135). -/

namespace Sys2Proof.Machine

namespace StoresOnly

/-! ### Entry, return and branches -/

theorem pullTwice (s : State) : StoresOnly [] s s.pulled.pulled := (pulled s).andThen (pulled _)

/-- The return from an interrupt stores nothing (R277). -/
theorem left (s : State) : StoresOnly [] s s.left :=
  (((pulled s).andThen (setFlags _ _)).andThen (pullTwice _)).andThen (setPC _ _)

/-- An interrupt entry stores to the three stack cells it pushes to (R271). -/
theorem entered {s : State} (hw : wellFormedMap s.cfg.map) (vec : Word) (b : Bool) :
    StoresOnly [s.cfg.stackAddr s.sp, s.cfg.stackAddr (s.sp - 1), s.cfg.stackAddr (s.sp - 2)] s
      (s.entered vec b) := by
  have hcell : (s.pushedWord s.pc).cfg.stackAddr (s.pushedWord s.pc).sp =
      s.cfg.stackAddr (s.sp - 2) := by
    simp [State.pushedWord, BitVec.sub_eq_add_neg, BitVec.add_assoc]
  have hw' : wellFormedMap (s.pushedWord s.pc).cfg.map := by simpa [State.pushedWord] using hw
  have hpush := pushed hw' (s.flags.toByte b)
  rw [hcell] at hpush
  refine trans (by simp) (by simp) (pushedWord hw s.pc) (B := [s.cfg.stackAddr (s.sp - 2)]) ?_
  exact ((hpush.andThen (setFlags _ _)).andThen (afterPair _ _ _)).andThen (setPC _ _)

theorem branch (c : Bool) (off : Byte) (s : State) : StoresOnly [] s (branch c off s) := by
  cases c
  · exact refl s
  · exact setPC s _

/-! ### Every instruction -/

/-- An instruction that ends in a next state has stored to the addresses listed for it and nowhere
else. -/
theorem exec {i : Instr} {s t : State} (hw : wellFormedMap s.cfg.map) (h : exec i s = .next t) :
    StoresOnly (storesTo i s) s t := by
  cases i
  case lda m | ldx m | ldy m | lax m | adc m | sbc m | and m | ora m | eor m | cmp m | cpx m | cpy m
      | bit m =>
    cases next_of_loadOperand h
    exact (afterLoad m s).andThen (of_eq rfl rfl rfl rfl rfl)
  case sta m | stx m | sty m | sax m =>
    obtain ⟨-, rfl⟩ := storeOperand_eq_ok (finish_eq_next.mp h)
    exact storedThrough (by simpa using hw) (afterResolve m s) _
  case inc m | dec m | asl m | lsr m | rol m | ror m =>
    obtain ⟨-, rfl⟩ := modifyOperand_eq_ok (finish_eq_next.mp h)
    exact (storedThrough (by simpa using hw) (afterLoad m s) _).andThen (setFlags _ _)
  case jmp m =>
    obtain ⟨⟨r, u⟩, hr, h⟩ := bind_eq_ok (finish_eq_next.mp h)
    obtain ⟨-, rfl, rfl⟩ := resolve_eq_ok hr
    revert h
    cases operandRef m s <;> intro h <;> cases h
    exact (afterResolve m s).andThen (setPC _ _)
  case jsr target =>
    obtain ⟨u, hu, h⟩ := bind_eq_ok (finish_eq_next.mp h)
    obtain ⟨-, rfl⟩ := pushWord_eq_ok hu
    cases h
    exact (pushedWord hw _).andThen (setPC _ _)
  case rts =>
    obtain ⟨⟨w, u⟩, hu, h⟩ := bind_eq_ok (finish_eq_next.mp h)
    obtain ⟨-, rfl, rfl⟩ := pullWord_eq_ok hu
    cases h
    exact (pullTwice s).andThen (setPC _ _)
  case bcc off | bcs off | beq off | bne off | bmi off | bpl off | bvc off | bvs off =>
    cases h
    exact branch _ off s
  case pha | php =>
    obtain ⟨-, rfl⟩ := push_eq_ok (finish_eq_next.mp h)
    exact pushed hw _
  case pla | plp =>
    cases next_of_pull h
    exact (pulled s).andThen (of_eq rfl rfl rfl rfl rfl)
  case brk =>
    obtain ⟨-, -, rfl⟩ := enter_eq_ok (finish_eq_next.mp h)
    exact trans (List.nil_subset _) (List.Subset.refl _) (setFlags s _)
      (entered (s := s.setFlags { s.flags with b := true }) hw vecIrq true)
  case rti =>
    obtain ⟨-, rfl⟩ := leave_eq_ok (finish_eq_next.mp h)
    exact left s
  case nop | unmapped op =>
    cases h
    exact refl s
  case tax | tay | txa | tya | tsx | txs | inx | iny | dex | dey | axs imm | clc | sec | cli | sei | cld
      | sed | clv =>
    cases h
    exact of_eq rfl rfl rfl rfl rfl

end StoresOnly

/-- Settles O56: the frame of every instruction, part by part. -/
theorem memoryAndDeviceFrame : Obligations.MemoryAndDeviceFrame := by
  intro i s t hw h
  obtain ⟨bytes, register, status, scanline, cycle, toggle, cfg, driver, started⟩ :=
    StoresOnly.exec hw h
  exact ⟨bytes, register, status, scanline, cycle, toggle, cfg, driver, started⟩

end Sys2Proof.Machine
end

section
/-! PROOFS. The decoder and the encoder are inverse to each other (30_encoding.md R90 to R97). An
instruction is its opcode byte and its operand bytes: every fact here is one about the row of the
decode table that byte 0 selects, filled in with operand bytes (`Instr.withOperands`). -/

namespace Sys2Proof

/-! ### Filling in operand bytes -/

@[simp] theorem Mode.withOperands_withOperands (a b c d : Byte) (m : Mode) :
    (m.withOperands a b).withOperands c d = m.withOperands c d := by cases m <;> rfl

@[simp] theorem Instr.withOperands_withOperands (a b c d : Byte) (i : Instr) :
    (i.withOperands a b).withOperands c d = i.withOperands c d := by
  cases i <;> simp [Instr.withOperands]

/-- The mode filled in is the mode of the instruction filled in. -/
theorem Instr.withOperands_mode (b1 b2 : Byte) (i : Instr) :
    (i.withOperands b1 b2).mode = i.mode.map (·.withOperands b1 b2) := by cases i <;> rfl

/-- Operand bytes do not change byte 0. -/
@[simp] theorem Instr.withOperands_opcode (b1 b2 : Byte) (i : Instr) :
    (i.withOperands b1 b2).opcode = i.opcode := by
  cases i <;> simp [Instr.withOperands, Instr.opcode, Mode.opcodeIn]

/-! ### Lengths (R91, R92) -/

theorem Instr.length_of_mode {i : Instr} {m : Mode} (h : i.mode = some m) :
    i.length = m.kind.byteSize := by simp [Instr.length, h]

theorem Instr.length_of_no_mode {i : Instr} (h : i.mode = none) : i.length = 1 := by
  simp [Instr.length, h]

theorem Instr.length_bounds (i : Instr) : 1 ≤ i.length ∧ i.length ≤ 3 := by
  cases h : i.mode with
  | none => simp [Instr.length_of_no_mode h]
  | some m => rw [Instr.length_of_mode h]; exact m.kind.byteSize_bounds

/-! ### The decode table, byte by byte (R95, R97, R98) -/

/-- A row of the table selects its instruction by byte 0 alone. -/
theorem decodeMapped_eq_map (op b1 b2 : Byte) :
    decodeMapped op b1 b2 = (decodeMapped op 0 0).map (·.withOperands b1 b2) := by
  refine forall_byte (P := fun op => decodeMapped op b1 b2 =
    (decodeMapped op 0 0).map (·.withOperands b1 b2)) (fun n hn => ?_) op
  interval_cases n <;> rfl

/-- By any decode table an instruction is selected by byte 0 and filled in with the operand bytes
(R90). -/
theorem decodeOpcode_eq_withOperands (ch : TableChanges) (op b1 b2 : Byte) :
    decodeOpcode ch op b1 b2 = (decodeOpcode ch op 0 0).withOperands b1 b2 := by
  unfold decodeOpcode tableRow
  cases ch.lookup op with
  | none => simp only [decodeMapped_eq_map op b1 b2]; cases decodeMapped op 0 0 <;> rfl
  | some row =>
    cases row with
    | none => rfl
    | some i => exact (i.withOperands_withOperands 0 0 b1 b2).symm

/-- The table leaves the bytes listed in R95 unmapped. -/
theorem decodeMapped_of_mem_unmappedBytes {op : Byte} (h : op ∈ unmappedBytes) (b1 b2 : Byte) :
    decodeMapped op b1 b2 = none := by
  have hall : unmappedBytes.all (fun op => (decodeMapped op 0 0).isNone) = true := rfl
  have hop : decodeMapped op 0 0 = none :=
    Option.isNone_iff_eq_none.mp (List.all_eq_true.mp hall op h)
  rw [decodeMapped_eq_map, hop, Option.map_none]

/-- What a byte decodes to has that byte as its opcode: each entry of the matrix of R98 is in the
table by mnemonic of R97, at the byte it stands at. -/
theorem opcode_decodeOpcode (op b1 b2 : Byte) : (decodeOpcode [] op b1 b2).opcode = some op := by
  rw [decodeOpcode_eq_withOperands, Instr.withOperands_opcode]
  refine forall_byte (P := fun op => (decodeOpcode [] op 0 0).opcode = some op) (fun n hn => ?_) op
  interval_cases n <;> rfl

/-- The opcode of an instruction decodes to it, filled in with the operand bytes: each entry of the
table by mnemonic of R97 stands in the matrix of R98 at its byte. -/
theorem decodeOpcode_of_opcode {i : Instr} {op : Byte} (h : i.opcode = some op) (b1 b2 : Byte) :
    decodeOpcode [] op b1 b2 = i.withOperands b1 b2 := by
  cases i
  case lda m | ldx m | ldy m | sta m | stx m | sty m | lax m | sax m | adc m | sbc m | and m
      | ora m | eor m | cmp m | cpx m | cpy m | bit m | inc m | dec m | asl m | lsr m | rol m | ror m
      | jmp m =>
    rcases m with _ | (_ | _ | _ | _) | _ | _ | _ | _ | _ | _ | _ | _ | _ | _ | _ <;>
      cases h <;> rfl
  case unmapped b =>
    obtain ⟨hb, rfl⟩ : b ∈ unmappedBytes ∧ b = op := by simpa [Instr.opcode] using h
    simp [decodeOpcode, decodeMapped_of_mem_unmappedBytes hb, Instr.withOperands]
  all_goals cases h; rfl

/-- The well-formed instructions are those with an opcode (R97). -/
theorem Instr.opcode_isSome (i : Instr) : i.opcode.isSome = i.wellFormed := by
  cases i
  case lda m | ldx m | ldy m | sta m | stx m | sty m | lax m | sax m | adc m | sbc m | and m
      | ora m | eor m | cmp m | cpx m | cpy m | bit m | inc m | dec m | asl m | lsr m | rol m | ror m
      | jmp m =>
    simp only [Instr.opcode, Mode.opcodeIn, Instr.wellFormed]
    cases m.kind <;> rfl
  case unmapped b => by_cases hb : b ∈ unmappedBytes <;> simp [Instr.opcode, Instr.wellFormed, hb]
  all_goals rfl

/-! ### Operand bytes (R91, R94) -/

theorem Mode.operandBytes_length (m : Mode) : m.operandBytes.length + 1 = m.kind.byteSize := by
  cases m with
  | register r => cases r <;> rfl
  | _ => rfl

/-- Filled in with its own operand bytes, whatever follows them, a mode is itself. -/
theorem Mode.withOperands_operandBytes (m : Mode) (rest : List Byte) :
    m.withOperands ((m.operandBytes ++ rest).getD 0 0) ((m.operandBytes ++ rest).getD 1 0) = m := by
  cases m <;> simp [Mode.withOperands, Mode.operandBytes]

/-- The operand bytes of a mode filled in are the bytes it was filled in with. -/
theorem Mode.operandBytes_withOperands (m : Mode) {rest : List Byte}
    (h : m.operandBytes.length ≤ rest.length) :
    (m.withOperands (rest.getD 0 0) (rest.getD 1 0)).operandBytes =
      rest.take m.operandBytes.length := by
  match rest with
  | [] => cases m <;> simp [Mode.withOperands, Mode.operandBytes] at h ⊢
  | [b1] => cases m <;> simp [Mode.withOperands, Mode.operandBytes] at h ⊢
  | b1 :: b2 :: rest => cases m <;> simp [Mode.withOperands, Mode.operandBytes]

/-- The bytes of an instruction after its opcode. -/
def Instr.operandBytes (i : Instr) : List Byte := (i.mode.map Mode.operandBytes).getD []

theorem encode_of_opcode {i : Instr} {op : Byte} (h : i.opcode = some op) :
    encode i = op :: i.operandBytes := by simp [encode, h, Instr.operandBytes]

theorem Instr.operandBytes_length (i : Instr) : i.operandBytes.length + 1 = i.length := by
  cases h : i.mode with
  | none => simp [Instr.operandBytes, h, Instr.length_of_no_mode h]
  | some m => simp [Instr.operandBytes, h, Instr.length_of_mode h, m.operandBytes_length]

/-- Filled in with its own operand bytes, whatever follows them, an instruction is itself. -/
theorem Instr.withOperands_operandBytes (i : Instr) (rest : List Byte) :
    i.withOperands ((i.operandBytes ++ rest).getD 0 0) ((i.operandBytes ++ rest).getD 1 0) = i := by
  cases i
  case jsr w => exact congrArg Instr.jsr (mkWord_hiByte_loByte w)
  case lda m | ldx m | ldy m | sta m | stx m | sty m | lax m | sax m | adc m | sbc m | and m
      | ora m | eor m | cmp m | cpx m | cpy m | bit m | inc m | dec m | asl m | lsr m | rol m | ror m
      | jmp m =>
    exact congrArg _ (m.withOperands_operandBytes rest)
  all_goals rfl

/-- The operand bytes of an instruction filled in are the bytes it was filled in with. -/
theorem Instr.operandBytes_withOperands (i : Instr) {rest : List Byte}
    (h : i.length ≤ rest.length + 1) :
    (i.withOperands (rest.getD 0 0) (rest.getD 1 0)).operandBytes = rest.take (i.length - 1) := by
  cases hm : i.mode with
  | none => simp [Instr.operandBytes, Instr.withOperands_mode, hm, Instr.length_of_no_mode hm]
  | some m =>
    have hlen := Instr.length_of_mode hm
    have hbytes := m.operandBytes_length
    simp only [Instr.operandBytes, Instr.withOperands_mode, hm, Option.map_some, Option.getD_some]
    rw [m.operandBytes_withOperands (by omega)]
    congr 1
    omega

/-! ### The round trip -/

/-- Settles O2: the opcode selects the instruction's row, and its own operand bytes fill it in. -/
theorem decodeOfEncode : Obligations.DecodeOfEncode := by
  intro i rest hw
  obtain ⟨op, hop⟩ := Option.isSome_iff_exists.mp (i.opcode_isSome.trans hw)
  have hrow : decodeOpcode [] op ((i.operandBytes ++ rest).getD 0 0)
      ((i.operandBytes ++ rest).getD 1 0) = i := by
    rw [decodeOpcode_of_opcode hop, i.withOperands_operandBytes]
  have hlen : i.length ≤ (i.operandBytes ++ rest).length + 1 := by
    rw [List.length_append, ← i.operandBytes_length]; omega
  rw [encode_of_opcode hop, List.cons_append, decode_cons_of_le (by rwa [hrow]), hrow]

/-- Settles O3: what is decoded has byte 0 as its opcode, and was filled in with the bytes after
it. -/
theorem encodeOfDecode : Obligations.EncodeOfDecode := by
  intro bytes i h
  cases bytes with
  | nil => cases h
  | cons op rest =>
    obtain ⟨hi, hlen⟩ := decode_cons_eq_ok h
    have hop : i.opcode = some op := hi ▸ opcode_decodeOpcode op _ _
    have hfill : i = i.withOperands (rest.getD 0 0) (rest.getD 1 0) := by
      rw [← decodeOpcode_of_opcode hop, ← hi]
    have hbytes := i.operandBytes_withOperands hlen
    rw [← hfill] at hbytes
    refine ⟨by rw [← i.opcode_isSome, hop]; rfl, hlen, ?_⟩
    obtain ⟨hpos, -⟩ := i.length_bounds
    calc encode i = op :: i.operandBytes := encode_of_opcode hop
      _ = op :: rest.take (i.length - 1) := by rw [hbytes]
      _ = (op :: rest).take i.length := (List.take_cons hpos).symm

/-! ### The length follows from byte 0 (R92, R93) -/

/-- By any decode table the length is that of the row byte 0 selects. -/
theorem length_decodeOpcode (ch : TableChanges) (op b1 b2 : Byte) :
    (decodeOpcode ch op b1 b2).length = (decodeOpcode ch op 0 0).length := by
  rw [decodeOpcode_eq_withOperands, Instr.withOperands_length]

/-- The modes of one byte (R92). -/
theorem Mode.byteSize_eq_one_iff (m : Mode) :
    m.kind.byteSize = 1 ↔ m = .implicit ∨ ∃ r, m = .register r := by
  cases m with
  | register r => cases r <;> simp [Mode.kind, ModeKind.byteSize]
  | _ => simp [Mode.kind, ModeKind.byteSize]

/-- The modes of three bytes (R92). -/
theorem Mode.byteSize_eq_three_iff (m : Mode) :
    m.kind.byteSize = 3 ↔ ∃ w, m = .absolute w ∨ m = .absoluteX w ∨ m = .absoluteY w ∨
      m = .indirect w := by
  cases m with
  | register r => cases r <;> simp [Mode.kind, ModeKind.byteSize]
  | _ => simp [Mode.kind, ModeKind.byteSize]

theorem Instr.length_eq_one_iff (i : Instr) : i.length = 1 ↔
    i.mode = none ∨ i.mode = some .implicit ∨ ∃ r, i.mode = some (.register r) := by
  cases h : i.mode with
  | none => simp [Instr.length_of_no_mode h]
  | some m => simp [Instr.length_of_mode h, m.byteSize_eq_one_iff]

theorem Instr.length_eq_three_iff (i : Instr) : i.length = 3 ↔
    ∃ w, i.mode = some (.absolute w) ∨ i.mode = some (.absoluteX w) ∨
      i.mode = some (.absoluteY w) ∨ i.mode = some (.indirect w) := by
  cases h : i.mode with
  | none => simp [Instr.length_of_no_mode h]
  | some m => simp [Instr.length_of_mode h, m.byteSize_eq_three_iff]

/-- Settles O4: both instructions are the row of byte 0, and the rest holds of every instruction. -/
theorem lengthFixedByFirstByte : Obligations.LengthFixedByFirstByte := by
  intro table op rest rest' i i' h h'
  obtain ⟨hi, -⟩ := decodeWith_cons_eq_ok h
  obtain ⟨hi', -⟩ := decodeWith_cons_eq_ok h'
  obtain ⟨hmin, hmax⟩ := i.length_bounds
  have hlen : i.length = i'.length := by
    rw [hi, hi']
    exact (length_decodeOpcode ..).trans (length_decodeOpcode ..).symm
  exact ⟨hlen, hmin, hmax, i.length_eq_one_iff, i.length_eq_three_iff⟩

/-! ### Unmapped bytes (R95) -/

/-- An unmapped byte is encoded as itself. -/
theorem encode_unmapped {op : Byte} (h : op ∈ unmappedBytes) : encode (.unmapped op) = [op] := by
  simp [encode, Instr.opcode, Instr.mode, h]

/-- By the spec's table exactly the listed bytes are unmapped: one half of the round trip gives each
direction. -/
theorem decode_eq_unmapped_iff (op : Byte) (rest : List Byte) :
    decode (op :: rest) = .ok (.unmapped op) ↔ op ∈ unmappedBytes := by
  have hwf : (Instr.unmapped op).wellFormed = true ↔ op ∈ unmappedBytes := decide_eq_true_iff
  refine ⟨fun h => hwf.mp (encodeOfDecode _ _ h).1, fun h => ?_⟩
  have hround := decodeOfEncode _ rest (hwf.mpr h)
  rwa [encode_unmapped h] at hround

/-- A byte the changes of the table do not list is as in R97. -/
theorem tableRow_of_not_listed {ch : TableChanges} {op : Byte} (h : ch.lookup op = none)
    (b1 b2 : Byte) : tableRow ch op b1 b2 = decodeMapped op b1 b2 := by rw [tableRow, h]

/-- A byte the changes of the table list is as they say. -/
theorem tableRow_of_listed {ch : TableChanges} {op : Byte} {row : Option Instr}
    (h : ch.lookup op = some row) (b1 b2 : Byte) :
    tableRow ch op b1 b2 = row.map (·.withOperands b1 b2) := by rw [tableRow, h]

/-- A slice that begins with a byte unmapped by the machine's table decodes to that byte. -/
theorem decodeWith_of_tableRow_none {ch : TableChanges} {op : Byte} {rest : List Byte}
    (h : tableRow ch op (rest.getD 0 0) (rest.getD 1 0) = none) :
    decodeWith ch (op :: rest) = .ok (.unmapped op) := by
  have hop : decodeOpcode ch op (rest.getD 0 0) (rest.getD 1 0) = .unmapped op := by
    rw [decodeOpcode, h, Option.getD_none]
  rw [decodeWith_cons_of_le (by rw [hop]; exact Nat.le_add_left 1 _), hop]

/-- A slice shorter than the instruction its first byte selects does not decode (R96). -/
theorem decodeWith_cons_of_lt {ch : TableChanges} {op : Byte} {rest : List Byte}
    (h : rest.length + 1 < (decodeOpcode ch op (rest.getD 0 0) (rest.getD 1 0)).length) :
    ∃ e, decodeWith ch (op :: rest) = .error e := ⟨_, if_pos h⟩

/-! ### Sample words (R91, R94, R98) -/

/-- Settles O1: the words, decoded. -/
theorem sampleWordsDecode : Obligations.SampleWordsDecode :=
  ⟨rfl, rfl, rfl, rfl, rfl, rfl, rfl, rfl, rfl, rfl, rfl⟩

end Sys2Proof
end

section
/-! PROOFS. The CPU step: fetching, and running what was fetched (30_encoding.md R90, R95, R96;
46_system.md R243); a word placed for the first fetch after reset (log 5). -/

namespace Sys2Proof.Machine

/-! ### Fetching -/

section
variable {s : State} {bytes : List Byte}

theorem fetch_of_unmounted (h : lookup s.cfg.map s.pc = none) :
    fetch s = .error (.fault (.outOfRangeAccess s.pc)) := by
  have hslice : busSlice s.pc 3 s = .error (.fault (.outOfRangeAccess s.pc)) := by
    rw [busSlice, h]
  rw [fetch, hslice, error_bind]

theorem fetch_of_decode_error {e : DecodeError} (hs : busSlice s.pc 3 s = .ok bytes)
    (h : decodeWith s.cfg.tableChanges bytes = .error e) :
    fetch s = .error (.fault (.addressSpaceExhaustion s.pc)) := by
  rw [fetch, hs, ok_bind, h]

theorem fetch_of_decode_ok {i : Instr} (hs : busSlice s.pc 3 s = .ok bytes)
    (h : decodeWith s.cfg.tableChanges bytes = .ok i) : fetch s = .ok i := by
  rw [fetch, hs, ok_bind, h]

/-! ### A step while no action of the driver waits -/

variable (hdriver : s.driver = []) (hstarted : s.started = true)
include hdriver hstarted

theorem step_of_fetch_fault {f : Fault} (h : fetch s = .error (.fault f)) : step s = .fault f := by
  simp [step, hdriver, cpuStep, hstarted, h, finish]

/-- A step runs the instruction fetched at the state whose pc is past it (R90). -/
theorem step_of_fetch_ok {i : Instr} (h : fetch s = .ok i) :
    step s = exec i (s.advance i.length) := by
  simp [step, hdriver, cpuStep, hstarted, h]

end

/-- Settles O6: the step follows the fetch, and the fetch follows the slice and its decoding. -/
theorem stepRunsDecodedInstruction : Obligations.StepRunsDecodedInstruction := by
  refine ⟨fun table op rest => ⟨decodeWith_cons_of_le, decodeWith_cons_of_lt⟩,
    fun s hd hs => ⟨fun hn => ?unmounted, fun hslice => ?empty, fun bytes hslice =>
      ⟨fun e he => ?short, fun i hi => ?runs⟩⟩⟩
  case unmounted => exact step_of_fetch_fault hd hs (fetch_of_unmounted hn)
  case empty => exact step_of_fetch_fault hd hs (fetch_of_decode_error hslice rfl)
  case short => exact step_of_fetch_fault hd hs (fetch_of_decode_error hslice he)
  case runs => exact step_of_fetch_ok hd hs (fetch_of_decode_ok hslice hi)

/-- Settles O5: the round trip says which bytes the spec's table leaves unmapped, and running an
unmapped byte leaves the advanced state as it is. -/
theorem unmappedByteSkipsOne : Obligations.UnmappedByteSkipsOne := by
  refine ⟨rfl, by decide, rfl, decode_eq_unmapped_iff, fun s op rest hd hs hslice htable => ?_⟩
  have hrow (b1 b2 : Byte) : tableRow s.cfg.tableChanges op b1 b2 = none := by
    cases hl : s.cfg.tableChanges.lookup op with
    | none =>
      rw [hl] at htable
      rw [tableRow_of_not_listed hl, decodeMapped_of_mem_unmappedBytes htable]
    | some row =>
      rw [hl] at htable
      rw [tableRow_of_listed hl, show row = none from htable, Option.map_none]
  exact step_of_fetch_ok hd hs (fetch_of_decode_ok hslice (decodeWith_of_tableRow_none (hrow _ _)))

/-! ### A program placed where the next fetch slices (log 5) -/

section
variable {m : Mount} {n : Nat}

/-- Loading a byte writes it at its offset and loads the others after it. -/
theorem Mount.load_cons (hd : m.dev = .ram n ∨ m.dev = .rom n) {off : Nat} (h : off < n)
    (mem : Memory) (v : Byte) (rest : List Byte) :
    m.load mem off (v :: rest) = m.load (Memory.set mem (m.key off) v) (off + 1) rest := by
  rcases hd with hd | hd <;> simp [Mount.load, hd, h]

/-- Loading leaves the bytes before its offset alone. -/
theorem Mount.get_load_of_lt (hd : m.dev = .ram n ∨ m.dev = .rom n) {bytes : List Byte} {off j : Nat}
    (hn : off + bytes.length ≤ n) (hwindow : off + bytes.length ≤ m.stop - m.start) (hj : j < off)
    (mem : Memory) : Memory.get (m.load mem off bytes) (m.key j) = Memory.get mem (m.key j) := by
  induction bytes generalizing off mem with
  | nil => rfl
  | cons v rest ih =>
    rw [List.length_cons] at hn hwindow
    have hkey : m.key j ≠ m.key off :=
      mt (Mount.key_inj_of_lt (by omega) (by omega)).mp (by omega)
    rw [Mount.load_cons hd (by omega), ih (by omega) (by omega) (by omega),
      Memory.get_set_ne _ _ hkey]

/-- The bytes loaded are read back from the offset on. -/
theorem Mount.get_load (hd : m.dev = .ram n ∨ m.dev = .rom n) {bytes : List Byte} {off : Nat}
    (hn : off + bytes.length ≤ n) (hwindow : off + bytes.length ≤ m.stop - m.start) {mem : Memory}
    (hw : Memory.wf mem) {j : Nat} (hj : j < bytes.length) :
    Memory.get (m.load mem off bytes) (m.key (off + j)) = bytes[j] := by
  induction bytes generalizing off mem j with
  | nil => cases hj
  | cons v rest ih =>
    rw [List.length_cons] at hn hwindow hj
    rw [Mount.load_cons hd (by omega)]
    cases j with
    | zero =>
      show Memory.get _ (m.key off) = v
      rw [Mount.get_load_of_lt hd (by omega) (by omega) (by omega), Memory.get_set_same hw]
    | succ j =>
      have hrest := ih (off := off + 1) (by omega) (by omega) (Memory.set_wf hw (m.key off) v)
        (j := j) (by omega)
      rwa [Nat.add_assoc, Nat.add_comm 1 j] at hrest

/-- Bytes placed at the pc are what is sliced there, if they fit the backing and the window. -/
theorem busSlice_placeAtPC {s : State} (hw : Memory.wf s.mem) (hm : lookup s.cfg.map s.pc = some m)
    (hd : m.dev = .ram n ∨ m.dev = .rom n) {bytes : List Byte}
    (hn : (s.pc.toNat - m.start) % n + bytes.length ≤ n)
    (hwindow : (s.pc.toNat - m.start) % n + bytes.length ≤ m.stop - m.start) :
    busSlice s.pc bytes.length (s.placeAtPC bytes) = .ok bytes := by
  have hplace : s.placeAtPC bytes =
      s.setMem (m.load s.mem ((s.pc.toNat - m.start) % n) bytes) := by
    rcases hd with hd | hd <;> simp [State.placeAtPC, hm, hd]
  have hm' : lookup (s.placeAtPC bytes).cfg.map s.pc = some m := by rwa [hplace]
  rw [busSlice_of_lookup_memory hm' hd, hplace, Nat.min_eq_left (by omega), State.setMem_mem]
  refine congrArg Except.ok (List.ext_getElem (by simp) fun j hj hj' => ?_)
  rw [List.getElem_map, List.getElem_range, Mount.get_load hd hn hwindow hw hj']

end

/-- After reset the next fetch slices the bytes of the word placed there. -/
theorem busSlice_reset_withFetchWord (nbits w : Nat) :
    busSlice 0 3 (State.reset.withFetchWord nbits w) = .ok (tableWordBytes nbits w) :=
  busSlice_placeAtPC (s := State.reset) (m := ⟨0x0000, 0x2000, .ram 2048⟩) (n := 2048)
    (bytes := tableWordBytes nbits w) (by decide) rfl (.inl rfl)
    (show 3 ≤ 2048 by decide) (show 3 ≤ 0x2000 by decide)

/-- Settles O7: the first fetch slices the word's three bytes and decodes them by R97's table. -/
theorem placedWordRunsFirst : Obligations.PlacedWordRunsFirst := by
  intro nbits w i hi
  have hdecode : decode (tableWordBytes nbits w) = .ok i := by
    unfold decodeTableWord at hi
    cases hr : decode (tableWordBytes nbits w) with
    | error e => rw [hr] at hi; cases hi
    | ok j => rw [hr] at hi; rw [Option.some.inj hi]
  exact step_of_fetch_ok rfl rfl (fetch_of_decode_ok (busSlice_reset_withFetchWord nbits w) hdecode)

end Sys2Proof.Machine
end

section
/-! PROOFS. Addressing: what each mode resolves to, and loading and storing through the reference it
gives (40_addressing.md R120 to R136). -/

namespace Sys2Proof

/-- A widened signed byte added to a word is integer addition modulo 65536 (00_scope.md R9). -/
theorem add_sext16_toNat (w : Word) (v : Byte) :
    ((w + sext16 v).toNat : Int) = ((w.toNat : Int) + v.toInt) % 65536 := by
  have hw : w + sext16 v = BitVec.ofInt 16 (w.toNat + v.toInt) := by
    rw [BitVec.ofInt_add, BitVec.ofInt_natCast, BitVec.ofNat_toNat, BitVec.setWidth_eq, sext16]
    rfl
  rw [hw, BitVec.toNat_ofInt, Int.toNat_of_nonneg (Int.emod_nonneg _ (by decide))]
  rfl

namespace Machine

/-! ### Addresses as numbers -/

@[simp] theorem zeroPageAddr_toNat (zp : Byte) : (zeroPageAddr zp).toNat = zp.toNat :=
  zext16_toNat zp

/-- The high byte of an indirect pointer stands in the next cell, of the same page if the defect is
reproduced (R131). -/
theorem indirectHigh_toNat (wrap : Bool) (ptr : Word) : (indirectHigh wrap ptr).toNat =
    if wrap then ptr.toNat / 256 * 256 + (ptr.toNat + 1) % 256 else (ptr.toNat + 1) % 65536 := by
  cases wrap
  · exact BitVec.toNat_add ptr 1
  · simp [indirectHigh]

/-! ### Resolving -/

/-- A mode that reads no pointer resolves at once and changes nothing (R121 to R130). -/
theorem resolve_of_no_pointer {m : Mode} {s : State} (h : pointerCells m s = none) :
    resolve m s = .ok (refFor m s 0, s) := by
  simp only [resolve, h]

/-- A mode that goes through a pointer resolves as the reading of its pointer's cells ends (R131,
R132, R133). -/
theorem resolve_of_readPair {m : Mode} {s t : State} {lo hi w : Word}
    (hc : pointerCells m s = some (lo, hi)) (hr : readPair lo hi s = .ok (w, t)) :
    resolve m s = .ok (refFor m s w, t) := by
  obtain ⟨-, -, rfl⟩ := readPair_eq_ok hr
  simp only [resolve, hc, hr, ok_bind]
  rw [refFor_congr (s := s) m w (by simp) (by simp) (by simp)]

/-- Settles O27: a mode without a pointer resolves to its reference, whose address is the sum the
rule names. -/
theorem directModesResolve : Obligations.DirectModesResolve := by
  intro s
  refine ⟨rfl, fun r => rfl, fun v => rfl, fun zp => ⟨_, resolve_of_no_pointer rfl, ?zeroPage⟩,
    fun zp => ⟨_, resolve_of_no_pointer rfl, ?zeroPageX⟩,
    fun zp => ⟨_, resolve_of_no_pointer rfl, ?zeroPageY⟩, fun w => rfl,
    fun w => ⟨_, resolve_of_no_pointer rfl, ?absoluteX⟩,
    fun w => ⟨_, resolve_of_no_pointer rfl, ?absoluteY⟩,
    fun off => ⟨_, resolve_of_no_pointer rfl, add_sext16_toNat s.pc off⟩⟩
  case zeroPage => exact zeroPageAddr_toNat zp
  case zeroPageX | zeroPageY => rw [zeroPageAddr_toNat, BitVec.toNat_add]
  case absoluteX | absoluteY => rw [BitVec.toNat_add, zext16_toNat]

/-- Settles O28: the pointer's two cells are those of `pointerCells`, as numbers. -/
theorem pointerModesResolve : Obligations.PointerModesResolve := by
  refine ⟨fun s lo hi h => readPair_ok h, fun s ptr => ?indirect, fun s zp => ?indexedIndirect,
    fun s zp => ?indirectIndexed⟩
  case indirect =>
    exact ⟨_, indirectHigh_toNat s.cfg.jmpIndirectPageWrap ptr,
      fun w t hr => resolve_of_readPair rfl hr⟩
  case indexedIndirect =>
    exact ⟨zeroPageAddr (zp + s.x), zeroPageAddr (zp + s.x + 1), by simp, by simp,
      fun w t hr => resolve_of_readPair rfl hr⟩
  case indirectIndexed =>
    refine ⟨zeroPageAddr zp, zeroPageAddr (zp + 1), by simp, by simp, fun w t hr => ?_⟩
    have hsum : w + zext16 s.y = BitVec.ofNat 16 (w.toNat + s.y.toNat) :=
      BitVec.eq_of_toNat_eq (by simp)
    rw [← hsum]
    exact resolve_of_readPair rfl hr

/-! ### The conditions under which nothing faults (R136) -/

/-- A mode with a pointer resolves iff both cells of the pointer are mounted. -/
theorem resolves_iff_of_pointer {m : Mode} {s : State} {lo hi : Word}
    (h : pointerCells m s = some (lo, hi)) :
    resolves m s = true ↔ s.mounted lo = true ∧ s.mounted hi = true := by
  simp [resolves, h, State.pairMounted]

/-- A mode without a pointer always resolves. -/
theorem resolves_of_no_pointer {m : Mode} {s : State} (h : pointerCells m s = none) :
    resolves m s = true := by
  simp only [resolves, h]

/-- A bus write faults on nothing iff the address is mounted and not the status port (R56, R291). -/
theorem State.writable_iff (s : State) (a : Word) :
    s.writable a = true ↔ s.mounted a = true ∧ s.isStatus a = false := by
  simp [State.writable, State.isStatus]

section
variable {m : Mode} {s : State} {ea : Word}

theorem loadable_iff_of_mem (h : operandRef m s = .mem ea) :
    loadable m s = true ↔ resolves m s = true ∧ s.mounted ea = true := by
  simp [loadable, h]

theorem storable_iff_of_mem (h : operandRef m s = .mem ea) : storable m s = true ↔
    resolves m s = true ∧ s.mounted ea = true ∧ s.isStatus ea = false := by
  simp [storable, h, State.writable_iff]

theorem resolves_of_loadable (h : loadable m s = true) : resolves m s = true := by
  simp only [loadable, Bool.and_eq_true] at h
  exact h.1

end

/-! ### Loading and storing through the reference (R134, R135) -/

/-- A loadable operand is loaded through the reference its mode resolved to. -/
theorem load_operandRef {m : Mode} {s : State} (h : loadable m s = true) :
    load (operandRef m s) (afterResolve m s) = .ok (operandValue m s, afterLoad m s) := by
  have hload := loadOperand_ok h
  rwa [loadOperand, resolve_ok (resolves_of_loadable h), ok_bind] at hload

/-- A storable operand is stored to through the reference its mode resolved to. -/
theorem store_operandRef {m : Mode} {s : State} (h : storable m s = true) (v : Byte) :
    store (operandRef m s) v (afterResolve m s) =
      .ok (storedThrough m s v (afterResolve m s)) := by
  have hstore := storeOperand_ok h v
  rwa [storeOperand, resolve_ok (resolves_of_loadable (loadable_of_storable h)), ok_bind] at hstore

/-- Settles O30: one resolution, then one load or one store through its reference. -/
theorem operandAccess : Obligations.OperandAccess := by
  intro m s
  refine ⟨resolve_ok, fun h => ⟨_, resolve_ok (resolves_of_loadable h), load_operandRef h⟩,
    fun v h => ⟨_, resolve_ok (resolves_of_loadable (loadable_of_storable h)), store_operandRef h v⟩,
    fun ea h => ⟨loadable_iff_of_mem h, storable_iff_of_mem h⟩,
    fun lo hi h => resolves_iff_of_pointer h, resolves_of_no_pointer⟩

/-- Settles O29: each form of reference is a case of `load` and of `store`. -/
theorem loadAndStoreThroughReference : Obligations.LoadAndStoreThroughReference := by
  intro s v
  have himm : load (.imm v) s = .ok (v, s) := rfl
  have hmem : ∀ ea, load (.mem ea) s = busRead ea s ∧ store (.mem ea) v s = busWrite ea v s :=
    fun ea => ⟨rfl, rfl⟩
  have hrefused : ∀ i, store (.imm i) v s = .error (.refusal .noSuchOperandForm) := fun i => rfl
  exact ⟨himm, rfl, rfl, rfl, rfl, rfl, rfl, rfl, rfl, hmem, rfl, rfl, hrefused⟩

end Machine

end Sys2Proof
end

section
/-! PROOFS. Loads, stores and register transfers (41_load_store_transfer.md R140 to R151;
47_unofficial.md R250, R251): the next state of each, and the fault of an operand that cannot be
accessed. -/

namespace Sys2Proof.Machine

/-! ### SetZN as numbers (R29) -/

theorem Flags.setZN_eq (f : Flags) (v : Byte) :
    f.setZN v = { f with z := decide (v.toNat = 0), n := decide (128 ≤ v.toNat) } := by
  rw [Flags.setZN, byte_beq_zero, byte_getLsbD_seven]

/-- An instruction that ends with SetZN, the flags until then still those of `s`. -/
theorem next_setZN {s : State} (t : State) (h : t.flags = s.flags) (v : Byte) :
    (.next (t.setZN v) : Host.Outcome State Fault Refusal) = .next (t.setFlags
      { s.flags with z := decide (v.toNat = 0), n := decide (128 ≤ v.toNat) }) := by
  rw [State.setZN, h, Flags.setZN_eq]

/-! ### Instructions that load their operand -/

section
variable {m : Mode} {s : State}

/-- An instruction that loads a loadable operand goes on from its value (R134, R135). -/
theorem finish_loadOperand (h : loadable m s = true) (f : Byte × State → Result State) :
    finish (loadOperand m s >>= f) = finish (f (operandValue m s, afterLoad m s)) := by
  rw [loadOperand_ok h, ok_bind]

/-- An instruction that loads its operand and then reaches `t`, no flag written, ends with SetZN
there. -/
theorem finish_loadOperand_setZN (h : loadable m s = true) {f : Byte × State → Result State}
    (t : State) {r : Byte} (hf : f (operandValue m s, afterLoad m s) = .ok (t.setZN r))
    (ht : t.flags = (afterLoad m s).flags) :
    finish (loadOperand m s >>= f) = .next (t.setFlags
      { s.flags with z := decide (r.toNat = 0), n := decide (128 ≤ r.toNat) }) := by
  rw [finish_loadOperand h, hf, finish_ok]
  exact next_setZN t (ht.trans (afterLoad_flags m s)) r

/-- An instruction that loads an operand that is not loadable faults, whatever it would do with the
value (R136). -/
theorem faultsAt_loadOperand (hm : m ≠ .implicit) (h : loadable m s = false)
    (f : Byte × State → Result State) :
    FaultsAt s (loadAccesses m s) (finish (loadOperand m s >>= f)) := by
  obtain ⟨e, he, hl⟩ := loadOperand_fault hm h
  exact ⟨e, he, by rw [hl, error_bind, finish]⟩

end

/-- A mnemonic whose instructions fault at a load that cannot be made has the fault clause of a load,
if none of its rows is implicit (R97). -/
theorem faultsUnlessLoadable_of_faultsAt {i : Mode → Instr}
    (himp : (i .implicit).wellFormed = false)
    (hfault : ∀ m s, m ≠ .implicit → loadable m s = false →
      FaultsAt s (loadAccesses m s) (exec (i m) s)) : FaultsUnlessLoadable i := by
  intro m s hw h
  refine hfault m s ?_ h
  rintro rfl
  exact Bool.false_ne_true (himp.symm.trans hw)

/-- Settles O31: each load is a load of the operand, a register written and SetZN. -/
theorem loadInstructions : Obligations.LoadInstructions := by
  refine ⟨rfl, rfl, rfl, rfl, fun m s h => ?next, ?_, ?_, ?_, ?_⟩
  case next =>
    let v := operandValue m s
    let u := afterLoad m s
    exact ⟨finish_loadOperand_setZN h (u.setA v) rfl rfl,
      finish_loadOperand_setZN h (u.setX v) rfl rfl,
      finish_loadOperand_setZN h (u.setY v) rfl rfl,
      finish_loadOperand_setZN h ((u.setA v).setX v) rfl rfl⟩
  all_goals
    exact faultsUnlessLoadable_of_faultsAt rfl fun m s hm h => faultsAt_loadOperand hm h _

/-! ### Instructions that store to their operand -/

section
variable {m : Mode} {s : State} {ea : Word}

/-- An instruction that stores to a storable memory operand writes its cell, and reads the pointer
alone (R134, R135). -/
theorem finish_storeOperand_of_mem (hea : operandRef m s = .mem ea) (h : storable m s = true)
    (v : Byte) : finish (storeOperand m v s) = .next ((afterResolve m s).afterWrite ea v) := by
  rw [storeOperand_ok h, finish_ok, storedThrough, hea]

/-- An instruction that stores to a memory operand that is not storable faults (R136, R291). -/
theorem faultsAt_storeOperand (hm : ∃ ea, operandRef m s = .mem ea) (h : storable m s = false)
    (v : Byte) : FaultsAt s (storeAccesses m s) (finish (storeOperand m v s)) := by
  obtain ⟨e, he, hs⟩ := storeOperand_fault hm h v
  exact ⟨e, he, by rw [hs, finish]⟩

/-- An operand that cannot be stored to is memory, if it is neither implicit nor an immediate: a
register always takes the byte (R134). -/
theorem operandRef_eq_mem_of_not_storable (himp : m ≠ .implicit) (himm : ∀ v, m ≠ .immediate v)
    (h : storable m s = false) : ∃ ea, operandRef m s = .mem ea := by
  cases m with
  | implicit => exact absurd rfl himp
  | immediate v => exact absurd rfl (himm v)
  | register r => cases h
  | _ => exact ⟨_, rfl⟩

end

/-- A mnemonic whose instructions fault at a store to memory that cannot be made has the fault clause
of a store, if none of its rows is implicit or immediate (R97). -/
theorem faultsUnlessStorable_of_faultsAt {i : Mode → Instr}
    (himp : (i .implicit).wellFormed = false) (himm : ∀ v, (i (.immediate v)).wellFormed = false)
    (hfault : ∀ m s, (∃ ea, operandRef m s = .mem ea) → storable m s = false →
      FaultsAt s (storeAccesses m s) (exec (i m) s)) : FaultsUnlessStorable i := by
  intro m s hw h
  refine hfault m s (operandRef_eq_mem_of_not_storable ?_ (fun v => ?_) h) h
  · rintro rfl
    exact Bool.false_ne_true (himp.symm.trans hw)
  · rintro rfl
    exact Bool.false_ne_true ((himm v).symm.trans hw)

/-- Settles O32: each store is one store of its byte through the operand. -/
theorem storeInstructions : Obligations.StoreInstructions := by
  refine ⟨rfl, rfl, rfl, rfl, fun m s ea hea h => ?next, ?_, ?_, ?_, ?_⟩
  case next =>
    have hstore := finish_storeOperand_of_mem hea h
    exact ⟨hstore s.a, hstore s.x, hstore s.y, hstore (s.a &&& s.x)⟩
  all_goals
    exact faultsUnlessStorable_of_faultsAt rfl (fun _ => rfl)
      fun m s hm h => faultsAt_storeOperand hm h _

/-! ### Register transfers -/

/-- Settles O33: a transfer writes a register, and all but TXS then do SetZN. -/
theorem transferInstructions : Obligations.TransferInstructions := by
  refine ⟨rfl, rfl, rfl, rfl, rfl, rfl, fun s => ?_⟩
  exact ⟨next_setZN (s.setX s.a) rfl s.a, next_setZN (s.setY s.a) rfl s.a,
    next_setZN (s.setA s.x) rfl s.x, next_setZN (s.setA s.y) rfl s.y,
    next_setZN (s.setX s.sp) rfl s.sp, rfl⟩

end Sys2Proof.Machine
end

section
/-! PROOFS. Arithmetic, logic, comparison, BIT and the increments (42_arithmetic_logic.md R160 to
R178; 47_unofficial.md R252): the next state of each as numbers, and the fault of an operand that
cannot be accessed. -/

namespace Sys2Proof.Machine

/-! ### Bytes as numbers -/

/-- A byte increment is addition of 1 modulo 256 (R172). -/
theorem byte_add_one (v : Byte) : v + 1 = BitVec.ofNat 8 (v.toNat + 1) :=
  BitVec.eq_of_toNat_eq (by simp)

/-- A byte decrement is addition of 255 modulo 256 (R173). -/
theorem byte_sub_one (v : Byte) : v - 1 = BitVec.ofNat 8 (v.toNat + 255) :=
  BitVec.eq_of_toNat_eq (by rw [BitVec.toNat_sub, BitVec.toNat_ofNat, Nat.add_comm]; rfl)

/-- The difference of two bytes is their difference modulo 256 (R168). -/
theorem byte_sub_toNat (r m : Byte) : (r - m).toNat = (r.toNat + 256 - m.toNat) % 256 := by
  rw [BitVec.toNat_sub]
  omega

/-- The one's complement of a byte is its difference from 255 (R163). -/
theorem byte_xor_ff_toNat (m : Byte) : (m ^^^ 0xFF).toNat = 255 - m.toNat := by
  rw [show (0xFF : Byte) = BitVec.allOnes 8 from rfl, BitVec.xor_allOnes, BitVec.toNat_not]

/-- Bit 6 of a byte says whether its number without bit 7 is at least 64. -/
theorem byte_getLsbD_six (v : Byte) : v.getLsbD 6 = decide (64 ≤ v.toNat % 128) := by
  rw [BitVec.getLsbD, Nat.testBit_eq_decide_div_mod_eq]
  exact decide_eq_decide.mpr (by omega)

/-- Bit 8 of a sum of two bytes and a carry is its carry. -/
theorem testBit_eight {n : Nat} (h : n < 512) : n.testBit 8 = decide (256 ≤ n) := by
  rw [Nat.testBit_eq_decide_div_mod_eq]
  exact decide_eq_decide.mpr (by omega)

/-- Bit 7 of a number is the sign of its low byte. -/
theorem testBit_seven (n : Nat) : n.testBit 7 = decide (128 ≤ n % 256) := by
  rw [Nat.testBit_eq_decide_div_mod_eq]
  exact decide_eq_decide.mpr (by omega)

/-! ### Sums and differences as numbers (R161 to R164) -/

section
variable (a m : Byte) (c : Bool)

theorem binarySum_lt : binarySum a m c < 512 := by
  have hc := c.toNat_le
  unfold binarySum
  omega

/-- The binary difference as a number: the complement adds `255 - M` (R163). -/
theorem binaryDiff_eq : binaryDiff a m c = a.toNat + (255 - m.toNat) + c.toNat := by
  rw [binaryDiff, byte_xor_ff_toNat]

/-- A binary difference is the binary sum with the complement (R163). -/
theorem binaryDiff_eq_binarySum : binaryDiff a m c = binarySum a (m ^^^ 0xFF) c := rfl

/-- Binary addition gives the sum modulo 256, and its carry (R161). -/
theorem addWith_false : (addWith false a m c).r.toNat = binarySum a m c % 256 ∧
    (addWith false a m c).c = decide (256 ≤ binarySum a m c) :=
  ⟨BitVec.toNat_ofNat _ 8, testBit_eight (binarySum_lt a m c)⟩

/-- V of an addition, in both modes: the operands have one sign and the binary sum the other
(R161, R162). -/
theorem addWith_v (d : Bool) : (addWith d a m c).v = decide ((128 ≤ a.toNat ↔ 128 ≤ m.toNat) ∧
    ¬(128 ≤ a.toNat ↔ 128 ≤ binarySum a m c % 256)) := by
  have hv : (addWith d a m c).v = (a.getLsbD 7 == m.getLsbD 7 &&
      a.getLsbD 7 != (binarySum a m c).testBit 7) := by cases d <;> rfl
  rw [hv, byte_getLsbD_seven, byte_getLsbD_seven, testBit_seven, Bool.eq_iff_iff]
  simp

/-- The signs differ so just when the sum of the signed operands leaves a signed byte (R161). -/
theorem signed_overflow_iff : ((128 ≤ a.toNat ↔ 128 ≤ m.toNat) ∧
    ¬(128 ≤ a.toNat ↔ 128 ≤ binarySum a m c % 256)) ↔
    a.toInt + m.toInt + c.toNat < -128 ∨ 127 < a.toInt + m.toInt + c.toNat := by
  have hc := c.toNat_le
  simp only [BitVec.toInt_eq_toNat_cond, binarySum]
  split_ifs <;> omega

/-- C of a subtraction, in both modes: no borrow (R163, R164). -/
theorem subWith_c (d : Bool) :
    (subWith d a m c).c = decide (m.toNat + 1 ≤ a.toNat + c.toNat) := by
  refine (testBit_eight (binarySum_lt a (m ^^^ 0xFF) c)).trans (decide_eq_decide.mpr ?_)
  rw [← binaryDiff_eq_binarySum, binaryDiff_eq]
  omega

/-- V of a subtraction, in both modes: the operands differ in sign, and the binary difference has
not the sign of A (R163, R164). -/
theorem subWith_v (d : Bool) : (subWith d a m c).v = decide (¬(128 ≤ a.toNat ↔ 128 ≤ m.toNat) ∧
    ¬(128 ≤ a.toNat ↔ 128 ≤ binaryDiff a m c % 256)) := by
  rw [subWith, byte_getLsbD_seven, byte_getLsbD_seven, testBit_seven, Bool.eq_iff_iff]
  simp

/-- Binary subtraction is the addition of the complement (R163): the operand's sign is the
complement's reversed. -/
theorem subWith_false : subWith false a m c = addWith false a (m ^^^ 0xFF) c := by
  have hsign : (m ^^^ 0xFF).getLsbD 7 = !m.getLsbD 7 := by simp
  simp only [subWith, addWith, binaryDiff_eq_binarySum, hsign]
  cases a.getLsbD 7 <;> cases m.getLsbD 7 <;> rfl

end

/-- The number of a byte cut from an integer. -/
theorem byte_ofInt_toNat (t : Int) : ((BitVec.ofInt 8 t).toNat : Int) = t % 256 := by
  rw [BitVec.toNat_ofInt]
  exact Int.toNat_of_nonneg (Int.emod_nonneg _ (by decide))

/-! ### Decimal digits (R162, R164) -/

/-- The number a byte of two decimal digits stands for. -/
def bcdValue (n : Nat) : Nat := n / 16 * 10 + n % 16

/-- Both digits of a byte are decimal. -/
def ValidBcd (n : Nat) : Prop := n % 16 < 10 ∧ n / 16 < 10

/-- The byte whose two decimal digits stand for a number below 100. -/
def toBcd (n : Nat) : Nat := n / 10 * 16 + n % 10

/-- A byte written from a number modulo 100 stands for it, in valid digits. -/
theorem bcdDigits_of_eq_toBcd {r n : Nat} (h : r = toBcd (n % 100)) :
    bcdValue r = n % 100 ∧ ValidBcd r := by
  subst h
  unfold bcdValue ValidBcd toBcd
  omega

/-- The digits of a number modulo 100 are its tens modulo 10 and its ones. -/
theorem toBcd_mod_hundred (n : Nat) : toBcd (n % 100) = n / 10 % 10 * 16 + n % 10 := by
  unfold toBcd
  omega

/-- A sum of two-digit numbers, digit by digit: the ones carry 1 into the tens from 10 on. -/
theorem toBcd_add {ah al mh ml c : Nat} :
    toBcd ((ah * 10 + al + (mh * 10 + ml) + c) % 100) =
      (ah + mh + (al + ml + c) / 10) % 10 * 16 + (al + ml + c) % 10 := by
  have htens : (ah * 10 + al + (mh * 10 + ml) + c) / 10 = ah + mh + (al + ml + c) / 10 := by omega
  have hones : (ah * 10 + al + (mh * 10 + ml) + c) % 10 = (al + ml + c) % 10 := by omega
  rw [toBcd_mod_hundred, htens, hones]

/-- A difference of two-digit numbers, digit by digit: the ones borrow 1 from the tens below 10, ten
and the incoming carry being added to them first. -/
theorem toBcd_sub {ah al mh ml c : Nat} (hmh : mh < 10) (hml : ml < 10) :
    toBcd ((ah * 10 + al + 100 + c - 1 - (mh * 10 + ml)) % 100) =
      (ah + 9 - mh + (al + 9 + c - ml) / 10) % 10 * 16 + (al + 9 + c - ml) % 10 := by
  have hdigits : ah * 10 + al + 100 + c - 1 - (mh * 10 + ml) =
      (ah + 9 - mh) * 10 + (al + 9 + c - ml) := by omega
  rw [toBcd_mod_hundred, hdigits]
  omega

section
variable {a m : Byte} (ha : ValidBcd a.toNat) (hm : ValidBcd m.toNat) (c : Bool)
include ha hm

/-- On valid operands `DecAdd` is addition modulo 100 (R162): one case for each digit, corrected or
not. -/
theorem decAdd_toNat : (decAdd a m c).1.toNat =
    toBcd ((bcdValue a.toNat + bcdValue m.toNat + c.toNat) % 100) := by
  obtain ⟨hal, hah⟩ := ha
  obtain ⟨hml, hmh⟩ := hm
  have hc := c.toNat_le
  simp only [decAdd, bcdValue, toBcd_add, BitVec.toNat_ofNat]
  generalize a.toNat % 16 = al, a.toNat / 16 = ah, m.toNat % 16 = ml, m.toNat / 16 = mh at *
  split_ifs <;> omega

/-- On valid operands the carry of `DecAdd` is the hundreds (R162). -/
theorem decAdd_carry :
    (decAdd a m c).2 = decide (100 ≤ bcdValue a.toNat + bcdValue m.toNat + c.toNat) := by
  obtain ⟨hal, hah⟩ := ha
  obtain ⟨hml, hmh⟩ := hm
  have hc := c.toNat_le
  refine decide_eq_decide.mpr ?_
  unfold bcdValue
  split_ifs <;> omega

/-- On valid operands `DecSub` is subtraction modulo 100 (R164): one case for each digit, corrected
or not. -/
theorem decSub_toNat : (decSub a m c).toNat =
    toBcd ((bcdValue a.toNat + 100 + c.toNat - 1 - bcdValue m.toNat) % 100) := by
  obtain ⟨hal, hah⟩ := ha
  obtain ⟨hml, hmh⟩ := hm
  have hc := c.toNat_le
  refine Int.ofNat_inj.mp ((byte_ofInt_toNat _).trans ?_)
  rw [bcdValue, bcdValue, toBcd_sub hmh hml]
  generalize a.toNat % 16 = al, a.toNat / 16 = ah, m.toNat % 16 = ml, m.toNat / 16 = mh at *
  split_ifs <;> omega

/-- Valid operands borrow as numbers just when they do as bytes (R164). -/
theorem subWith_c_bcd (d : Bool) : (subWith d a m c).c =
    decide (bcdValue m.toNat + 1 ≤ bcdValue a.toNat + c.toNat) := by
  obtain ⟨hal, -⟩ := ha
  obtain ⟨hml, -⟩ := hm
  have hc := c.toNat_le
  refine (subWith_c a m c d).trans (decide_eq_decide.mpr ?_)
  unfold bcdValue
  omega

end

/-! ### ADC and SBC -/

/-- The flags after an addition or subtraction, field by field (R161, R163). -/
theorem Flags.afterSum_eq (f : Flags) (r : Sum) : f.afterSum r =
    { f with c := r.c, v := r.v, z := decide (r.r.toNat = 0), n := decide (128 ≤ r.r.toNat) } :=
  Flags.setZN_eq _ r.r

theorem operandValue_immediate (v : Byte) (s : State) : operandValue (.immediate v) s = v := rfl

section
variable {m : Mode} {s : State}

/-- An instruction that adds or subtracts a loadable operand, D and C taken from the flags, writes A
and the flags from what that gives. -/
theorem finish_loadOperand_sum (h : loadable m s = true) (op : Bool → Byte → Byte → Bool → Sum)
    {f : Byte × State → Result State}
    (hf : ∀ v t, f (v, t) = .ok ((t.setA (op t.flags.d t.a v t.flags.c).r).setFlags
      (t.flags.afterSum (op t.flags.d t.a v t.flags.c)))) :
    let r := op s.flags.d s.a (operandValue m s) s.flags.c
    finish (loadOperand m s >>= f) =
      .next (((afterLoad m s).setA r.r).setFlags (s.flags.afterSum r)) := by
  rw [finish_loadOperand h, hf, afterLoad_flags, afterLoad_a, finish_ok]

/-- ADC of a loadable operand writes A and the flags from its sum (R161). -/
theorem exec_adc (h : loadable m s = true) : exec (.adc m) s =
    let r := addWith s.flags.d s.a (operandValue m s) s.flags.c
    .next (((afterLoad m s).setA r.r).setFlags (s.flags.afterSum r)) :=
  finish_loadOperand_sum h addWith fun _ _ => rfl

/-- SBC of a loadable operand writes A and the flags from its difference (R163). -/
theorem exec_sbc (h : loadable m s = true) : exec (.sbc m) s =
    let r := subWith s.flags.d s.a (operandValue m s) s.flags.c
    .next (((afterLoad m s).setA r.r).setFlags (s.flags.afterSum r)) :=
  finish_loadOperand_sum h subWith fun _ _ => rfl

end

/-- Settles O34: the sum's byte and carry by mode, V from the binary sum in both. -/
theorem adcAddsWithCarry : Obligations.AdcAddsWithCarry := by
  refine ⟨rfl, fun m s h => ?next,
    faultsUnlessLoadable_of_faultsAt rfl fun m s hm h => faultsAt_loadOperand hm h _⟩
  case next =>
    have hv := addWith_v s.a (operandValue m s) s.flags.c s.flags.d
    refine ⟨_, _, exec_adc h, fun hd => ?binary, fun hd => ?decimal, ?_⟩
    case binary =>
      rw [hd, Flags.afterSum_eq]
      exact addWith_false s.a (operandValue m s) s.flags.c
    case decimal =>
      rw [hd, Flags.afterSum_eq]
      exact ⟨BitVec.toNat_ofNat _ 8, rfl⟩
    rw [Flags.afterSum_eq]
    exact ⟨hv, hv.trans (decide_eq_decide.mpr (signed_overflow_iff _ _ _)), rfl, rfl, rfl, rfl, rfl⟩

/-- Settles O35: the difference's byte by mode, C and V from the binary difference in both. -/
theorem sbcSubtractsWithBorrow : Obligations.SbcSubtractsWithBorrow := by
  refine ⟨rfl, fun m s h => ?next,
    faultsUnlessLoadable_of_faultsAt rfl fun m s hm h => faultsAt_loadOperand hm h _⟩
  case next =>
    have hv := subWith_v s.a (operandValue m s) s.flags.c s.flags.d
    rw [binaryDiff_eq] at hv
    refine ⟨_, _, exec_sbc h, fun hd => ?binary, fun hd => ?decimal, ?_⟩
    case binary =>
      rw [hd, ← binaryDiff_eq]
      exact BitVec.toNat_ofNat _ 8
    case decimal =>
      rw [hd]
      exact byte_ofInt_toNat _
    rw [Flags.afterSum_eq]
    exact ⟨subWith_c _ _ _ s.flags.d, hv, rfl, rfl, rfl, rfl, rfl⟩

/-- Settles O36: the decimal digits of `DecAdd` and `DecSub`, and the borrow of the bytes. -/
theorem decimalModeIsBcdArithmetic : Obligations.DecimalModeIsBcdArithmetic := by
  intro s M hd hal hah hml hmh
  have ha : ValidBcd s.a.toNat := ⟨hal, hah⟩
  have hm : ValidBcd M.toNat := ⟨hml, hmh⟩
  refine ⟨⟨_, exec_adc rfl, ?adc⟩, _, exec_sbc rfl, ?sbc⟩
  case adc =>
    obtain ⟨hvalue, hones, htens⟩ := bcdDigits_of_eq_toBcd (decAdd_toNat ha hm s.flags.c)
    rw [hd, Flags.afterSum_eq]
    exact ⟨hvalue, hones, htens, decAdd_carry ha hm s.flags.c⟩
  case sbc =>
    obtain ⟨hvalue, hones, htens⟩ := bcdDigits_of_eq_toBcd (decSub_toNat ha hm s.flags.c)
    rw [hd, Flags.afterSum_eq]
    exact ⟨hvalue, hones, htens, subWith_c_bcd ha hm s.flags.c true⟩

/-- Settles O37: the two sums are one. -/
theorem sbcIsAdcOfComplement : Obligations.SbcIsAdcOfComplement := by
  intro s M hd
  rw [exec_sbc rfl, exec_adc rfl, hd, operandValue_immediate, operandValue_immediate, subWith_false]
  rfl

/-! ### Logic (R165 to R167) -/

/-- An instruction that combines A with a loadable operand writes the byte to A and does SetZN. -/
theorem finish_loadOperand_logic {m : Mode} {s : State} (h : loadable m s = true)
    (op : Byte → Byte → Byte) {f : Byte × State → Result State}
    (hf : ∀ v t, f (v, t) = .ok ((t.setA (op t.a v)).setZN (op t.a v))) :
    let r := op s.a (operandValue m s)
    finish (loadOperand m s >>= f) = .next (((afterLoad m s).setA r).setFlags
      { s.flags with z := decide (r.toNat = 0), n := decide (128 ≤ r.toNat) }) :=
  finish_loadOperand_setZN h _ ((hf _ _).trans (by rw [afterLoad_a])) rfl

/-- Settles O38: each combines A with the loaded operand by its own operation. -/
theorem logicInstructions : Obligations.LogicInstructions := by
  refine ⟨rfl, rfl, rfl, fun m s h => ?next, ?_, ?_, ?_⟩
  case next =>
    exact ⟨finish_loadOperand_logic h (· &&& ·) fun _ _ => rfl,
      finish_loadOperand_logic h (· ||| ·) fun _ _ => rfl,
      finish_loadOperand_logic h (· ^^^ ·) fun _ _ => rfl⟩
  all_goals
    exact faultsUnlessLoadable_of_faultsAt rfl fun m s hm h => faultsAt_loadOperand hm h _

/-! ### Instructions that write the flags alone -/

/-- An instruction that computes the flags from a register and a loadable operand writes nothing
else. -/
theorem finish_loadOperand_setFlags {m : Mode} {s : State} (h : loadable m s = true)
    {reg : State → Byte} (hreg : reg (afterLoad m s) = reg s) (g : Flags → Byte → Byte → Flags)
    {f : Byte × State → Result State}
    (hf : ∀ v t, f (v, t) = .ok (t.setFlags (g t.flags (reg t) v))) :
    finish (loadOperand m s >>= f) =
      .next ((afterLoad m s).setFlags (g s.flags (reg s) (operandValue m s))) := by
  rw [finish_loadOperand h, hf, hreg, afterLoad_flags, finish_ok]

/-! ### Comparisons (R168 to R170, R252) -/

/-- The flags after a comparison, Z and N from the difference (R168). -/
theorem Flags.afterCompare_eq_sub (f : Flags) (r m : Byte) : f.afterCompare r m =
    { f with c := decide (m.toNat ≤ r.toNat), z := decide ((r - m).toNat = 0),
             n := decide (128 ≤ (r - m).toNat) } :=
  Flags.setZN_eq _ (r - m)

/-- The flags after a comparison as numbers: the difference is 0 iff the bytes are equal (R168). -/
theorem Flags.afterCompare_eq (f : Flags) (r m : Byte) : f.afterCompare r m =
    { f with c := decide (m.toNat ≤ r.toNat), z := decide (r = m),
             n := decide (128 ≤ (r.toNat + 256 - m.toNat) % 256) } := by
  have hz : (r - m).toNat = 0 ↔ r = m := by
    rw [byte_sub_toNat, BitVec.toNat_eq]
    omega
  rw [Flags.afterCompare_eq_sub, decide_eq_decide.mpr hz, byte_sub_toNat]

/-- Settles O39: each compares a register with the operand, and AXS keeps the difference. -/
theorem compareInstructions : Obligations.CompareInstructions := by
  refine ⟨rfl, rfl, rfl, fun _ => rfl, fun m s h => ?next, fun imm s => ?axs, ?_, ?_, ?_⟩
  case next =>
    simp only [← Flags.afterCompare_eq]
    exact ⟨finish_loadOperand_setFlags h (afterLoad_a m s) Flags.afterCompare fun _ _ => rfl,
      finish_loadOperand_setFlags h (afterLoad_x m s) Flags.afterCompare fun _ _ => rfl,
      finish_loadOperand_setFlags h (afterLoad_y m s) Flags.afterCompare fun _ _ => rfl⟩
  case axs =>
    refine ⟨(s.a &&& s.x) - imm, byte_sub_toNat _ imm, ?_⟩
    rw [← Flags.afterCompare_eq_sub]
    rfl
  all_goals
    exact faultsUnlessLoadable_of_faultsAt rfl fun m s hm h => faultsAt_loadOperand hm h _

/-! ### BIT (R171) -/

/-- The flags after BIT as numbers. -/
theorem Flags.afterBit_eq (f : Flags) (a m : Byte) : f.afterBit a m =
    { f with z := decide ((a &&& m).toNat = 0), n := decide (128 ≤ m.toNat),
             v := decide (64 ≤ m.toNat % 128) } := by
  rw [Flags.afterBit, byte_beq_zero, byte_getLsbD_seven, byte_getLsbD_six]

/-- Settles O40: BIT loads its operand and writes the flags alone. -/
theorem bitTest : Obligations.BitTest := by
  refine ⟨rfl, fun m s h => ?next,
    faultsUnlessLoadable_of_faultsAt rfl fun m s hm h => faultsAt_loadOperand hm h _⟩
  case next =>
    simp only [← Flags.afterBit_eq]
    exact finish_loadOperand_setFlags h (afterLoad_a m s) Flags.afterBit fun _ _ => rfl

/-! ### Increments and decrements (R172 to R177) -/

section
variable {m : Mode} {s : State}

/-- An instruction that modifies a storable memory operand and does SetZN of the new byte stores that
byte to the cell it read (R64). -/
theorem finish_modifyOperand_setZN {ea : Word} (hea : operandRef m s = .mem ea)
    (h : storable m s = true) (f : Byte → Byte) :
    let r := f (operandValue m s)
    finish (modifyOperand m f (fun v g => g.setZN (f v)) s) =
      .next (((afterLoad m s).afterWrite ea r).setFlags
        { s.flags with z := decide (r.toNat = 0), n := decide (128 ≤ r.toNat) }) := by
  rw [modifyOperand_ok h, finish_ok, storedThrough, hea, Flags.setZN_eq]

/-- An instruction that modifies a memory operand that is not storable faults (R136, R291). -/
theorem faultsAt_modifyOperand (hm : ∃ ea, operandRef m s = .mem ea) (h : storable m s = false)
    (f : Byte → Byte) (g : Byte → Flags → Flags) :
    FaultsAt s (storeAccesses m s) (finish (modifyOperand m f g s)) := by
  obtain ⟨e, he, hmod⟩ := modifyOperand_fault hm h f g
  exact ⟨e, he, by rw [hmod, finish]⟩

end

/-- Settles O41: each is one modification of its operand with SetZN of the new byte. -/
theorem memoryIncrements : Obligations.MemoryIncrements := by
  refine ⟨rfl, rfl, fun m s ea hea h => ?next, ?_, ?_⟩
  case next =>
    intro M result
    rw [← byte_add_one, ← byte_sub_one]
    exact ⟨finish_modifyOperand_setZN hea h (· + 1), finish_modifyOperand_setZN hea h (· - 1)⟩
  all_goals
    exact faultsUnlessStorable_of_faultsAt rfl (fun _ => rfl)
      fun m s hm h => faultsAt_modifyOperand hm h _ _

/-- Settles O42: each writes its register and does SetZN of the same byte. -/
theorem registerIncrements : Obligations.RegisterIncrements := by
  refine ⟨rfl, rfl, rfl, rfl, fun s => ?_⟩
  simp only [← byte_add_one, ← byte_sub_one]
  exact ⟨next_setZN (s.setX (s.x + 1)) rfl (s.x + 1), next_setZN (s.setY (s.y + 1)) rfl (s.y + 1),
    next_setZN (s.setX (s.x - 1)) rfl (s.x - 1), next_setZN (s.setY (s.y - 1)) rfl (s.y - 1)⟩

end Sys2Proof.Machine
end

section
/-! PROOFS. Shifts and rotates (43_shift_rotate.md R190 to R193): the next state of each as numbers,
and the fault of an operand that cannot be accessed. -/

namespace Sys2Proof.Machine

/-! ### The byte a shift gives, as a number -/

/-- Bit 0 of a byte says whether its number is odd. -/
theorem byte_getLsbD_zero (v : Byte) : v.getLsbD 0 = decide (v.toNat % 2 = 1) :=
  Nat.testBit_zero v.toNat

@[simp] theorem bitByte_getElem (b : Bool) {k : Nat} (hk : k < 8) :
    (bitByte b)[k] = (decide (k = 0) && b) :=
  (BitVec.getLsbD_eq_getElem hk).symm.trans (bitByte_getLsbD b k)

/-- A shift left doubles the byte and adds the bit that enters, modulo 256 (R190, R192). -/
theorem shiftLeft_eq_ofNat (v : Byte) (c : Bool) :
    shiftLeft v c = BitVec.ofNat 8 (v.toNat * 2 + c.toNat) := by
  have hbits : (shiftLeft v c).toNat = (v.getLsbD 6).toNat * 128 + (v.getLsbD 5).toNat * 64 +
      (v.getLsbD 4).toNat * 32 + (v.getLsbD 3).toNat * 16 + (v.getLsbD 2).toNat * 8 +
      (v.getLsbD 1).toNat * 4 + (v.getLsbD 0).toNat * 2 + c.toNat := by
    rw [byte_toNat_eq_bits]
    simp [shiftLeft]
  have hv := byte_toNat_eq_bits v
  have hlt := (shiftLeft v c).isLt
  refine BitVec.eq_of_toNat_eq ?_
  rw [BitVec.toNat_ofNat]
  omega

/-- A shift right halves the byte and adds 128 for the bit that enters (R191, R193). -/
theorem shiftRight_eq_ofNat (v : Byte) (c : Bool) :
    shiftRight v c = BitVec.ofNat 8 (v.toNat / 2 + 128 * c.toNat) := by
  have hbits : (shiftRight v c).toNat = c.toNat * 128 + (v.getLsbD 7).toNat * 64 +
      (v.getLsbD 6).toNat * 32 + (v.getLsbD 5).toNat * 16 + (v.getLsbD 4).toNat * 8 +
      (v.getLsbD 3).toNat * 4 + (v.getLsbD 2).toNat * 2 + (v.getLsbD 1).toNat := by
    rw [byte_toNat_eq_bits]
    simp [shiftRight]
  have hv := byte_toNat_eq_bits v
  have h0 := (v.getLsbD 0).toNat_le
  have hlt := (shiftRight v c).isLt
  refine BitVec.eq_of_toNat_eq ?_
  rw [BitVec.toNat_ofNat]
  omega

/-- The flags after a shift that gave the low byte of `n`, as numbers. -/
theorem Flags.afterShift_ofNat (f : Flags) (c : Bool) (n : Nat) :
    f.afterShift c (BitVec.ofNat 8 n) =
      { f with c := c, z := decide (n % 256 = 0), n := decide (128 ≤ n % 256) } := by
  rw [Flags.afterShift, Flags.setZN_eq, BitVec.toNat_ofNat]

/-! ### The instructions -/

/-- An instruction that shifts a storable operand `v` to the low byte of `n`, moving `c` out, stores
that byte through the operand and writes C, Z and N. -/
theorem finish_modifyOperand_afterShift {m : Mode} {s : State} (h : storable m s = true)
    {f : Byte → Byte} {out : Byte → Bool} {n : Nat} {c : Bool}
    (hf : f (operandValue m s) = BitVec.ofNat 8 n) (hout : out (operandValue m s) = c) :
    finish (modifyOperand m f (fun v g => g.afterShift (out v) (f v)) s) =
      .next ((storedThrough m s (BitVec.ofNat 8 n) (afterLoad m s)).setFlags
        { s.flags with c := c, z := decide (n % 256 = 0), n := decide (128 ≤ n % 256) }) := by
  rw [modifyOperand_ok h, finish_ok, hf, hout, Flags.afterShift_ofNat]

/-- Settles O43: each is one modification of its operand, by the shift of its direction, with C the
bit moved out. -/
theorem shiftInstructions : Obligations.ShiftInstructions := by
  refine ⟨rfl, rfl, rfl, rfl, fun m s h => ?next, fun s => ⟨rfl, rfl, fun r => rfl⟩,
    fun m s t ea r hea => ?stored, ?_, ?_, ?_, ?_⟩
  case next =>
    let v := operandValue m s
    have left := shiftLeft_eq_ofNat v
    have right := shiftRight_eq_ofNat v
    have high := byte_getLsbD_seven v
    have low := byte_getLsbD_zero v
    exact ⟨finish_modifyOperand_afterShift h (left false) high,
      finish_modifyOperand_afterShift h (right false) low,
      finish_modifyOperand_afterShift h (left s.flags.c) high,
      finish_modifyOperand_afterShift h (right s.flags.c) low⟩
  case stored => rw [storedThrough, hea]
  all_goals
    exact faultsUnlessStorable_of_faultsAt rfl (fun _ => rfl)
      fun m s hm h => faultsAt_modifyOperand hm h _ _

end Sys2Proof.Machine
end

section
/-! PROOFS. Control flow: jumps, subroutine call and return, and the conditional branches
(44_control_flow.md R200 to R211; 10_state.md R33; 40_addressing.md R131). -/

namespace Sys2Proof.Machine

/-- A sequence whose first part faults at one of these accesses faults there, whatever its second
part would do. -/
theorem faultsAt_bind {α : Type} {s : State} {l : List Access} {x : Result α}
    (h : ∃ e, faultOf s l = some e ∧ x = .error (.fault e)) (f : α → Result State) :
    FaultsAt s l (finish (x >>= f)) := by
  obtain ⟨e, he, rfl⟩ := h
  exact ⟨e, he, rfl⟩

/-! ### JMP (R131, R201) -/

/-- A jump through a mode that resolves to an address goes there, the target not read. -/
theorem exec_jmp {m : Mode} {s : State} {ea : Word} (h : resolves m s = true)
    (hea : operandRef m s = .mem ea) : exec (.jmp m) s = .next ((afterResolve m s).setPC ea) := by
  rw [exec, execJmp, resolve_ok h, hea]
  rfl

/-- Settles O44: the jump goes where its mode resolves, and an indirect mode resolves by reading the
pair of cells of its pointer. -/
theorem jmpGoesToTarget : Obligations.JmpGoesToTarget := by
  refine ⟨rfl, fun w s => exec_jmp rfl rfl, fun ptr s => ⟨fun h => ?next, fun h => ?fault⟩⟩
  case next => exact exec_jmp (m := .indirect ptr) h rfl
  case fault => exact faultsAt_bind (resolve_fault (m := .indirect ptr) h) _

/-! ### Two pushes, and two pulls -/

/-- A read does not depend on SP. -/
theorem State.afterRead_setSP (s : State) (a : Word) (w : Byte) :
    (s.setSP w).afterRead a = (s.afterRead a).setSP w := by
  unfold State.afterRead
  simp only [State.setSP_target]
  split <;> rfl

/-- Two pushes write the two cells from SP down and take SP down by two (R32, R62). -/
theorem State.pushedWord_eq (s : State) (w : Word) : s.pushedWord w =
    ((s.afterWrite (s.cfg.stackAddr s.sp) (hiByte w)).afterWrite
      (s.cfg.stackAddr (s.sp - 1)) (loByte w)).setSP (s.sp - 2) := by
  have hsp : s.sp - 1 - 1 = s.sp - 2 := by bv_omega
  simp only [State.pushedWord, State.pushed, State.afterWrite_setSP, State.setSP_sp,
    State.setSP_cfg, State.afterWrite_cfg, hsp]
  rfl

theorem State.pulled_sp_add_one (s : State) : s.pulled.sp + 1 = s.sp + 2 := by
  rw [State.pulled_sp]
  exact BitVec.add_assoc s.sp 1 1

/-- The second of two pulls reads the second cell above SP (R33). -/
theorem State.pulled_stackAddr (s : State) :
    s.pulled.cfg.stackAddr (s.pulled.sp + 1) = s.cfg.stackAddr (s.sp + 2) := by
  rw [State.pulled_cfg, State.pulled_sp_add_one]

/-- The word two pulls return is that of the pair of cells above SP (R33). -/
theorem State.pullWordValue_eq (s : State) : s.pullWordValue =
    (s.setSP (s.sp + 2)).pairValue (s.cfg.stackAddr (s.sp + 1)) (s.cfg.stackAddr (s.sp + 2)) := by
  rw [State.pullWordValue, State.pullValue, State.pulled_stackAddr, State.pulled, State.pairValue,
    State.afterRead_setSP, State.afterRead_setSP]
  rfl

/-- Two pulls read the pair of cells above SP and take SP up by two (R33). -/
theorem State.pulled_pulled (s : State) : s.pulled.pulled =
    (s.setSP (s.sp + 2)).afterPair (s.cfg.stackAddr (s.sp + 1)) (s.cfg.stackAddr (s.sp + 2)) := by
  rw [State.pulled, State.pulled_stackAddr, State.pulled_sp_add_one, State.pulled]
  simp only [State.afterPair, State.afterRead_setSP]
  rfl

/-! ### JSR and RTS (R202, R203) -/

/-- RTS goes one past the word it pulls (R203). -/
theorem exec_rts_of_pullWord {s t : State} {w : Word} (h : pullWord s = .ok (w, t)) :
    exec .rts s = .next (t.setPC (w + 1)) := by
  rw [exec, execRts, h]
  rfl

/-- JSR pushes the address of its own last byte and jumps (R202). -/
theorem exec_jsr {s : State} (h : s.pushable 2 = true) (target : Word) :
    exec (.jsr target) s = .next ((s.pushedWord (s.pc - 1)).setPC target) := by
  rw [exec, execJsr, pushWord_ok h]
  rfl

/-- A JSR that ends well has pushed the address of its own last byte and jumped (R202). -/
theorem exec_jsr_eq_next {s t : State} {target : Word} (h : exec (.jsr target) s = .next t) :
    t = (s.pushedWord (s.pc - 1)).setPC target := by
  obtain ⟨u, hu, h⟩ := bind_eq_ok (finish_eq_next.mp h)
  obtain ⟨-, rfl⟩ := pushWord_eq_ok hu
  exact (Except.ok.inj h).symm

/-- Settles O45: JSR is two pushes and RTS two pulls, each with the pc set after. -/
theorem jsrAndRts : Obligations.JsrAndRts := by
  refine ⟨fun _ => rfl, rfl, fun target s => ⟨fun h => ?jsr, fun h => ?jsrFault⟩,
    fun s => ⟨fun h => ?rts, fun h => ?rtsFault⟩⟩
  case jsr => rw [exec_jsr h, State.pushedWord_eq]; rfl
  case jsrFault => exact faultsAt_bind (pushWord_fault h _) _
  case rts =>
    rw [exec_rts_of_pullWord (pullWord_ok h), State.pulled_pulled, State.pullWordValue_eq]; rfl
  case rtsFault => exact faultsAt_bind (pullWord_fault h) _

/-! ### RTS after JSR -/

/-- Two pulls from RAM or ROM cells give their bytes and change SP alone (R33). -/
theorem pullWord_of_byteAt {s : State} {l h : Byte}
    (hl : s.byteAt (s.cfg.stackAddr (s.sp + 1)) = some l)
    (hh : s.byteAt (s.cfg.stackAddr (s.sp + 2)) = some h) :
    pullWord s = .ok (mkWord h l, s.setSP (s.sp + 2)) := by
  obtain ⟨hm, hv, ha⟩ := State.pair_of_byteAt (s := s.setSP (s.sp + 2)) hl hh
  have hpull : s.pullable 2 = true := State.pullable_two.trans hm
  rw [pullWord_ok hpull, State.pullWordValue_eq, State.pulled_pulled, hv, ha]

section
variable {s : State} {k k' : Nat} (hk : s.target (s.cfg.stackAddr s.sp) = some (.ram k))
  (hk' : s.target (s.cfg.stackAddr (s.sp - 1)) = some (.ram k'))
include hk hk'

/-- Two pushes on a RAM stack change memory and SP alone. -/
theorem State.pushedWord_ram (w : Word) : s.pushedWord w =
    (s.setMem (Memory.set (Memory.set s.mem k (hiByte w)) k' (loByte w))).setSP (s.sp - 2) := by
  rw [State.pushedWord_eq, State.afterWrite_ram hk,
    State.afterWrite_ram (s := s.setMem (Memory.set s.mem k (hiByte w))) (k := k') hk']
  rfl

/-- Two pulls after two pushes on a RAM stack of two different cells give the word back and restore
SP, wherever the pc has gone since (R32, R33). -/
theorem pullWord_pushedWord_ram (hw : Memory.wf s.mem) (hne : k ≠ k') (w pc : Word) :
    pullWord ((s.pushedWord w).setPC pc) = .ok (w, ((s.pushedWord w).setPC pc).setSP s.sp) := by
  have hlo : s.sp - 2 + 1 = s.sp - 1 := by bv_omega
  have hhi : s.sp - 2 + 2 = s.sp := BitVec.sub_add_cancel s.sp 2
  rw [State.pushedWord_ram hk hk']
  let m := Memory.set s.mem k (hiByte w)
  let t := ((s.setMem (Memory.set m k' (loByte w))).setSP (s.sp - 2)).setPC pc
  have tlo : t.target (t.cfg.stackAddr (t.sp + 1)) = some (.ram k') := by rw [← hk', ← hlo]; rfl
  have thi : t.target (t.cfg.stackAddr (t.sp + 2)) = some (.ram k) := by rw [← hk, ← hhi]; rfl
  have glo : Memory.get t.mem k' = loByte w := Memory.get_set_same (Memory.set_wf hw _ _) _ _
  have ghi : Memory.get t.mem k = hiByte w :=
    (Memory.get_set_ne m _ hne).trans (Memory.get_set_same hw _ _)
  have hpull := pullWord_of_byteAt (State.byteAt_ram tlo) (State.byteAt_ram thi)
  rw [glo, ghi, mkWord_hiByte_loByte] at hpull
  exact hpull.trans (by rw [← hhi]; rfl)

end

/-- Settles O46: RTS pulls the word JSR pushed, which is one below the pc behind the JSR. -/
theorem rtsReturnsAfterJsr : Obligations.RtsReturnsAfterJsr := by
  intro s t target k k' hw hk hk' hne h
  obtain rfl := exec_jsr_eq_next h
  rw [exec_rts_of_pullWord (pullWord_pushedWord_ram hk hk' hw hne _ target),
    BitVec.sub_add_cancel, State.pushedWord_ram hk hk']
  rfl

/-! ### Conditional branches (R204 to R211) -/

/-- The target of a branch is the pc plus the signed offset, modulo 65536 (R130). -/
theorem relativeTarget_eq_ofInt (pc : Word) (off : Byte) :
    relativeTarget pc off = BitVec.ofInt 16 (pc.toNat + off.toInt) := by
  have hsum := add_sext16_toNat pc off
  refine BitVec.eq_of_toNat_eq ?_
  rw [relativeTarget, BitVec.toNat_ofInt]
  omega

/-- A branch writes the pc alone, and that only if it is taken (R200). -/
theorem branch_eq (taken : Bool) (off : Byte) (s : State) : branch taken off s =
    if taken then { s with pc := BitVec.ofInt 16 (s.pc.toNat + off.toInt) } else s := by
  rw [branch, relativeTarget_eq_ofInt]
  rfl

/-- Settles O47: each of the eight is `branch` on its own flag and value. -/
theorem branchInstructions : Obligations.BranchInstructions := by
  refine ⟨fun o => ⟨rfl, rfl, rfl, rfl, rfl, rfl, rfl, rfl⟩, fun off s => ?_⟩
  have taken_on := fun c : Bool => congrArg (Host.Outcome.next (φ := Fault) (ρ := Refusal))
    (branch_eq c off s)
  exact ⟨taken_on _, taken_on _, taken_on _, taken_on _, taken_on _, taken_on _, taken_on _,
    taken_on _⟩

end Sys2Proof.Machine
end

section
/-! PROOFS. Stack push and pull, and the flag instructions (45_stack_flags.md R220 to R230;
10_state.md R31 to R33). -/

namespace Sys2Proof.Machine

/-! ### One push, or one pull -/

section
variable {s : State}

/-- An instruction that is a push to a writable cell writes that cell and takes SP down (R32). -/
theorem finish_push (h : s.pushable 1 = true) (v : Byte) :
    finish (push v s) = .next ((s.afterWrite (s.cfg.stackAddr s.sp) v).setSP (s.sp - 1)) := by
  rw [push_ok (State.pushable_one.symm.trans h), finish_ok, State.pushed]

/-- An instruction that is a push to a cell that is not writable faults there (R261, R262). -/
theorem faultsAt_push (h : s.pushable 1 = false) (v : Byte) :
    FaultsAt s [.write (s.cfg.stackAddr s.sp)] (finish (push v s)) := by
  obtain ⟨e, he, hp⟩ := push_fault (State.pushable_one.symm.trans h) v
  exact ⟨e, he, by rw [hp, finish]⟩

/-- A read of an address that is not mounted faults, whatever would follow (R261). -/
theorem faultOf_read_of_not_mounted {a : Word} (h : s.mounted a = false) (rest : List Access) :
    faultOf s (.read a :: rest) = some (.outOfRangeAccess a) := by simp [faultOf, h]

/-- An instruction that pulls from an unmounted cell faults there, whatever it would do with the byte
(R261). -/
theorem faultsAt_pull (h : s.pullable 1 = false) (f : Byte × State → Result State) :
    FaultsAt s [.read (s.cfg.stackAddr (s.sp + 1))] (finish (pull s >>= f)) := by
  have hm := State.pullable_one.symm.trans h
  exact faultsAt_bind ⟨_, faultOf_read_of_not_mounted hm [], pull_fault hm⟩ f

end

/-! ### PHA, PHP, PLA and PLP (R220 to R223) -/

/-- PLA keeps the pulled byte in A and does SetZN of it (R222). -/
theorem exec_pla {s : State} (h : s.pullable 1 = true) : exec .pla s =
    .next ((s.pulled.setA s.pullValue).setFlags { s.flags with
      z := decide (s.pullValue.toNat = 0), n := decide (128 ≤ s.pullValue.toNat) }) := by
  rw [exec, execPla, pull_ok (State.pullable_one.symm.trans h), ok_bind, finish_ok]
  exact next_setZN (s.pulled.setA s.pullValue) (State.pulled_flags s) _

/-- PLP loads the six flags from the byte it pulls (R223). -/
theorem exec_plp_of_pull {s t : State} {p : Byte} (h : pull s = .ok (p, t)) :
    exec .plp s = .next (t.setFlags (t.flags.load p)) := by
  rw [exec, execPlp, h, ok_bind, finish_ok]

/-- PLP at a mounted cell, no flag written by the pull (R33, R223). -/
theorem exec_plp {s : State} (h : s.pullable 1 = true) :
    exec .plp s = .next (s.pulled.setFlags (s.flags.load s.pullValue)) := by
  rw [exec_plp_of_pull (pull_ok (State.pullable_one.symm.trans h)), State.pulled_flags]

/-- Settles O48: a push and a pull are each one access to a stack cell, and PLP is `Flags.load`. -/
theorem pushAndPullInstructions : Obligations.PushAndPullInstructions := by
  refine ⟨rfl, rfl, rfl, rfl, fun s => ⟨fun h => ?push, fun h => ?pushFault, fun h => ?pull,
    fun h => ?pullFault⟩⟩
  case push => exact ⟨finish_push h s.a, finish_push h (s.flags.toByte true)⟩
  case pushFault => exact ⟨faultsAt_push h s.a, faultsAt_push h (s.flags.toByte true)⟩
  case pull => exact ⟨exec_pla h, exec_plp h⟩
  case pullFault => exact ⟨faultsAt_pull h _, faultsAt_pull h _⟩

/-! ### PLP after PHP -/

/-- On a RAM cell a push changes memory and SP alone (R32). -/
theorem State.pushed_ram {s : State} {k : Nat}
    (h : s.target (s.cfg.stackAddr s.sp) = some (.ram k)) (v : Byte) :
    s.pushed v = (s.setMem (Memory.set s.mem k v)).setSP (s.sp - 1) := by
  rw [State.pushed, State.afterWrite_ram h]

/-- Settles O49: the pull gives back the byte pushed, whose six flags are those of the state. -/
theorem phpThenPlpKeepsFlags : Obligations.PhpThenPlpKeepsFlags := by
  intro s t k hw hk h
  obtain ⟨-, rfl⟩ := push_eq_ok (finish_eq_next.mp h)
  rw [exec_plp_of_pull (pull_pushed_ram hw hk _), State.setSP_flags, Flags.load_toByte,
    State.pushed_ram hk]
  rfl

/-! ### The flag instructions (R224 to R230) -/

/-- Settles O50: each is `setFlags` with its one flag replaced. -/
theorem flagInstructions : Obligations.FlagInstructions :=
  ⟨rfl, rfl, rfl, rfl, rfl, rfl, rfl, fun _ => ⟨rfl, rfl, rfl, rfl, rfl, rfl, rfl⟩⟩

end Sys2Proof.Machine
end

section
/-! PROOFS. BRK, RTI, NOP and the unmapped byte (46_system.md R240 to R243; 60_exceptions.md R271,
R274, R277). -/

namespace Sys2Proof.Machine

/-! ### BRK (R240, R274) -/

/-- BRK at a writable stack and a mounted vector sets the stored Break flag and enters (R240). -/
theorem exec_brk {s : State} (hp : s.pushable 3 = true) (hv : s.pairMounted 0xFFFE 0xFFFF = true) :
    exec .brk s = .next ((s.withBreak true).entered 0xFFFE true) := by
  rw [exec, execBrk]
  exact congrArg finish (enter_ok (s := s.withBreak true) (vec := 0xFFFE) hp hv true)

/-- BRK faults where the entry does: setting the Break flag first changes no access (R240, R271). -/
theorem faultsAt_brk {s : State}
    (h : s.pushable 3 = false ∨ s.pairMounted 0xFFFE 0xFFFF = false) :
    FaultsAt s (s.entryAccesses 0xFFFE) (exec .brk s) := by
  obtain ⟨e, he, hr⟩ := enter_fault (s := s.withBreak true) (vec := 0xFFFE) h true
  rw [faultOf_eq_of_target (State.withBreak_target s true)] at he
  exact ⟨e, he, congrArg finish hr⟩

/-! ### RTI (R241, R277) -/

section
variable (s : State) (f : Flags)

/-- A read does not depend on the flags. -/
theorem State.afterRead_setFlags (a : Word) :
    (s.setFlags f).afterRead a = (s.afterRead a).setFlags f := by
  unfold State.afterRead
  rw [State.setFlags_target]
  split <;> rfl

/-- A pair of reads does not depend on the flags. -/
theorem State.afterPair_setFlags (lo hi : Word) :
    (s.setFlags f).afterPair lo hi = (s.afterPair lo hi).setFlags f := by
  rw [State.afterPair, State.afterRead_setFlags, State.afterRead_setFlags, State.afterPair]

/-- The word a pair of reads gives does not depend on the flags. -/
theorem State.pairValue_setFlags (lo hi : Word) :
    (s.setFlags f).pairValue lo hi = s.pairValue lo hi := by
  rw [State.pairValue, State.afterRead_setFlags]
  rfl

end

/-- A return reads the pair of cells above the pulled flag byte for its pc, and ends with SP up by
three and the six flags of that byte (R241, R277). -/
theorem State.left_eq (s : State) :
    let t := s.pulled.setSP (s.sp + 3)
    let lo := s.cfg.stackAddr (s.sp + 2)
    let hi := s.cfg.stackAddr (s.sp + 3)
    s.left =
      ((t.afterPair lo hi).setFlags (s.flags.load s.pullValue)).setPC (t.pairValue lo hi) := by
  let u := s.pulled.setFlags (s.flags.load s.pullValue)
  have hlo : u.sp + 1 = s.sp + 2 := s.pulled_sp_add_one
  have hhi : u.sp + 2 = s.sp + 3 :=
    (congrArg (· + 2) s.pulled_sp).trans (BitVec.add_assoc s.sp 1 2)
  have hcfg : u.cfg = s.cfg := s.pulled_cfg
  have hset : u.setSP (s.sp + 3) =
      (s.pulled.setSP (s.sp + 3)).setFlags (s.flags.load s.pullValue) := rfl
  intro t lo hi
  show u.pulled.pulled.setPC u.pullWordValue = _
  rw [State.pulled_pulled, State.pullWordValue_eq, hlo, hhi, hcfg, hset, State.afterPair_setFlags,
    State.pairValue_setFlags]

/-- RTI with a mounted stack is the return (R241). -/
theorem exec_rti {s : State} (h : s.pullable 3 = true) : exec .rti s = .next s.left := by
  rw [exec, execRti, leave_ok h, finish_ok]

/-- RTI faults at the first of its three pulls that does (R241, R261). -/
theorem faultsAt_rti {s : State} (h : s.pullable 3 = false) :
    FaultsAt s [.read (s.cfg.stackAddr (s.sp + 1)), .read (s.cfg.stackAddr (s.sp + 2)),
      .read (s.cfg.stackAddr (s.sp + 3))] (exec .rti s) := by
  obtain ⟨e, he, hr⟩ := leave_fault h
  exact ⟨e, he, congrArg finish hr⟩

/-- Settles O51: BRK is the entry with the stored Break flag set, and RTI is the return, whose reads
are those of `State.left_eq`. -/
theorem brkAndRti : Obligations.BrkAndRti := by
  refine ⟨rfl, rfl, fun s => ⟨exec_brk, faultsAt_brk, fun h => ?rti, faultsAt_rti⟩⟩
  case rti => rw [exec_rti h, State.left_eq]; rfl

/-! ### NOP and the unmapped byte (R242, R243) -/

/-- Settles O52: both are instructions of one byte whose meaning is the state as it is. -/
theorem nopAndUnmappedDoNothing : Obligations.NopAndUnmappedDoNothing :=
  ⟨rfl, rfl, fun _ => ⟨rfl, fun _ => ⟨rfl, rfl⟩⟩⟩

end Sys2Proof.Machine
end

section
/-! PROOFS. The timing device: its two-phase ports, its tick, its counters and NMIs over any number of
ticks, and that nothing but a tick moves them (60_exceptions.md R285 to R297). -/

namespace Sys2Proof.Machine

/-! ### The two-phase ports (R289) -/

/-- The high half is the byte written, unless the toggle is set. -/
@[simp] theorem hiByte_twoPhase (w : Bool) (r : Word) (v : Byte) :
    hiByte (twoPhase w r v) = if w then hiByte r else v := by cases w <;> simp [twoPhase]

/-- The low half is the byte written, if the toggle is set. -/
@[simp] theorem loByte_twoPhase (w : Bool) (r : Word) (v : Byte) :
    loByte (twoPhase w r v) = if w then v else loByte r := by cases w <;> simp [twoPhase]

/-- Two writes from a cleared toggle replace the whole register, high byte first. -/
theorem twoPhase_twoPhase (r : Word) (v v' : Byte) :
    twoPhase true (twoPhase false r v) v' = mkWord v v' := by simp [twoPhase]

/-- Settles O11: each port is the device's write to it, which is `twoPhase` on the shared toggle. -/
theorem twoPhaseWrites : Obligations.TwoPhaseWrites := by
  refine ⟨fun s a v => ⟨fun h => ?scroll, fun h => ?address⟩,
    fun s t u a a' v v' hw ha ha' ht hu => ?two⟩
  case scroll => exact ⟨_, busWrite_port h nofun v, hiByte_twoPhase .., loByte_twoPhase ..⟩
  case address => exact ⟨_, busWrite_port h nofun v, hiByte_twoPhase .., loByte_twoPhase ..⟩
  case two =>
    obtain rfl := Except.ok.inj ((busWrite_port ha nofun v).symm.trans ht)
    obtain rfl := Except.ok.inj
      ((busWrite_port (s := s.setDev (s.dev.afterWrite v .address)) ha' nofun v').symm.trans hu)
    simp [Timing.afterWrite, hw, twoPhase_twoPhase]

/-! ### One tick (R292 to R294) -/

/-- The counters after `advance`, each by itself; nothing else changes (R292). -/
theorem Timing.advance_eq (g : Geometry) (t : Timing) : t.advance g = { t with
    cycle := if t.cycle + 1 > g.cycleMax then 0 else t.cycle + 1
    scanline := if t.cycle + 1 > g.cycleMax then
      (if t.scanline = g.scanlineMax then g.prerender else t.scanline + 1) else t.scanline } := by
  unfold Timing.advance
  split <;> rfl

/-- The counters after `advance` in the source's geometry (R8). -/
theorem Timing.advance_source (t : Timing) : t.advance sourceGeometry = { t with
    cycle := if t.cycle + 1 > 340 then 0 else t.cycle + 1
    scanline := if t.cycle + 1 > 340 then (if t.scanline = 261 then -1 else t.scanline + 1)
      else t.scanline } := Timing.advance_eq sourceGeometry t

/-- A tick counts, then clears VBlank on the pre-render line and sets it on the VBlank line; it changes
nothing else. -/
theorem Timing.tick_fst (g : Geometry) (t : Timing) :
    let u := t.advance g
    let cleared := if u.scanline = g.prerender ∧ u.cycle = g.eventCycle then
      t.status &&& ~~~vblankMask else t.status
    (t.tick g).1 = { u with status :=
      if u.scanline = g.vblankLine ∧ u.cycle = g.eventCycle then cleared ||| vblankMask
      else cleared } := by
  rw [← Timing.advance_status g t]
  unfold Timing.tick
  dsimp only
  split_ifs <;> rfl

@[simp] theorem Timing.tick_control (g : Geometry) (t : Timing) :
    (t.tick g).1.control = t.control := by
  rw [Timing.tick_fst, Timing.advance_eq]

/-- A tick returns NMI iff it ends at the VBlank event with NMI generation enabled: the event sees the
counters after the increment. -/
theorem Timing.tick_snd_eq_nmi (g : Geometry) (t : Timing) : (t.tick g).2 = .nmi ↔
    (t.tick g).1.scanline = g.vblankLine ∧ (t.tick g).1.cycle = g.eventCycle ∧
      t.nmiEnabled = true := by
  obtain ⟨hs, hc⟩ := Timing.tick_counters g t
  have he : (t.advance g).nmiEnabled = t.nmiEnabled := by rw [Timing.advance_eq]; rfl
  rw [hs, hc, ← he]
  unfold Timing.tick
  dsimp only
  split_ifs <;> simp_all [Timing.nmiEnabled]

/-- Settles O15, the two events on different lines of the source's geometry. -/
theorem tickCountsAndSignals : Obligations.TickCountsAndSignals := by
  intro t c l st
  have hadv : t.advance sourceGeometry = { t with cycle := c, scanline := l } :=
    Timing.advance_source t
  have hst : (if l = 241 ∧ c = 1 then
      (if l = -1 ∧ c = 1 then t.status &&& ~~~vblankMask else t.status) ||| vblankMask
      else if l = -1 ∧ c = 1 then t.status &&& ~~~vblankMask else t.status) = st := by
    have hne : l = 241 → l ≠ -1 := by omega
    simp only [st, show vblankMask = 0x80 from rfl]
    split_ifs <;> simp_all
  have htick : (t.tick sourceGeometry).1 = { t with cycle := c, scanline := l, status := st } := by
    rw [Timing.tick_fst, hadv, ← hst]; rfl
  refine ⟨htick, ?_⟩
  rw [Timing.tick_snd_eq_nmi, htick]
  rfl

/-! ### Any number of ticks (R292, R297) -/

section
variable {t : Timing}

@[simp] theorem Timing.run_control (g : Geometry) (n : Nat) (t : Timing) :
    (Timing.run g n t).control = t.control := by
  induction n with
  | zero => rfl
  | succ n ih => rw [Timing.run, Timing.tick_control, ih]

/-- Tick `n` returns NMI iff the device is at the VBlank event after it, NMI generation enabled. -/
theorem Timing.resultOf_eq_nmi (g : Geometry) {n : Nat} (hn : 1 ≤ n) :
    Timing.resultOf g n t = .nmi ↔ (Timing.run g n t).scanline = g.vblankLine ∧
      (Timing.run g n t).cycle = g.eventCycle ∧ t.nmiEnabled = true := by
  obtain ⟨n, rfl⟩ := Nat.exists_eq_add_of_le' hn
  have he : (Timing.run g n t).nmiEnabled = t.nmiEnabled := by simp [Timing.nmiEnabled]
  rw [Timing.resultOf, Nat.add_sub_cancel, Timing.tick_snd_eq_nmi, he, Timing.run]

/-- A tick of the source's geometry takes the counters of `n` ticks from (0, 0) to those of `n + 1`. -/
theorem Timing.advance_source_counters {n : Nat} (hc : t.cycle = n % 341)
    (hl : t.scanline = if n / 341 % 263 = 262 then -1 else ((n / 341 % 263 : Nat) : Int)) :
    (t.advance sourceGeometry).cycle = (n + 1) % 341 ∧
    (t.advance sourceGeometry).scanline =
      if (n + 1) / 341 % 263 = 262 then -1 else (((n + 1) / 341 % 263 : Nat) : Int) := by
  rw [Timing.advance_source, hc, hl]
  dsimp only
  constructor
  · split <;> omega
  · split_ifs <;> omega

variable (hc : t.cycle = 0) (hl : t.scanline = 0)
include hc hl

/-- The counters of a device of the source's geometry `n` ticks after (0, 0). -/
theorem Timing.run_source_counters (n : Nat) :
    (Timing.run sourceGeometry n t).cycle = n % 341 ∧
    (Timing.run sourceGeometry n t).scanline =
      if n / 341 % 263 = 262 then -1 else ((n / 341 % 263 : Nat) : Int) := by
  induction n with
  | zero => exact ⟨hc, hl⟩
  | succ n ih =>
    obtain ⟨ihc, ihl⟩ := ih
    obtain ⟨hs, hc⟩ := Timing.tick_counters sourceGeometry (Timing.run sourceGeometry n t)
    rw [Timing.run, hs, hc]
    exact Timing.advance_source_counters ihc ihl

/-- The NMIs of a device of the source's geometry started at (0, 0) with NMI generation enabled: one in
every 263 lines of 341 cycles. -/
theorem Timing.resultOf_source_eq_nmi (he : t.nmiEnabled = true) {n : Nat} (hn : 1 ≤ n) :
    Timing.resultOf sourceGeometry n t = .nmi ↔ n % 89683 = 82182 := by
  obtain ⟨hcn, hln⟩ := Timing.run_source_counters hc hl n
  rw [Timing.resultOf_eq_nmi _ hn, hcn, hln]
  simp only [sourceGeometry, he, and_true]
  split <;> omega

end

/-- Settles O16, by induction on the number of ticks. -/
theorem countersAfterTicks : Obligations.CountersAfterTicks :=
  fun n => Timing.run_source_counters (t := Timing.constructed) rfl rfl n

/-- Settles O17: NMIs are a frame of 89683 ticks apart, and the first 341 × 242 ticks are less than
that. -/
theorem oneNmiPerFrame : Obligations.OneNmiPerFrame := by
  intro c he t
  have hnmi {n : Nat} (hn : 1 ≤ n) :
      Timing.resultOf sourceGeometry n t = .nmi ↔ n % 89683 = 82182 :=
    Timing.resultOf_source_eq_nmi (t := t) rfl rfl he hn
  obtain ⟨hc₁, hl₁⟩ := Timing.run_source_counters (t := t) rfl rfl 82182
  obtain ⟨hc₂, hl₂⟩ := Timing.run_source_counters (t := t) rfl rfl (341 * 242)
  refine ⟨fun n hn hle => ?_, hl₁.trans (by decide), hc₁.trans (by decide),
    hl₂.trans (by decide), hc₂.trans (by decide), fun n hn => hnmi hn⟩
  rw [hnmi hn, Nat.mod_eq_of_lt (by omega)]

/-! ### Only a tick moves the counters and the status register (R286, R290, R291) -/

/-- The status register and the counters of the device are those of `d`. -/
def State.StatusIs (d : Timing) (s : State) : Prop :=
  s.dev.status = d.status ∧ s.dev.scanline = d.scanline ∧ s.dev.cycle = d.cycle

/-- Every operation of an instruction keeps the status register and the counters: a read of the status
port resets the toggle alone, and a write to it faults. -/
theorem State.StatusIs.keptByOps (d : Timing) : KeptByOps (State.StatusIs d) where
  setA _ h := h
  setX _ h := h
  setY _ h := h
  setSP _ h := h
  setPC _ h := h
  setFlags _ h := h
  afterRead {s} a h := by
    rw [State.StatusIs, State.afterRead_dev]
    split <;> exact h
  afterWrite {s} a v _ h := by
    rcases ha : s.target a with _ | (k | k | p)
    · rwa [State.afterWrite_unmounted ha]
    · rwa [State.afterWrite_ram ha]
    · rwa [State.afterWrite_rom ha]
    · rw [State.afterWrite_port ha]
      obtain ⟨hs, hl, hc⟩ := h
      obtain ⟨ks, kl, kc⟩ := s.dev.afterWrite_kept v p
      exact ⟨ks.trans hs, kl.trans hl, kc.trans hc⟩

/-- What the operations of an instruction and the start of the machine keep, the events of a boundary
keep (R275). -/
theorem KeptByOps.presentEvents {P : State → Prop} (k : KeptByOps P)
    (start : ∀ {s : State}, P s → P s.start) {e : Events} {s t : State}
    (h : presentEvents e s = .ok t) (hp : P s) : P t := by
  obtain ⟨s₁, h₁, h⟩ := bind_eq_ok h
  obtain ⟨s₂, h₂, h⟩ := bind_eq_ok h
  have hp₁ : P s₁ := KeptByDriver.onlyIf_kept h₁ (k.resetEvent start) hp
  have hp₂ : P s₂ := KeptByDriver.onlyIf_kept h₂ k.enter hp₁
  refine KeptByDriver.onlyIf_kept h (fun h hp => ?_) hp₂
  unfold irqEvent at h
  split at h
  · cases h; exact hp
  · exact k.enter h hp

/-- Settles O18: of the driver's actions all but a tick are made of operations that keep the status
register and the counters. -/
theorem statusChangedByTickOnly : Obligations.StatusChangedByTickOnly := by
  intro s t hnot hstep
  have k := State.StatusIs.keptByOps s.dev
  have hs : State.StatusIs s.dev s := ⟨rfl, rfl, rfl⟩
  show State.StatusIs s.dev t
  rcases hd : s.driver with _ | ⟨_ | forward | e | start, rest⟩ <;> rw [step, hd] at hstep
  · exact k.cpuStep hstep hs
  · exact k.cpuStep (s := s.setDriver rest) hstep hs
  · exact absurd hd (hnot forward rest)
  · exact k.presentEvents (s := s.setDriver rest) id (finish_eq_next.mp hstep) hs
  · cases hstep; exact hs

end Sys2Proof.Machine
end

section
/-! PROOFS. Interrupt entry, the events of a boundary, the driver's tick and the injection
(60_exceptions.md R268 to R277, R295, R296; 70_reset_and_hazards.md R320). -/

namespace Sys2Proof.Machine

/-! ### The entry (R271) -/

/-- An entry writes the three cells from SP down, takes SP down by three, sets I, and then reads the
vector. -/
theorem State.entered_eq (s : State) (vec : Word) (b : Bool) :
    let pushed := ((s.afterWrite (s.cfg.stackAddr s.sp) (hiByte s.pc)).afterWrite
      (s.cfg.stackAddr (s.sp - 1)) (loByte s.pc)).afterWrite
      (s.cfg.stackAddr (s.sp - 2)) (s.flags.toByte b)
    let u := (pushed.setSP (s.sp - 3)).setFlags { s.flags with i := true }
    s.entered vec b = (u.afterPair vec (vec + 1)).setPC (u.pairValue vec (vec + 1)) := by
  intro pushed u
  have hsp : s.sp - 2 - 1 = s.sp - 3 := by bv_omega
  have hu : ((s.pushedWord s.pc).pushed (s.flags.toByte b)).setFlags { s.flags with i := true } =
      u := by
    simp only [State.pushedWord_eq, State.pushed, State.afterWrite_setSP, State.setSP_sp,
      State.setSP_cfg, State.afterWrite_cfg, hsp]
    rfl
  simp only [State.entered, hu]

/-- An entry's memory is that of its three pushes. -/
theorem State.entered_mem (s : State) (vec : Word) (b : Bool) :
    (s.entered vec b).mem = ((s.pushedWord s.pc).pushed (s.flags.toByte b)).mem := by
  simp [State.entered]

@[simp] theorem State.entered_cfg (s : State) (vec : Word) (b : Bool) :
    (s.entered vec b).cfg = s.cfg := by simp [State.entered, State.pushedWord]

@[simp] theorem State.entered_driver (s : State) (vec : Word) (b : Bool) :
    (s.entered vec b).driver = s.driver := by simp [State.entered, State.pushedWord]

@[simp] theorem State.entered_started (s : State) (vec : Word) (b : Bool) :
    (s.entered vec b).started = s.started := by simp [State.entered, State.pushedWord]

@[simp] theorem State.entered_target (s : State) (vec : Word) (b : Bool) :
    (s.entered vec b).target = s.target := State.target_eq_of_cfg (by simp)

/-- A RAM stack can be pushed to three times. -/
theorem State.pushable_of_stackRam {s : State} (h : s.stackRam) : s.pushable 3 = true := by
  obtain ⟨k₀, k₁, k₂, h₀, h₁, h₂, -⟩ := h
  have hw {a : Word} {k : Nat} (ha : s.target a = some (.ram k)) : s.writable a = true := by
    simp [State.writable, State.mounted_of_target ha, ha]
  rw [State.pushable_three]
  exact Bool.and_eq_true_iff.mpr ⟨Bool.and_eq_true_iff.mpr ⟨hw h₀, hw h₁⟩, hw h₂⟩

/-- After an entry on a RAM stack the three cells hold the pc, high byte first, and the flag byte. -/
theorem State.entered_byteAt {s : State} (hw : Memory.wf s.mem) (h : s.stackRam) (vec : Word)
    (b : Bool) : let t := s.entered vec b
    t.byteAt (s.cfg.stackAddr s.sp) = some (hiByte s.pc) ∧
    t.byteAt (s.cfg.stackAddr (s.sp - 1)) = some (loByte s.pc) ∧
    t.byteAt (s.cfg.stackAddr (s.sp - 2)) = some (s.flags.toByte b) := by
  obtain ⟨k₀, k₁, k₂, h₀, h₁, h₂, h₀₁, h₀₂, h₁₂⟩ := h
  intro t
  let m₁ := Memory.set s.mem k₀ (hiByte s.pc)
  let m₂ := Memory.set m₁ k₁ (loByte s.pc)
  have hm₁ : Memory.wf m₁ := Memory.set_wf hw _ _
  have hm₂ : Memory.wf m₂ := Memory.set_wf hm₁ _ _
  have hmem : t.mem = Memory.set m₂ k₂ (s.flags.toByte b) := by
    simp only [t, State.entered_mem]
    rw [State.pushedWord_ram h₀ h₁,
      State.pushed_ram (s := (s.setMem m₂).setSP (s.sp - 2)) (k := k₂) h₂]
    rfl
  have htgt : t.target = s.target := State.entered_target s vec b
  rw [State.byteAt_ram (htgt ▸ h₀), State.byteAt_ram (htgt ▸ h₁), State.byteAt_ram (htgt ▸ h₂),
    hmem, Memory.get_set_same hm₂, Memory.get_set_ne _ _ h₁₂, Memory.get_set_same hm₁,
    Memory.get_set_ne _ _ h₀₂, Memory.get_set_ne _ _ h₀₁, Memory.get_set_same hw]
  exact ⟨rfl, rfl, rfl⟩

/-- Settles O20: the entry that ends well is `State.entered`, and `enter_fault` is its faults. -/
theorem entrySequence : Obligations.EntrySequence := by
  refine ⟨fun s vec b hp hv => ⟨?state, fun hw hram => ?ram⟩, fun s vec b h => enter_fault h b⟩
  case state => rw [enter_ok hp hv, State.entered_eq]; rfl
  case ram =>
    obtain ⟨hhi, hlo, hfl⟩ := State.entered_byteAt hw hram vec b
    refine ⟨_, enter_ok hp hv b, hhi, hlo, hfl, ?_, State.entered_flags .., State.entered_a ..,
      State.entered_x .., State.entered_y ..⟩
    exact (State.entered_sp ..).trans (BitVec.sub_eq_add_neg s.sp 3).symm

section
variable {s u : State} {vec : Word} (hc : u.cfg = s.cfg) (hsp : u.sp = s.sp)
include hc

theorem State.pairMounted_eq_of_cfg (lo hi : Word) : u.pairMounted lo hi = s.pairMounted lo hi := by
  simp only [State.pairMounted, State.mounted_eq_of_target (State.target_eq_of_cfg hc)]

include hsp

theorem State.pushable_eq_of_cfg_sp (n : Nat) : u.pushable n = s.pushable n := by
  simp only [State.pushable, hc, hsp, State.writable_eq_of_target (State.target_eq_of_cfg hc)]

/-- An entry that can end well, judged where the configuration and SP are the same, does. -/
theorem finish_enter (hp : s.pushable 3 = true) (hv : s.pairMounted vec (vec + 1) = true)
    (b : Bool) : finish (enter vec b u) = .next (u.entered vec b) := by
  rw [← State.pushable_eq_of_cfg_sp hc hsp] at hp
  rw [← State.pairMounted_eq_of_cfg hc] at hv
  rw [enter_ok hp hv, finish_ok]

/-- An entry that cannot end well, judged where the configuration and SP are the same, faults at the
first of its accesses that faults. -/
theorem faultsAt_enter (h : s.pushable 3 = false ∨ s.pairMounted vec (vec + 1) = false) (b : Bool) :
    FaultsAt s (s.entryAccesses vec) (finish (enter vec b u)) := by
  rw [← State.pushable_eq_of_cfg_sp hc hsp, ← State.pairMounted_eq_of_cfg hc] at h
  have ha : u.entryAccesses vec = s.entryAccesses vec := by simp only [State.entryAccesses, hc, hsp]
  obtain ⟨e, he, hr⟩ := enter_fault h b
  rw [faultOf_eq_of_target (State.target_eq_of_cfg hc), ha] at he
  exact ⟨e, he, congrArg finish hr⟩

end

/-! ### The events of a boundary (R272, R273, R275) -/

section
variable (s : State)

/-- An NMI presented alone is the NMI event. -/
theorem presentEvents_nmi : presentEvents ⟨false, true, false⟩ s = nmiEvent s := by
  show (nmiEvent s >>= fun t => .ok t) = nmiEvent s
  cases nmiEvent s <;> rfl

/-- An IRQ presented alone is the IRQ event. -/
theorem presentEvents_irq : presentEvents ⟨false, false, true⟩ s = irqEvent s := rfl

theorem irqEvent_of_disabled (h : s.flags.i = true) : irqEvent s = .ok s := by
  rw [irqEvent, if_pos h]

theorem irqEvent_of_enabled (h : s.flags.i = false) : irqEvent s = enter 0xFFFE false s := by
  rw [irqEvent, if_neg (by simp [h])]
  rfl

/-- An IRQ behind an NMI is suppressed: the entry set I. -/
theorem nmiEvent_bind_irqEvent : (nmiEvent s >>= irqEvent) = nmiEvent s := by
  cases h : nmiEvent s with
  | error e => rfl
  | ok t =>
    obtain ⟨-, -, rfl⟩ := enter_eq_ok h
    exact irqEvent_of_disabled _ (by rw [State.entered_flags])

end

/-- Settles O21: each event presented alone is the entry through its vector, or nothing. -/
theorem nmiEntersAlwaysIrqIfEnabled : Obligations.NmiEntersAlwaysIrqIfEnabled := by
  intro s rest u
  have nmi (hd : s.driver = .present ⟨false, true, false⟩ :: rest) :
      step s = finish (enter 0xFFFA false u) := by
    rw [step_present hd, presentEvents_nmi]; rfl
  have irq (hd : s.driver = .present ⟨false, false, true⟩ :: rest) : step s = finish (irqEvent u) :=
    step_present hd
  refine ⟨fun hd hp hv => ?nmi, fun hd hi hp hv => ?irq, fun hd hi => ?masked,
    fun hd h => ?nmiFault, fun hd hi h => ?irqFault⟩
  case nmi => rw [nmi hd]; exact finish_enter (s := s) (u := u) rfl rfl hp hv false
  case irq =>
    rw [irq hd, irqEvent_of_enabled u hi]
    exact finish_enter (s := s) (u := u) rfl rfl hp hv false
  case masked => rw [irq hd, irqEvent_of_disabled u hi, finish_ok]
  case nmiFault => rw [nmi hd]; exact faultsAt_enter (s := s) (u := u) rfl rfl h false
  case irqFault =>
    rw [irq hd, irqEvent_of_enabled u hi]
    exact faultsAt_enter (s := s) (u := u) rfl rfl h false

/-- Settles O22: a boundary is the sequence of its events, the first of which is the one presented
alone. -/
theorem eventsApplyInOrder : Obligations.EventsApplyInOrder := by
  refine fun s => ⟨fun r => ?suppressed, fun t n i h => ?resetFirst, fun t i h => ?nmiFirst⟩
  case suppressed =>
    have hb (t : State) : (nmiEvent t >>= irqEvent) = (nmiEvent t >>= fun u => .ok u) := by
      rw [nmiEvent_bind_irqEvent]
      cases nmiEvent t <;> rfl
    exact congrArg finish (congrArg (onlyIf r resetEvent s >>= ·) (funext hb))
  case resetFirst =>
    have hr : resetEvent s = .ok t := (presentEvents_reset s).symm.trans (finish_eq_next.mp h)
    show finish (resetEvent s >>= fun u => onlyIf n nmiEvent u >>= onlyIf i irqEvent) = _
    rw [hr]; rfl
  case nmiFirst =>
    have hn : nmiEvent s = .ok t := (presentEvents_nmi s).symm.trans (finish_eq_next.mp h)
    show finish (nmiEvent s >>= onlyIf i irqEvent) = _
    rw [hn]; rfl

/-! ### The driver's tick (R295, R296) -/

/-- A tick whose result is not NMI, or is dropped, changes the device alone. -/
theorem step_tick_of_not_forwarded {s : State} {forward : Bool} {rest : List DriverAction}
    (hd : s.driver = .tick forward :: rest)
    (h : (s.dev.tick s.cfg.geometry).2 = .normal ∨ forward = false) :
    step s = .next ((s.setDriver rest).setDev (s.dev.tick s.cfg.geometry).1) := by
  simp only [step, hd, act, tickDevice]
  rw [if_neg (by rcases h with h | h <;> simp [h]), finish_ok]
  rfl

/-- An NMI that is forwarded is entered at once, on the device after the tick. -/
theorem step_tick_of_forwarded {s : State} {forward : Bool} {rest : List DriverAction}
    (hd : s.driver = .tick forward :: rest) (h : (s.dev.tick s.cfg.geometry).2 = .nmi)
    (hf : forward = true) : step s =
      finish (enter 0xFFFA false ((s.setDriver rest).setDev (s.dev.tick s.cfg.geometry).1)) := by
  simp only [step, hd, act, tickDevice]
  rw [if_pos ⟨hf, h⟩]
  rfl

/-- A CPU step leaves the driver's actions alone. -/
theorem cpuStep_driver {s t : State} (h : cpuStep s = .next t) : t.driver = s.driver := by
  have k : KeptByOps fun u => u.driver = s.driver :=
    ⟨fun _ => id, fun _ => id, fun _ => id, fun _ => id, fun _ => id, fun _ => id,
      fun a h => (State.afterRead_driver _ a).trans h,
      fun a v _ h => (State.afterWrite_driver _ a v).trans h⟩
  exact k.cpuStep h rfl

/-- Two steps are the second step, if the first ends well. -/
theorem run_two {s t : State} (h : step s = .next t) :
    Host.Core.run Sys2Proof.core 2 s = step t := by
  simp only [Host.Core.run, core, h]
  cases step t <;> rfl

/-- Settles O23: the tick is `step_tick_of_not_forwarded` or `step_tick_of_forwarded`, also as the
second of two steps. -/
theorem driverTick : Obligations.DriverTick := by
  refine ⟨fun s forward rest hd => ?alone, fun s s₁ forward rest hd h₁ => ?afterCpu⟩
  case alone =>
    intro d u
    refine ⟨fun h => step_tick_of_not_forwarded hd h, fun h hf hp hv => ?_, fun h hf hp => ?_⟩ <;>
      rw [step_tick_of_forwarded hd h hf]
    · exact finish_enter (s := s) (u := u) rfl rfl hp hv false
    · exact faultsAt_enter (s := s) (u := u) rfl rfl hp false
  case afterCpu =>
    intro d u
    have hs : step s = .next s₁ := by rw [step, hd]; exact h₁
    have hd₁ : s₁.driver = .tick forward :: rest := cpuStep_driver h₁
    rw [run_two hs]
    refine ⟨fun h => step_tick_of_not_forwarded hd₁ h, fun h hf hp hv => ?_⟩
    rw [step_tick_of_forwarded hd₁ h hf]
    exact finish_enter (s := u) (u := u) rfl rfl hp hv false

/-! ### RTI after an entry (R277) -/

/-- A return from three RAM or ROM cells writes the flags, SP and the pc from their bytes, and nothing
else. -/
theorem leave_of_byteAt {s : State} {p lo hi : Byte}
    (hp : s.byteAt (s.cfg.stackAddr (s.sp + 1)) = some p)
    (hlo : s.byteAt (s.cfg.stackAddr (s.sp + 2)) = some lo)
    (hhi : s.byteAt (s.cfg.stackAddr (s.sp + 3)) = some hi) : leave s =
      .ok (((s.setSP (s.sp + 3)).setFlags (s.flags.load p)).setPC (mkWord hi lo)) := by
  obtain ⟨mp, vp, ap⟩ := State.read_of_byteAt hp
  obtain ⟨mlo, -, -⟩ := State.read_of_byteAt hlo
  obtain ⟨mhi, -, -⟩ := State.read_of_byteAt hhi
  have hpull : s.pullable 3 = true := by
    rw [State.pullable_three]
    exact Bool.and_eq_true_iff.mpr ⟨Bool.and_eq_true_iff.mpr ⟨mp, mlo⟩, mhi⟩
  have hpulled : s.pulled.setSP (s.sp + 3) = s.setSP (s.sp + 3) := by
    rw [State.pulled, State.afterRead_setSP, ap]; rfl
  obtain ⟨-, hv, ha⟩ := State.pair_of_byteAt (s := s.setSP (s.sp + 3)) hlo hhi
  rw [leave_ok hpull, State.left_eq, hpulled, hv, ha, State.pullValue, vp]

theorem State.setPC_byteAt (s : State) (w : Word) : (s.setPC w).byteAt = s.byteAt := rfl

/-- A return from an entry on a RAM stack, wherever the pc has gone since, has the pc, SP and flags of
before the entry. -/
theorem leave_entered_ram {s : State} (hw : Memory.wf s.mem) (h : s.stackRam) (vec pc : Word)
    (b : Bool) : let t := (s.entered vec b).setPC pc
    leave t = .ok (((t.setSP s.sp).setFlags s.flags).setPC s.pc) := by
  intro t
  have hsp : t.sp = s.sp + -3 := State.entered_sp s vec b
  have hcfg : t.cfg = s.cfg := State.entered_cfg s vec b
  have hbyte : t.byteAt = (s.entered vec b).byteAt := State.setPC_byteAt _ pc
  have hflags : t.flags = { s.flags with i := true } := State.entered_flags s vec b
  have hsp₁ : t.sp + 1 = s.sp - 2 := by rw [hsp]; bv_omega
  have hsp₂ : t.sp + 2 = s.sp - 1 := by rw [hsp]; bv_omega
  have hsp₃ : t.sp + 3 = s.sp := by rw [hsp]; bv_omega
  obtain ⟨hhi, hlo, hp⟩ := State.entered_byteAt hw h vec b
  have tp : t.byteAt (t.cfg.stackAddr (t.sp + 1)) = some (s.flags.toByte b) := by
    rw [hbyte, hcfg, hsp₁, hp]
  have tlo : t.byteAt (t.cfg.stackAddr (t.sp + 2)) = some (loByte s.pc) := by
    rw [hbyte, hcfg, hsp₂, hlo]
  have thi : t.byteAt (t.cfg.stackAddr (t.sp + 3)) = some (hiByte s.pc) := by
    rw [hbyte, hcfg, hsp₃, hhi]
  rw [leave_of_byteAt tp tlo thi, mkWord_hiByte_loByte, Flags.load_toByte, hsp₃, hflags]

/-- Settles O53: the NMI step is the entry, and the step after it the RTI, which is the return from
that entry. -/
theorem nmiThenRtiResumes : Obligations.NmiThenRtiResumes := by
  intro s hd hstarted hw hram hv hfetch
  let u := s.setDriver []
  let t := u.entered 0xFFFA false
  have hnmi : step s = .next t := by
    rw [step_present hd, presentEvents_nmi]
    exact finish_enter (s := u) rfl rfl (State.pushable_of_stackRam hram) hv false
  have hrti : step t = finish (leave (t.advance 1)) :=
    step_of_fetch_ok (s := t) (State.entered_driver ..) ((State.entered_started ..).trans hstarted)
      hfetch
  rw [run_two hnmi, hrti, State.advance, leave_entered_ram (s := u) hw hram]
  refine ⟨_, finish_ok _, ?_⟩
  simp [u]

/-! ### Starting a run (R320) -/

/-- Settles O24: an injection is a step of its own, and a CPU step looks at the latch first. -/
theorem runStartsByInjectionOrReset : Obligations.RunStartsByInjectionOrReset := by
  refine ⟨fun s start rest hd => ?inject, fun s hd hs => ?refused⟩
  case inject => simp only [step, hd, act]; rfl
  case refused => simp [step, hd, cpuStep, hs]

end Sys2Proof.Machine
end
